-- ==== Sys2Proof/Word.lean ====
section
/-! DEFINITION. The word types of the block: its 8-bit data bus, its 16-bit bus address (00_scope.md R7)
and its 32-bit command word (30_encoding.md R46). All values are unsigned (R11). -/

namespace Sys2Proof

/-- One byte of the 8-bit data bus `D[7:0]`. -/
abbrev Byte := BitVec 8

/-- A 16-bit bus address. -/
abbrev Addr := BitVec 16

/-- A 32-bit command word. -/
abbrev Word := BitVec 32

end Sys2Proof
end

