-- ==== Sys2Proof/Config.lean ====
section
/-! DEFINITION. The configuration of 00_scope.md R8, R9 and R10: the values this hardware gives the constants, the
record `Cfg` with every field of R9, and the free values (opaque, no proof can see them). -/

namespace Sys2Proof

/-! ## The constants of this hardware (R9)

The block reads its constants from `Cfg`. These are the values R9 gives them, for what the spec writes with the
numbers themselves: the reference configuration, the words of the pseudo-commands (30_encoding.md R52) and the
reference target (20_memory.md R43-R45). Log 2. -/

/-- `ADDR_W`: the width of `Addr` (R7). -/
def Config.addrW : Nat := 16

/-- `DATA_W`: the width of `Byte` (R7). -/
def Config.dataW : Nat := 8

/-- `SHIFT_BITS`: one clock pulse for each address bit. -/
def Config.shiftBits : Nat := 16

/-- `EXT_BASE`: the first address of the extended window. -/
def Config.extBase : Addr := 0x8000

/-- `CTRL_RAMEN`: the RAM-enable control address. -/
def Config.ctrlRamen : Addr := 0x0000

/-- `CTRL_BANK`: the bank-select control address. -/
def Config.ctrlBank : Addr := 0x4000

/-- `ENABLE_CODE`. -/
def Config.enableCode : Byte := 0x0A

/-- `DISABLE_CODE`. -/
def Config.disableCode : Byte := 0x00

/-- `NBANKS`. -/
def Config.nbanks : Nat := 4

/-- `BANK_SIZE`: 8 KiB. -/
def Config.bankSize : Nat := 0x2000

/-- `RAM_BASE`: the first address of the banked RAM window. -/
def Config.ramBase : Addr := 0xA000

/-- `RAM_LIMIT`: the first address past the RAM window. -/
def Config.ramLimit : Addr := 0xC000

/-! ## The configuration record -/

/-- A blob descriptor (R10): `offset` is relative to `RAM_BASE`. -/
structure Blob where
  bank   : Byte
  offset : Addr
  bytes  : List Byte
deriving DecidableEq, Repr

/-- The configuration record `Cfg` (R8) with the fields of R9, `PROGRAM` apart (10_state.md R16 lists it beside
`Cfg`). The offsets `chkStart`, `chkEnd`, `chkWrite` and `patchOff` are relative to `RAM_BASE`. No rule of the spec
reads `ADDR_W`, `DATA_W`, `TIME_UNIT`, `PATCH_OFF` or `PATCH_VAL` (log 2). -/
structure Cfg where
  addrW       : Nat
  dataW       : Nat
  shiftBits   : Nat
  extBase     : Addr
  ctrlRamen   : Addr
  ctrlBank    : Addr
  enableCode  : Byte
  disableCode : Byte
  nbanks      : Nat
  bankSize    : Nat
  ramBase     : Addr
  ramLimit    : Addr
  settle      : Nat
  timeUnit    : Nat
  blinkOn     : Nat
  blinkOff    : Nat
  chkStart    : Nat
  chkEnd      : Nat
  chkWrite    : Nat
  chkInit     : Byte
  chkBank     : Byte
  blobs       : List Blob
  patchOff    : Nat × Nat
  patchVal    : Byte × Byte
  cfgValidate : Bool
deriving DecidableEq, Repr

/-! ## Free values

Opaque: a proof that uses one holds whatever it is. -/

/-- `TIME_UNIT` is OPEN (R9, U10). -/
opaque Config.timeUnit : Nat

/-- The primary payload `P`, OPEN (R10, U12). -/
opaque Config.primaryPayload : List Byte

/-- The trampoline payload `T`, OPEN (R10, U12). -/
opaque Config.trampolinePayload : List Byte

/-- `VERIFY_PROGRAM`, OPEN (44_control.md R84, U11). -/
opaque Config.verifyProgram : List Word

/-- `D_OUT` at the start of run n: any byte (10_state.md R27, U7). Log 5. -/
opaque Config.dOutAtReset : Nat → Byte

/-- `SR` at the start of run n: any 16-bit value (10_state.md R27, U7). Log 5. -/
opaque Config.srAtReset : Nat → Addr

/-- The reference target's `TEN` at the start of run n: a draw (20_memory.md R43). Log 6. -/
opaque Config.tenAtStart : Nat → Option Byte

/-- The reference target's `TBANK` at the start of run n: a draw (20_memory.md R43). Log 6. -/
opaque Config.tbankAtStart : Nat → Option Byte

/-- The reference target's RAM at the start of run n, by location: draws (20_memory.md R43, U2). Log 6. -/
opaque Config.tramAtStart : Nat → Nat → Byte

end Sys2Proof
end

