-- ==== Sys2Proof/Syntax.lean ====
section
/-! DEFINITION. The commands of the sequencer (30_encoding.md R48) and the three pseudo-commands (R52): one
constructor for every row of spec/opcode_table.json. -/

namespace Sys2Proof

/-- A command or pseudo-command with its operands. Operands have the width their field has (R47), so that an
operand out of range cannot be written; the assembler's range check (R51) is in WellFormed.lean. -/
inductive Instr where
  /-- `SHIFT a` -/
  | shift (a : Addr)
  /-- `BWR a, d` -/
  | bwr (a : Addr) (d : Byte)
  /-- `BRD a` -/
  | brd (a : Addr)
  /-- `DIRIN` -/
  | dirin
  /-- `DIROUT` -/
  | dirout
  /-- `ACCINIT c` -/
  | accinit (c : Byte)
  /-- `ACCSUB a` -/
  | accsub (a : Addr)
  /-- `ACCST a` -/
  | accst (a : Addr)
  /-- `PROG k`, the blob index k -/
  | prog (k : Byte)
  /-- `CHKSUM` -/
  | chksum
  /-- `DONE` -/
  | done
  /-- `PANIC` -/
  | panic
  /-- `RAMEN`, a pseudo-command -/
  | ramen
  /-- `RAMDIS`, a pseudo-command -/
  | ramdis
  /-- `SELBANK n`, a pseudo-command -/
  | selbank (n : Byte)
deriving DecidableEq, Repr

end Sys2Proof
end

