-- ==== Sys2Proof/WellFormed.lean ====
section
/-! DEFINITION. Which terms are well formed: a decoded command (30_encoding.md R49, R52), and an assembler
command whose operands are of the right number and in range (R51). -/

namespace Sys2Proof

/-- A command the decoder can produce: one of the twelve of R48. The three pseudo-commands are not: 'A decoder
sees only the `BWR`' (R52). -/
def Instr.wellFormed : Instr → Bool
  | .shift _ | .bwr _ _ | .brd _ | .dirin | .dirout | .accinit _ | .accsub _ | .accst _ | .prog _
  | .chksum | .done | .panic => true
  | .ramen | .ramdis | .selbank _ => false

/-- What a pseudo-command expands to (R52); a command expands to itself. -/
def Instr.expand : Instr → Instr
  | .ramen => .bwr Config.ctrlRamen Config.enableCode
  | .ramdis => .bwr Config.ctrlRamen Config.disableCode
  | .selbank n => .bwr Config.ctrlBank n
  | .shift a => .shift a
  | .bwr a d => .bwr a d
  | .brd a => .brd a
  | .dirin => .dirin
  | .dirout => .dirout
  | .accinit c => .accinit c
  | .accsub a => .accsub a
  | .accst a => .accst a
  | .prog k => .prog k
  | .chksum => .chksum
  | .done => .done
  | .panic => .panic

/-- The mnemonics of spec/opcode_table.json. -/
inductive Mnemonic where
  | shift | bwr | brd | dirin | dirout | accinit | accsub | accst | prog | chksum | done | panic
  | ramen | ramdis | selbank
deriving DecidableEq, Repr

/-- An assembler command as written: a mnemonic and its operands, numbers of any size (R51). -/
structure AsmCmd where
  mnemonic : Mnemonic
  operands : List Nat
deriving DecidableEq, Repr

/-- The widths in bits of a mnemonic's operands, address before byte (R51). -/
def Mnemonic.operandWidths : Mnemonic → List Nat
  | .shift | .brd | .accsub | .accst => [16]
  | .bwr => [16, 8]
  | .accinit | .prog | .selbank => [8]
  | .dirin | .dirout | .chksum | .done | .panic | .ramen | .ramdis => []

/-- Each operand fits the width at its place, and there are as many operands as widths. -/
def operandsFit : List Nat → List Nat → Bool
  | [], [] => true
  | w :: ws, v :: vs => decide (v < 2 ^ w) && operandsFit ws vs
  | [], _ :: _ => false
  | _ :: _, [] => false

/-- R51: an address operand outside 0-0xFFFF or a byte operand outside 0-0xFF is refused, never truncated. -/
def AsmCmd.wellFormed (c : AsmCmd) : Bool := operandsFit c.mnemonic.operandWidths c.operands

end Sys2Proof
end

