-- ==== Sys2Proof/Decode.lean ====
section
/-! DEFINITION. Decoding a command word (30_encoding.md R46-R50), total and rejecting by name; the encoder
from the same tables; the opcode table as data; and the reading of a table word for the host. -/

namespace Sys2Proof

/-- Why a word is `Illegal` (R50). -/
inductive Illegal where
  /-- opcode 0x0, 0xD, 0xE or 0xF -/
  | opcode
  /-- `RSV` is not zero -/
  | reserved
  /-- a field the command does not use is not zero -/
  | unusedField
deriving DecidableEq, Repr

/-- `OP`, bits 31:28 (R46). -/
def opField (w : Word) : BitVec 4 := w.extractLsb' 28 4

/-- `RSV`, bits 27:24 (R46). -/
def rsvField (w : Word) : BitVec 4 := w.extractLsb' 24 4

/-- `A`, bits 23:8, used as is (R46, R47). -/
def addrField (w : Word) : Addr := w.extractLsb' 8 16

/-- `D`, bits 7:0, used as is (R46, R47). -/
def byteField (w : Word) : Byte := w.extractLsb' 0 8

/-- A command that uses no `D`: legal only with `D` zero (R49). -/
def needByteZero (d : Byte) (i : Instr) : Except Illegal Instr :=
  if d = 0 then .ok i else .error .unusedField

/-- A command that uses no `A`: legal only with `A` zero (R49). -/
def needAddrZero (a : Addr) (i : Instr) : Except Illegal Instr :=
  if a = 0 then .ok i else .error .unusedField

/-- A command that uses neither field: legal only with bits 23:0 zero (R49). -/
def needBothZero (a : Addr) (d : Byte) (i : Instr) : Except Illegal Instr :=
  if a = 0 ∧ d = 0 then .ok i else .error .unusedField

/-- The case split of R49 on the opcode, the fields given. -/
def decodeFields (op : BitVec 4) (a : Addr) (d : Byte) : Except Illegal Instr :=
  if op = 0x1 then needByteZero d (.shift a)
  else if op = 0x2 then .ok (.bwr a d)
  else if op = 0x3 then needByteZero d (.brd a)
  else if op = 0x4 then needBothZero a d .dirin
  else if op = 0x5 then needBothZero a d .dirout
  else if op = 0x6 then needAddrZero a (.accinit d)
  else if op = 0x7 then needByteZero d (.accsub a)
  else if op = 0x8 then needByteZero d (.accst a)
  else if op = 0x9 then needAddrZero a (.prog d)
  else if op = 0xA then needBothZero a d .chksum
  else if op = 0xB then needBothZero a d .done
  else if op = 0xC then needBothZero a d .panic
  else .error .opcode

/-- `decode(w)` (R49), total on every 32-bit word. -/
def decode (w : Word) : Except Illegal Instr :=
  if rsvField w = 0 then decodeFields (opField w) (addrField w) (byteField w) else .error .reserved

/-! ## The encoder -/

/-- The format `C32` put together: `OP ++ RSV ++ A ++ D` with `RSV` zero (R46). -/
def packWord (op : BitVec 4) (a : Addr) (d : Byte) : Word := op ++ (0 : BitVec 4) ++ a ++ d

/-- The word of a command or pseudo-command (R48, R52): unused fields are zero (R51). -/
def encode : Instr → Word
  | .shift a => packWord 0x1 a 0
  | .bwr a d => packWord 0x2 a d
  | .brd a => packWord 0x3 a 0
  | .dirin => packWord 0x4 0 0
  | .dirout => packWord 0x5 0 0
  | .accinit c => packWord 0x6 0 c
  | .accsub a => packWord 0x7 a 0
  | .accst a => packWord 0x8 a 0
  | .prog k => packWord 0x9 0 k
  | .chksum => packWord 0xA 0 0
  | .done => packWord 0xB 0 0
  | .panic => packWord 0xC 0 0
  | .ramen => packWord 0x2 0x0000 0x0A
  | .ramdis => packWord 0x2 0x0000 0x00
  | .selbank n => packWord 0x2 0x4000 n

/-! ## The opcode table -/

/-- One row of spec/opcode_table.json: a word is the row's when `word &&& mask = pattern`. -/
structure OpcodeRow where
  mnemonic : Mnemonic
  pattern  : Word
  mask     : Word
deriving DecidableEq, Repr

/-- The twelve command rows of the table (R48). -/
def commandRows : List OpcodeRow :=
  [⟨.shift, 0x10000000, 0xFF0000FF⟩, ⟨.bwr, 0x20000000, 0xFF000000⟩, ⟨.brd, 0x30000000, 0xFF0000FF⟩,
   ⟨.dirin, 0x40000000, 0xFFFFFFFF⟩, ⟨.dirout, 0x50000000, 0xFFFFFFFF⟩, ⟨.accinit, 0x60000000, 0xFFFFFF00⟩,
   ⟨.accsub, 0x70000000, 0xFF0000FF⟩, ⟨.accst, 0x80000000, 0xFF0000FF⟩, ⟨.prog, 0x90000000, 0xFFFFFF00⟩,
   ⟨.chksum, 0xA0000000, 0xFFFFFFFF⟩, ⟨.done, 0xB0000000, 0xFFFFFFFF⟩, ⟨.panic, 0xC0000000, 0xFFFFFFFF⟩]

/-- The three pseudo-command rows, each inside the row of `BWR` (R52). -/
def pseudoRows : List OpcodeRow :=
  [⟨.ramen, 0x2000000A, 0xFFFFFFFF⟩, ⟨.ramdis, 0x20000000, 0xFFFFFFFF⟩, ⟨.selbank, 0x20400000, 0xFFFFFF00⟩]

/-- The word lies in the row. -/
def OpcodeRow.covers (r : OpcodeRow) (w : Word) : Bool := w &&& r.mask == r.pattern

/-- The mnemonic an instruction is written with. -/
def Instr.mnemonic : Instr → Mnemonic
  | .shift _ => .shift
  | .bwr _ _ => .bwr
  | .brd _ => .brd
  | .dirin => .dirin
  | .dirout => .dirout
  | .accinit _ => .accinit
  | .accsub _ => .accsub
  | .accst _ => .accst
  | .prog _ => .prog
  | .chksum => .chksum
  | .done => .done
  | .panic => .panic
  | .ramen => .ramen
  | .ramdis => .ramdis
  | .selbank _ => .selbank

/-- The rows a mnemonic has in the table. -/
def rowsOf (m : Mnemonic) : List OpcodeRow := (commandRows ++ pseudoRows).filter (fun r => r.mnemonic == m)

/-- The instruction the decoder reads from a table word of `nbits` bits (the host's numbering: bit 0 is the
word's bit 0). -/
def decodeTableWord (nbits w : Nat) : Option Instr :=
  match decode (BitVec.ofNat 32 (w % 2 ^ nbits)) with
  | .ok i => some i
  | .error _ => none

end Sys2Proof
end

