-- ==== Sys2Proof/Machine/State.lean ====
section
/-! DEFINITION. The state of the block and of its environment as plain data (10_state.md), the reasons a step
can stop, and the state after reset (R27). -/

namespace Sys2Proof.Machine

/-- The output lines of 10_state.md R17. A level is a Bool: `true` is 1. A name that ends in `N` is active-low
(00_scope.md R13). -/
inductive Line where
  | ser | sclk | oe | wrN | rdN | csN | led
deriving DecidableEq, Repr

/-- `DIR` (R18): `output` when the block drives `D[7:0]`, `input` when it drives nothing. -/
inductive Dir where
  | output | input
deriving DecidableEq, Repr

/-- `MODE` (R19), the sequencer state. -/
inductive Mode where
  | run | done | panic | fault
deriving DecidableEq, Repr

/-- The events of R25. -/
inductive Event where
  /-- `Set(L, v)` -/
  | set (l : Line) (v : Bool)
  /-- `Drive(d)` -/
  | drive (d : Byte)
  /-- `Dir(x)` -/
  | dir (x : Dir)
  /-- `Delay(n)` -/
  | delay (n : Nat)
  /-- `Sample(v)` -/
  | sample (v : Byte)
  /-- `Halt(m)` -/
  | halt (m : Mode)
deriving DecidableEq, Repr

end Sys2Proof.Machine

namespace Sys2Proof

/-- The read oracle (R26): 'a function of the trace so far and a free choice, returning any byte'. A free value:
opaque, no proof can see a value of it. The choice is the counter `State.draws`. Log 7. -/
opaque Config.oracle : List Machine.Event → Nat → Byte

end Sys2Proof

namespace Sys2Proof.Machine

/-- The lines, the data bus and the external shift register (R17, R18, R23). -/
structure Pins where
  ser  : Bool
  sclk : Bool
  oe   : Bool
  wrN  : Bool
  rdN  : Bool
  csN  : Bool
  led  : Bool
  dir  : Dir
  /-- `D_OUT`, the output latch. -/
  dOut : Byte
  /-- `SR`, the external 16-bit chain. -/
  sr   : Addr
deriving DecidableEq, Repr

/-- The reference target's RAM (20_memory.md R43): (location, byte) with location `b * BANK_SIZE + o`, in the
canonical form of `Memory.wf` (Ops.lean). -/
abbrev Memory := List Host.Cell

/-- The reference target (20_memory.md R43). It is environment, not block (R24). `fill` is the byte a test's
start state gives every cell not listed; `none` leaves them the draws of this run. `run` is the model's own: the number
of the run, one more with each reset, which picks that run's draws. Logs 6, 8. -/
structure Target where
  ten   : Option Byte
  tbank : Option Byte
  tram  : Memory
  fill  : Option Byte
  run   : Nat
deriving DecidableEq, Repr

/-- Who answers a sample: nobody in particular (R26), or the reference target where R45 gives the byte. -/
inductive Oracle where
  | free | target
deriving DecidableEq, Repr

/-- The whole state. INVENTORY.md lists every field with its rule and reset value. -/
structure State where
  /-- Lines, data bus, external shift register. -/
  pins         : Pins
  /-- `RDATA`; `none` is its valid bit clear (R19). -/
  rdata        : Option Byte
  /-- `ACC`; `none` is its valid bit clear (R19). -/
  acc          : Option Byte
  /-- `RAMEN_SH`. -/
  ramenSh      : Option Byte
  /-- `BANK_SH`. -/
  bankSh       : Option Byte
  /-- `PV`, sticky. -/
  pv           : Bool
  /-- `CP`. -/
  cp           : Nat
  /-- `MODE`. -/
  mode         : Mode
  /-- `FCODE`. -/
  fcode        : Byte
  /-- `FCP`. -/
  fcp          : Nat
  /-- `FWORD`. -/
  fword        : Word
  /-- The trace (R25), NEWEST EVENT FIRST (log 12). -/
  trace        : List Event
  /-- `Cfg`, a parameter: no step changes it (R8, R16; log 1). -/
  cfg          : Cfg
  /-- `PROGRAM`, a parameter: no step changes it (R16, R29; log 1). -/
  program      : List Word
  /-- The model's own: the configuration check of R98 step 2 is still to come (log 3). -/
  checkPending : Bool
  /-- Environment: the reference target. -/
  target       : Target
  /-- Environment: who answers a sample (log 7). -/
  oracle       : Oracle
  /-- Environment: answers ready for the next free draws, first to be used first (log 7). -/
  inputs       : List Byte
  /-- The model's own: how many draws were free values (log 7). -/
  draws        : Nat
deriving DecidableEq, Repr

/-- Why `step` answers no next state. Raised by `step` alone, in a terminal mode, where the spec says there is
no step (44_control.md R78 'if MODE != RUN: no step', 60_exceptions.md R89). Safe: the block does nothing more
there. The seven fault codes of R86 are no reason to stop: fault entry (R88) is a next state (log 4). -/
inductive Fault where
  /-- `MODE = DONE`: parked forever with the LED lit (R80, R97). Safe. -/
  | parkedDone
  /-- `MODE = PANIC`: parked with the LED blinking (R81, R97). Safe. -/
  | parkedPanic
  /-- `MODE = FAULT`: stopped (R88, R97). Safe. -/
  | parkedFault
deriving DecidableEq, Repr

/-- Why an instruction has no meaning. -/
inductive Refusal where
  /-- Raised by an arm of `exec` whose instruction has no meaning yet; no arm raises it now. Safe. -/
  | notModelled (mnemonic : String)
deriving DecidableEq, Repr

/-- The trace in program order (R25). -/
def State.events (s : State) : List Event := s.trace.reverse

end Sys2Proof.Machine

namespace Sys2Proof

/-- The reference values of R9. `P`, `T` and `TIME_UNIT` are OPEN, so opaque (log 14). -/
def Config.reference : Cfg where
  addrW := Config.addrW
  dataW := Config.dataW
  shiftBits := Config.shiftBits
  extBase := Config.extBase
  ctrlRamen := Config.ctrlRamen
  ctrlBank := Config.ctrlBank
  enableCode := Config.enableCode
  disableCode := Config.disableCode
  nbanks := Config.nbanks
  bankSize := Config.bankSize
  ramBase := Config.ramBase
  ramLimit := Config.ramLimit
  settle := 20
  timeUnit := Config.timeUnit
  blinkOn := 250
  blinkOff := 500
  chkStart := 0x598
  chkEnd := 0x1523
  chkWrite := 0x1523
  chkInit := 0xFF
  chkBank := 1
  blobs := [⟨0, 0x20, Config.primaryPayload⟩, ⟨1, 0x10C0, Config.trampolinePayload⟩]
  patchOff := (0x5C9, 0x5CA)
  patchVal := (0x01, 0x63)
  cfgValidate := true

/-- The reference program of 44_control.md R83, the value R9 gives `PROGRAM`: RAMEN; PROG 0; PROG 1;
BWR 0xA5C9, 0x01; BWR 0xA5CA, 0x63; CHKSUM; RAMDIS; DONE. -/
def Config.fullProgram : List Word :=
  [0x2000000A, 0x90000000, 0x90000001, 0x20A5C901, 0x20A5CA63, 0xA0000000, 0x20000000, 0xB0000000]

/-- The example of a verification-only program in R84; `VERIFY_PROGRAM` itself is OPEN
(`Config.verifyProgram`). -/
def Config.verifyProgramExample : List Word :=
  [0x2000000A, 0x20400001, 0x20A5C99C, 0x20A5CA63, 0xA0000000, 0x20000000, 0xB0000000]

/-- The patch bytes of the verification-only variant (R9 `PATCH_VAL`, R84). -/
def Config.verifyPatchVal : Byte × Byte := (0x9C, 0x63)

end Sys2Proof

namespace Sys2Proof.Machine

/-- The lines at the start of run `n` (R27); `D_OUT` and `SR` are draws (log 5). -/
def Pins.afterReset (n : Nat) : Pins where
  ser := false
  sclk := false
  oe := true
  wrN := true
  rdN := true
  csN := true
  led := false
  dir := .output
  dOut := Config.dOutAtReset n
  sr := Config.srAtReset n

/-- The reference target at the start of run `n`: everything a draw (R27, R43; log 6). -/
def Target.atStart (n : Nat) : Target where
  ten := Config.tenAtStart n
  tbank := Config.tbankAtStart n
  tram := []
  fill := none
  run := n

/-- The state right after reset (R27), the configuration check of R98 step 2 still to come (log 3), with the
reference configuration and program (R9, R83) and a free oracle. -/
def State.reset : State where
  pins := Pins.afterReset 0
  rdata := none
  acc := none
  ramenSh := none
  bankSh := none
  pv := false
  cp := 0
  mode := .run
  fcode := 0
  fcp := 0
  fword := 0
  trace := []
  cfg := Config.reference
  program := Config.fullProgram
  checkPending := true
  target := Target.atStart 0
  oracle := .free
  inputs := []
  draws := 0

end Sys2Proof.Machine
end

