-- ==== Sys2Proof/Machine/Operands.lean ====
section
/-! DEFINITION. Every address form of the block (20_memory.md R30-R33; 42_protocol.md R71; 43_checksum.md R76):
the windows of the bus space, a blob byte's address, the checksum range; and the reference target's places
(20_memory.md R43-R45). -/

namespace Sys2Proof.Machine

/-! ## The block's windows and addresses, from `Cfg` -/

/-- The extended window: `a >= EXT_BASE`, which is 0x8000, so that it is `a[15] = 1` (00_scope.md R9; R30; 41_bus_cycle.md
R57). -/
def extended (c : Cfg) (a : Addr) : Bool := decide (c.extBase ≤ a)

/-- The two control addresses (R31). -/
def isControl (c : Cfg) (a : Addr) : Bool := a == c.ctrlRamen || a == c.ctrlBank

/-- The banked RAM window, 0xA000-0xBFFF (R32). -/
def inRamWindow (c : Cfg) (a : Addr) : Bool := decide (c.ramBase ≤ a) && decide (a < c.ramLimit)

/-- The address of byte `j` of a blob: `RAM_BASE +_16 off +_16 j` (R71). -/
def blobAddr (c : Cfg) (off : Addr) (j : Nat) : Addr := c.ramBase + off + BitVec.ofNat 16 j

/-- An address given relative to `RAM_BASE` (R76), modulo 2^16 (log 13). -/
def ramRelative (c : Cfg) (o : Nat) : Addr := c.ramBase + BitVec.ofNat 16 o

/-- The checksum range in ascending order, end exclusive (R76 step 3); empty when the end is not past the
start. -/
def chkRange (c : Cfg) : List Addr := (List.range' c.chkStart (c.chkEnd - c.chkStart)).map (ramRelative c)

/-- The address the checksum is written to (R76 step 5). -/
def chkWriteAddr (c : Cfg) : Addr := ramRelative c c.chkWrite

/-! ## The reference target's places, in the numbers of R43-R45 -/

/-- `0xA000 <= a <= 0xBFFF` (R44, R45). -/
def inTargetWindow (a : Addr) : Bool := decide (Config.ramBase ≤ a) && decide (a < Config.ramLimit)

/-- `a - 0xA000` (R44, R45). -/
def targetOffset (a : Addr) : Nat := a.toNat - Config.ramBase.toNat

/-- The place of offset `o` of bank `b` in the reference target's RAM (R43). -/
def ramLocation (b : Byte) (o : Nat) : Nat := b.toNat * Config.bankSize + o

end Sys2Proof.Machine
end

