-- ==== Sys2Proof/Machine/Flags.lean ====
section
/-! DEFINITION. The protocol monitor with its shadows and the sticky `PV` (42_protocol.md R65-R67), and the
accumulator's arithmetic (43_checksum.md R72). The block has no other flags (10_state.md R22). -/

namespace Sys2Proof.Machine

/-- The kind of a bus cycle, a write with its data (R66). -/
inductive Access where
  | read
  | write (d : Byte)
deriving DecidableEq, Repr

/-- `RAMEN_SH = some(ENABLE_CODE)`, which is 0x0A, and `BANK_SH = some(n)` with `n < NBANKS`: the state 'enabled, bank
n' in which a RAM-window access is meaningful (R65, R67 case 4). -/
def ramOpen (c : Cfg) (ramenSh bankSh : Option Byte) : Bool :=
  match ramenSh, bankSh with
  | some e, some n => e == c.enableCode && decide (n.toNat < c.nbanks)
  | some _, none => false
  | none, some _ => false
  | none, none => false

/-- Cases 1 to 3 of R67: a control address used with no meaning. -/
def violatesControl (c : Cfg) (k : Access) (a : Addr) : Bool :=
  match k with
  | .write d =>
    (a == c.ctrlRamen && d != c.enableCode && d != c.disableCode)
      || (a == c.ctrlBank && decide (c.nbanks ≤ d.toNat))
  | .read => isControl c a

/-- `violates(kind, a, d)` over the shadows before the cycle (R67, five cases). -/
def violates (c : Cfg) (k : Access) (a : Addr) (ramenSh bankSh : Option Byte) : Bool :=
  violatesControl c k a
    || (inRamWindow c a && !ramOpen c ramenSh bankSh)
    || (!isControl c a && !inRamWindow c a)

/-- What a shadow becomes when a cycle of kind `k` at `a` ends, `c` its control address (R66). -/
def shadowAfter (c : Addr) (k : Access) (a : Addr) (old : Option Byte) : Option Byte :=
  match k with
  | .write d => if a = c then some d else old
  | .read => old

/-- `Monitor(kind, a, d)` (R66): runs at the end of every bus cycle and emits nothing. -/
def monitor (k : Access) (a : Addr) (s : State) : State :=
  { s with
    pv := s.pv || violates s.cfg k a s.ramenSh s.bankSh
    ramenSh := shadowAfter s.cfg.ctrlRamen k a s.ramenSh
    bankSh := shadowAfter s.cfg.ctrlBank k a s.bankSh }

/-- `c -_8 v`: the accumulator after subtracting one byte, modulo 256, no borrow recorded (R72). -/
def accMinus (c v : Byte) : Byte := c - v

end Sys2Proof.Machine
end

