-- ==== Sys2Proof/Machine/Ops.lean ====
section
/-! DEFINITION. The shared operations: what an event does to the lines and to the reference target, emitting
events, the address shifter (40_address_shifter.md), the two bus cycles (41_bus_cycle.md), sampling (10_state.md
R26), fault entry (60_exceptions.md R88), reset (70_reset_and_hazards.md R98) and command fetch (R78). -/

namespace Sys2Proof.Machine

/-! ## Lines and the external shift register -/

/-- A rising edge of `SCLK` shifts `SR` toward bit 0 and takes `SER` into bit 15: `SR <- SER ++ SR[15:1]`
(10_state.md R23). -/
def shiftIn (ser : Bool) (sr : Addr) : Addr := BitVec.ofBool ser ++ sr.extractLsb' 1 15

/-- Line `l` is set to level `v` (R17); `SCLK` going from 0 to 1 clocks the external shift register (R23). -/
def Pins.setLine (p : Pins) (l : Line) (v : Bool) : Pins :=
  match l with
  | .ser => { p with ser := v }
  | .sclk => { p with sclk := v, sr := if !p.sclk && v then shiftIn p.ser p.sr else p.sr }
  | .oe => { p with oe := v }
  | .wrN => { p with wrN := v }
  | .rdN => { p with rdN := v }
  | .csN => { p with csN := v }
  | .led => { p with led := v }

/-- The level of a line. -/
def Pins.level (p : Pins) (l : Line) : Bool :=
  match l with
  | .ser => p.ser
  | .sclk => p.sclk
  | .oe => p.oe
  | .wrN => p.wrN
  | .rdN => p.rdN
  | .csN => p.csN
  | .led => p.led

/-- What an event does to the lines (R25): `Set`, `Drive` and `Dir` change them, the others do not. -/
def Pins.apply (p : Pins) (e : Event) : Pins :=
  match e with
  | .set l v => p.setLine l v
  | .drive d => { p with dOut := d }
  | .dir x => { p with dir := x }
  | .delay _ => p
  | .sample _ => p
  | .halt _ => p

/-- The lines after a list of events. -/
def Pins.applyAll (p : Pins) (es : List Event) : Pins := es.foldl Pins.apply p

/-- `ADDR`: what the address lines of the target bus carry (R23). -/
def Pins.addr (p : Pins) : Option Addr := if p.oe then some p.sr else none

/-- What the block drives on `D[7:0]`: nothing when `DIR = IN` (R18). -/
def Pins.driven (p : Pins) : Option Byte :=
  match p.dir with
  | .output => some p.dOut
  | .input => none

/-! ## The reference target (20_memory.md R43-R45) -/

/-- The byte listed at a location. -/
def Memory.get? (m : Memory) (loc : Nat) : Option Byte :=
  match m with
  | [] => none
  | c :: m => if c.1 = loc then some c.2 else Memory.get? m loc

/-- List `v` at `loc`, in address order. -/
def Memory.insert (m : Memory) (loc : Nat) (v : Byte) : Memory :=
  match m with
  | [] => [(loc, v)]
  | c :: m =>
    if c.1 < loc then c :: Memory.insert m loc v
    else if c.1 = loc then (loc, v) :: m
    else (loc, v) :: c :: m

/-- List nothing at `loc`. -/
def Memory.erase (m : Memory) (loc : Nat) : Memory :=
  match m with
  | [] => []
  | c :: m => if c.1 = loc then m else c :: Memory.erase m loc

/-- Write one byte, keeping the canonical form: a byte that an unlisted cell is known to hold is not listed. -/
def Memory.write (fill : Option Byte) (m : Memory) (loc : Nat) (v : Byte) : Memory :=
  if fill = some v then Memory.erase m loc else Memory.insert m loc v

/-- Every listed location lies above `lo`, strictly rising. -/
def Memory.risingFrom (lo : Nat) (m : Memory) : Bool :=
  match m with
  | [] => true
  | c :: m => decide (lo ≤ c.1) && Memory.risingFrom (c.1 + 1) m

/-- The canonical form: strictly rising, inside the four banks, and no entry equal to what an unlisted cell is
known to hold. -/
def Memory.wf (fill : Option Byte) (m : Memory) : Bool :=
  Memory.risingFrom 0 m
    && m.all (fun c => decide (c.1 < Config.nbanks * Config.bankSize) && decide (fill ≠ some c.2))

/-- `TRAM` at a location: what is listed there, else what the start of the run left there, which is `fill` where
a test fixes it and otherwise a draw of this run (R43; log 6). -/
def Target.byteAt (t : Target) (loc : Nat) : Byte :=
  match Memory.get? t.tram loc with
  | some v => v
  | none =>
    match t.fill with
    | some f => f
    | none => Config.tramAtStart t.run loc

/-- The RAM location an access at `a` reaches: `0xA000 <= a <= 0xBFFF`, `CS_n == 0`, `TEN == some(0x0A)` and
`TBANK == some(b)` with `b < 4` (R44, R45). -/
def Target.location (t : Target) (csN : Bool) (a : Addr) : Option Nat :=
  if inTargetWindow a && !csN && t.ten == some Config.enableCode then
    match t.tbank with
    | some b => if b.toNat < Config.nbanks then some (ramLocation b (targetOffset a)) else none
    | none => none
  else none

/-- The reference target takes a write of `d` at address `a` (R44). -/
def Target.store (t : Target) (csN : Bool) (a : Addr) (d : Byte) : Target :=
  if a = Config.ctrlRamen then { t with ten := some d }
  else if a = Config.ctrlBank then { t with tbank := some d }
  else
    match t.location csN a with
    | some loc => { t with tram := Memory.write t.fill t.tram loc d }
    | none => t

/-- The end of a write cycle as the target sees it, the lines being `p`: it needs an address on the bus and
`DIR = OUT` (R44). -/
def Target.latch (t : Target) (p : Pins) : Target :=
  match p.addr, p.driven with
  | some a, some d => t.store p.csN a d
  | some _, none => t
  | none, some _ => t
  | none, none => t

/-- The reference target sees an event, `p` being the lines before it. A write cycle ends at the `Set(WR_n, 1)`
that raises the strobe (R44; log 9). -/
def Target.observe (p : Pins) (t : Target) (e : Event) : Target :=
  match e with
  | .set .wrN v => if v && !p.wrN then t.latch p else t
  | .set .ser _ => t
  | .set .sclk _ => t
  | .set .oe _ => t
  | .set .rdN _ => t
  | .set .csN _ => t
  | .set .led _ => t
  | .drive _ => t
  | .dir _ => t
  | .delay _ => t
  | .sample _ => t
  | .halt _ => t

/-- The reference target sees a list of events. -/
def Target.observeAll (p : Pins) (t : Target) (es : List Event) : Target :=
  match es with
  | [] => t
  | e :: es => Target.observeAll (p.apply e) (Target.observe p t e) es

/-- The byte the reference target drives at a sample, where R45 gives one. -/
def Target.answer (t : Target) (p : Pins) : Option Byte :=
  match p.dir, p.addr with
  | .input, some a => (t.location p.csN a).map t.byteAt
  | .input, none => none
  | .output, some _ => none
  | .output, none => none

/-! ## Emitting events (00_scope.md R12) -/

/-- `emit(e)`: the event goes on the trace, and the lines and the reference target follow it. `set(L, v)` is the
emission of `Set(L, v)`. -/
def emit (e : Event) (s : State) : State :=
  { s with
    trace := e :: s.trace
    pins := s.pins.apply e
    target := Target.observe s.pins s.target e }

/-- Events emitted one at a time, in order. -/
def emitAll (es : List Event) (s : State) : State := es.foldl (fun s e => emit e s) s

/-- `CP <- CP + 1` (10_state.md R21). -/
def advance (s : State) : State := { s with cp := s.cp + 1 }

/-! ## The address shifter -/

/-- The three events of bit `i` of address `a` (R54): data, clock high, clock low. -/
def shiftBit (a : Addr) (i : Nat) : List Event := [.set .ser (a.getLsbD i), .set .sclk true, .set .sclk false]

/-- `ShiftOut(a)` (R54): one pulse for each of the `SHIFT_BITS` bits, least significant bit first; 50 events. -/
def shiftEvents (c : Cfg) (a : Addr) : List Event :=
  [.set .oe false] ++ (List.range c.shiftBits).flatMap (shiftBit a) ++ [.set .oe true]

/-! ## The bus cycles -/

/-- Step 1 of a cycle: all three lines idle, in the order the source lists them (R57). -/
def idleEvents : List Event := [.set .wrN true, .set .rdN true, .set .csN true]

/-- Steps 3 and 9: chip select, in the extended window only (R57, R58). -/
def selectEvents (c : Cfg) (a : Addr) (level : Bool) : List Event := if extended c a then [.set .csN level] else []

/-- The events of `BusWrite(a, d)` (R57). -/
def writeEvents (c : Cfg) (a : Addr) (d : Byte) : List Event :=
  idleEvents ++ shiftEvents c a ++ selectEvents c a false
    ++ [.drive d, .set .wrN false, .delay c.settle, .set .wrN true] ++ selectEvents c a true

/-- The events of `BusRead(a)` before the sample (R58 steps 1 to 6). -/
def readHead (c : Cfg) (a : Addr) : List Event :=
  idleEvents ++ shiftEvents c a ++ selectEvents c a false ++ [.set .rdN false, .delay c.settle]

/-- The events of `BusRead(a)` after the sample (R58 steps 8 and 9). -/
def readTail (c : Cfg) (a : Addr) : List Event := [.set .rdN true] ++ selectEvents c a true

/-- The events of `BusRead(a)` when the sample gives `v` (R58). -/
def readEvents (c : Cfg) (a : Addr) (v : Byte) : List Event := readHead c a ++ [.sample v] ++ readTail c a

/-- `BusWrite(a, d)` (R57). The calling command has checked `DIR = OUT` (R60). -/
def busWrite (a : Addr) (d : Byte) (s : State) : State :=
  monitor (.write d) a (emitAll (writeEvents s.cfg a d) s)

/-- A free draw of the oracle (10_state.md R26): the next answer the environment has ready, else a free value of
the trace so far (log 7). -/
def draw (s : State) : Byte × State :=
  match s.inputs with
  | v :: rest => (v, { s with inputs := rest })
  | [] => (Config.oracle s.trace s.draws, { s with draws := s.draws + 1 })

/-- The byte the reference target answers, when it is the oracle (R45). -/
def targetAnswer (s : State) : Option Byte :=
  match s.oracle with
  | .target => s.target.answer s.pins
  | .free => none

/-- The oracle's next byte: the reference target's where it is attached and R45 gives one, else a draw. -/
def oracleByte (s : State) : Byte × State :=
  match targetAnswer s with
  | some v => (v, s)
  | none => draw s

/-- `sample()` (00_scope.md R12): a byte from the oracle, and `Sample(v)`. -/
def sample (s : State) : Byte × State := ((oracleByte s).1, emit (.sample (oracleByte s).1) (oracleByte s).2)

/-- `BusRead(a)` (R58). The calling command has checked `DIR = IN` (R60). -/
def busRead (a : Addr) (s : State) : Byte × State :=
  let r := sample (emitAll (readHead s.cfg a) s)
  (r.1, monitor .read a (emitAll (readTail s.cfg a) r.2))

/-! ## Taking a fault -/

/-- The fault codes (60_exceptions.md R86). -/
inductive FaultCode where
  | illegalCmd | endOfProgram | dirWriteWhileIn | dirReadWhileOut | accUninit | badBlobIndex | chkBankMismatch
deriving DecidableEq, Repr

/-- The value of `FCODE` (R86). -/
def FaultCode.code (f : FaultCode) : Byte :=
  match f with
  | .illegalCmd => 0x01
  | .endOfProgram => 0x02
  | .dirWriteWhileIn => 0x03
  | .dirReadWhileOut => 0x04
  | .accUninit => 0x05
  | .badBlobIndex => 0x06
  | .chkBankMismatch => 0x07

/-- `raise Fault(code)` (R88), the one way a fault is taken: the record is written, `MODE` becomes FAULT and
`Halt(FAULT)` is emitted. `w` is the faulting word, or 0 for END_OF_PROGRAM. There is no return (R89). -/
def raiseFault (f : FaultCode) (w : Word) (s : State) : State :=
  emit (.halt .fault) { s with fcode := f.code, fcp := s.cp, fword := w, mode := .fault }

/-! ## Reset and fetch -/

/-- Reset (R98 step 1), the start of the next run: every piece of state at its value in R27, and what R27 leaves
unspecified, `D_OUT`, `SR` and the reference target, drawn anew: 'nothing persists across runs'. `Cfg`, `PROGRAM` and
the read oracle with its choices are parameters (R16) and stay (log 16). No command reaches this; it is the outside
world's. -/
def hardReset (s : State) : State :=
  { State.reset with
    pins := Pins.afterReset (s.target.run + 1)
    cfg := s.cfg
    program := s.program
    target := Target.atStart (s.target.run + 1)
    oracle := s.oracle
    inputs := s.inputs
    draws := s.draws }

/-- Command fetch (R21, R78): `PROGRAM[CP]`, or nothing past the end. -/
def fetch (s : State) : Option Word := s.program[s.cp]?

/-- `program` with `w` at index `k`, made longer with zero words where it is too short. -/
def placeWord (program : List Word) (k : Nat) (w : Word) : List Word :=
  match program, k with
  | [], 0 => [w]
  | _ :: ws, 0 => w :: ws
  | [], k + 1 => 0 :: placeWord [] k w
  | v :: ws, k + 1 => v :: placeWord ws k w

/-! ## What an observer reads off a trace -/

/-- A bus cycle as the source's 'mock bus recorder' sees it (60_exceptions.md R96). -/
inductive BusCycle where
  /-- a write strobe ended with this address and data on the lines -/
  | write (a : Option Addr) (d : Option Byte)
  /-- a byte was sampled with this address on the lines -/
  | read (a : Option Addr) (v : Byte)
deriving DecidableEq, Repr

/-- What one event shows the recorder, `p` being the lines before it. -/
def recordEvent (p : Pins) (e : Event) : List BusCycle :=
  match e with
  | .set .wrN v => if v && !p.wrN then [.write p.addr p.driven] else []
  | .sample v => [.read p.addr v]
  | .set .ser _ => []
  | .set .sclk _ => []
  | .set .oe _ => []
  | .set .rdN _ => []
  | .set .csN _ => []
  | .set .led _ => []
  | .drive _ => []
  | .dir _ => []
  | .delay _ => []
  | .halt _ => []

/-- The bus cycles in a list of events that starts with the lines at `p`. -/
def recordBus (p : Pins) (es : List Event) : List BusCycle :=
  match es with
  | [] => []
  | e :: es => recordEvent p e ++ recordBus (p.apply e) es

/-- A `Set` that changes no level (10_state.md R25). -/
def isRedundant (p : Pins) (e : Event) : Bool :=
  match e with
  | .set l v => p.level l == v
  | .drive _ => false
  | .dir _ => false
  | .delay _ => false
  | .sample _ => false
  | .halt _ => false

/-- The events without the redundant `Set`s (R25: what is left shows the target the same levels). -/
def dropRedundant (p : Pins) (es : List Event) : List Event :=
  match es with
  | [] => []
  | e :: es => if isRedundant p e then dropRedundant (p.apply e) es else e :: dropRedundant (p.apply e) es

/-- `SER` at each rising edge of `SCLK` in a list of events that starts with the lines at `p` (R55). -/
def serAtEdges (p : Pins) (es : List Event) : List Bool :=
  match es with
  | [] => []
  | e :: es =>
    match e with
    | .set .sclk v => (if v && !p.sclk then [p.ser] else []) ++ serAtEdges (p.apply e) es
    | .set .ser _ => serAtEdges (p.apply e) es
    | .set .oe _ => serAtEdges (p.apply e) es
    | .set .wrN _ => serAtEdges (p.apply e) es
    | .set .rdN _ => serAtEdges (p.apply e) es
    | .set .csN _ => serAtEdges (p.apply e) es
    | .set .led _ => serAtEdges (p.apply e) es
    | .drive _ => serAtEdges (p.apply e) es
    | .dir _ => serAtEdges (p.apply e) es
    | .delay _ => serAtEdges (p.apply e) es
    | .sample _ => serAtEdges (p.apply e) es
    | .halt _ => serAtEdges (p.apply e) es

end Sys2Proof.Machine
end

