-- ==== Sys2Proof/Machine/Bus.lean ====
section
/-! DEFINITION. The meanings of `BWR`, `BRD`, `DIRIN` and `DIROUT` (41_bus_cycle.md). -/

namespace Sys2Proof.Machine

/-- A command that is one bus write of `d` to `a`, its word being `w` (R61): needs `DIR = OUT` (R60). -/
def writeCommand (w : Word) (a : Addr) (d : Byte) (s : State) : State :=
  if s.pins.dir = .output then advance (busWrite a d s) else raiseFault .dirWriteWhileIn w s

/-- `BWR a, d` (R61). -/
def execBwr (a : Addr) (d : Byte) (s : State) : Host.Outcome State Fault Refusal :=
  .next (writeCommand (encode (.bwr a d)) a d s)

/-- `BRD a` (R62): needs `DIR = IN` (R60). -/
def execBrd (a : Addr) (s : State) : Host.Outcome State Fault Refusal :=
  if s.pins.dir = .input then
    let r := busRead a s
    .next (advance { r.2 with rdata := some r.1 })
  else .next (raiseFault .dirReadWhileOut (encode (.brd a)) s)

/-- `DIRIN` (R63). -/
def execDirin (s : State) : Host.Outcome State Fault Refusal := .next (advance (emit (.dir .input) s))

/-- `DIROUT` (R64). -/
def execDirout (s : State) : Host.Outcome State Fault Refusal := .next (advance (emit (.dir .output) s))

end Sys2Proof.Machine
end

