-- ==== Sys2Proof/Machine/Checksum.lean ====
section
/-! DEFINITION. The meanings of `ACCINIT`, `ACCSUB`, `ACCST` and `CHKSUM` (43_checksum.md). -/

namespace Sys2Proof.Machine

/-- `ACCINIT c` (R73). It emits no event. -/
def execAccinit (c : Byte) (s : State) : Host.Outcome State Fault Refusal := .next (advance { s with acc := some c })

/-- Read one byte at `a` and subtract it from the accumulator value `c` (R74). -/
def subtractRead (a : Addr) (c : Byte) (s : State) : State :=
  let r := busRead a s
  { r.2 with acc := some (accMinus c r.1) }

/-- `ACCSUB a` (R74): the direction is checked first, then `ACC` (60_exceptions.md R87). -/
def execAccsub (a : Addr) (s : State) : Host.Outcome State Fault Refusal :=
  if s.pins.dir = .input then
    match s.acc with
    | some c => .next (advance (subtractRead a c s))
    | none => .next (raiseFault .accUninit (encode (.accsub a)) s)
  else .next (raiseFault .dirReadWhileOut (encode (.accsub a)) s)

/-- `ACCST a` (R75): the direction is checked first, then `ACC` (60_exceptions.md R87). -/
def execAccst (a : Addr) (s : State) : Host.Outcome State Fault Refusal :=
  if s.pins.dir = .output then
    match s.acc with
    | some c => .next (advance (busWrite a c s))
    | none => .next (raiseFault .accUninit (encode (.accst a)) s)
  else .next (raiseFault .dirWriteWhileIn (encode (.accst a)) s)

/-- Step 3 of `CHKSUM` (R76): `ACC <- ACC -_8 BusRead(a)` for every address of the list, in order. `c` is the
value `ACC` holds. The value it ends with is given beside the state. -/
def subtractRange (as : List Addr) (c : Byte) (s : State) : Byte × State :=
  match as with
  | [] => (c, s)
  | a :: rest =>
    let r := busRead a s
    subtractRange rest (accMinus c r.1) { r.2 with acc := some (accMinus c r.1) }

/-- The five steps of `CHKSUM` (R76). -/
def checksumBody (s : State) : State :=
  let r := subtractRange (chkRange s.cfg) s.cfg.chkInit { emit (.dir .input) s with acc := some s.cfg.chkInit }
  busWrite (chkWriteAddr s.cfg) r.1 (emit (.dir .output) r.2)

/-- `CHKSUM` (R76): the last bank-select write must have been `CHK_BANK`. -/
def execChksum (s : State) : Host.Outcome State Fault Refusal :=
  if s.bankSh = some s.cfg.chkBank then .next (advance (checksumBody s))
  else .next (raiseFault .chkBankMismatch (encode .chksum) s)

end Sys2Proof.Machine
end

