-- ==== Sys2Proof/Machine/Control.lean ====
section
/-! DEFINITION. The terminal commands and the configuration check (44_control.md). -/

namespace Sys2Proof.Machine

/-- `DONE` (R80): the LED lit, `MODE = DONE`, `Halt(DONE)`; `CP` is not advanced. -/
def execDone (s : State) : Host.Outcome State Fault Refusal :=
  .next (emit (.halt .done) { emit (.set .led true) s with mode := .done })

/-- Entering PANIC (R79, R81): `MODE = PANIC`, `Halt(PANIC)`. The blink that follows is not stepped (log 15). -/
def enterPanic (s : State) : State := emit (.halt .panic) { s with mode := .panic }

/-- `PANIC` (R81): `CP` is not advanced. -/
def execPanic (s : State) : Host.Outcome State Fault Refusal := .next (enterPanic s)

/-- The level of `LED` `t` time units after `Halt(PANIC)` (R81): 1 for `BLINK_ON`, then 0 for `BLINK_OFF`,
forever, starting with 1. -/
def panicLed (c : Cfg) (t : Nat) : Bool := decide (t % (c.blinkOn + c.blinkOff) < c.blinkOn)

/-- A blob of a legal configuration (R79): its bank exists and it stays in its bank. -/
def blobOk (c : Cfg) (b : Blob) : Bool :=
  decide (b.bank.toNat < c.nbanks) && decide (b.offset.toNat + b.bytes.length ≤ c.bankSize)

/-- A word of a legal program (R79): no blob index and no bank index out of range. -/
def wordOk (c : Cfg) (w : Word) : Bool :=
  match decode w with
  | .ok (.prog k) => decide (k.toNat < c.blobs.length)
  | .ok (.bwr a n) => a != c.ctrlBank || decide (n.toNat < c.nbanks)
  | .ok _ => true
  | .error _ => true

/-- `CfgOk` (R79). -/
def cfgOk (c : Cfg) (program : List Word) : Bool :=
  decide (1 ≤ c.settle)
    && decide (c.blobs.length ≤ 256)
    && c.blobs.all (blobOk c)
    && decide (c.chkBank.toNat < c.nbanks)
    && decide (c.chkStart ≤ c.chkEnd) && decide (c.chkEnd ≤ c.bankSize)
    && decide (c.chkWrite < c.bankSize)
    && program.all (wordOk c)

/-- The configuration check before the first command (R79, 70_reset_and_hazards.md R98 steps 2 and 3). -/
def configCheck (s : State) : State :=
  if s.cfg.cfgValidate && !cfgOk s.cfg s.program then enterPanic { s with checkPending := false }
  else { s with mode := .run, checkPending := false }

end Sys2Proof.Machine
end

