-- ==== Sys2Proof/Machine/Protocol.lean ====
section
/-! DEFINITION. The meanings of `RAMEN`, `RAMDIS`, `SELBANK` and `PROG` (42_protocol.md). -/

namespace Sys2Proof.Machine

/-- `RAMEN` (R68): one bus write of `ENABLE_CODE` to `CTRL_RAMEN`. -/
def execRamen (s : State) : Host.Outcome State Fault Refusal :=
  .next (writeCommand (encode .ramen) s.cfg.ctrlRamen s.cfg.enableCode s)

/-- `RAMDIS` (R69): one bus write of `DISABLE_CODE` to `CTRL_RAMEN`. -/
def execRamdis (s : State) : Host.Outcome State Fault Refusal :=
  .next (writeCommand (encode .ramdis) s.cfg.ctrlRamen s.cfg.disableCode s)

/-- `SELBANK n` (R70): one bus write of `n` to `CTRL_BANK`, whatever `n`. -/
def execSelbank (n : Byte) (s : State) : Host.Outcome State Fault Refusal :=
  .next (writeCommand (encode (.selbank n)) s.cfg.ctrlBank n s)

/-- The bytes of a blob from byte `j` on, written in ascending order (R71). -/
def writeBlob (off : Addr) (j : Nat) (bytes : List Byte) (s : State) : State :=
  match bytes with
  | [] => s
  | v :: rest => writeBlob off (j + 1) rest (busWrite (blobAddr s.cfg off j) v s)

/-- `programBlob` (R71): the bank select, then every byte. -/
def programBlob (b : Blob) (s : State) : State :=
  writeBlob b.offset 0 b.bytes (busWrite s.cfg.ctrlBank b.bank s)

/-- `PROG k` (R71): the index is checked first, then the direction (60_exceptions.md R87). -/
def execProg (k : Byte) (s : State) : Host.Outcome State Fault Refusal :=
  match s.cfg.blobs[k.toNat]? with
  | none => .next (raiseFault .badBlobIndex (encode (.prog k)) s)
  | some b =>
    if s.pins.dir = .output then .next (advance (programBlob b s))
    else .next (raiseFault .dirWriteWhileIn (encode (.prog k)) s)

end Sys2Proof.Machine
end

