-- ==== Sys2Proof/Machine/Shifter.lean ====
section
/-! DEFINITION. The meaning of `SHIFT` (40_address_shifter.md). -/

namespace Sys2Proof.Machine

/-- `SHIFT a` (R56): `ShiftOut(a)`, no strobe, so the monitor does not run. No fault. -/
def execShift (a : Addr) (s : State) : Host.Outcome State Fault Refusal :=
  .next (advance (emitAll (shiftEvents s.cfg a) s))

end Sys2Proof.Machine
end

