-- ==== Sys2Proof/Machine/Dispatch.lean ====
section
/-! DEFINITION. The meaning of every command and pseudo-command, one arm each. -/

namespace Sys2Proof.Machine

def exec (i : Instr) (s : State) : Host.Outcome State Fault Refusal :=
  match i with
  | .shift a => Sys2Proof.Machine.execShift a s
  | .bwr a d => Sys2Proof.Machine.execBwr a d s
  | .brd a => Sys2Proof.Machine.execBrd a s
  | .dirin => Sys2Proof.Machine.execDirin s
  | .dirout => Sys2Proof.Machine.execDirout s
  | .accinit c => Sys2Proof.Machine.execAccinit c s
  | .accsub a => Sys2Proof.Machine.execAccsub a s
  | .accst a => Sys2Proof.Machine.execAccst a s
  | .prog k => Sys2Proof.Machine.execProg k s
  | .chksum => Sys2Proof.Machine.execChksum s
  | .done => Sys2Proof.Machine.execDone s
  | .panic => Sys2Proof.Machine.execPanic s
  | .ramen => Sys2Proof.Machine.execRamen s
  | .ramdis => Sys2Proof.Machine.execRamdis s
  | .selbank n => Sys2Proof.Machine.execSelbank n s

end Sys2Proof.Machine
end

