-- ==== Sys2Proof/Machine/Step.lean ====
section
/-! DEFINITION. One step (44_control.md R78): the configuration check when it is still to come, else one whole
command, a fetch or decode fault, or no step in a terminal mode. -/

namespace Sys2Proof.Machine

/-- One step of the machine. -/
def step (s : State) : Host.Outcome State Fault Refusal :=
  if s.checkPending then .next (configCheck s)
  else
    match s.mode with
    | .done => .fault .parkedDone
    | .panic => .fault .parkedPanic
    | .fault => .fault .parkedFault
    | .run =>
      match fetch s with
      | none => .next (raiseFault .endOfProgram 0 s)
      | some w =>
        match decode w with
        | .error _ => .next (raiseFault .illegalCmd w s)
        | .ok i => exec i s

/-- `s` with the word `w` at `PROGRAM[CP]`, the configuration check behind it and the sequencer running, so that
the very next step runs that word (log 3). -/
def State.withFetchWord (s : State) (nbits w : Nat) : State :=
  { s with
    program := placeWord s.program s.cp (BitVec.ofNat 32 (w % 2 ^ nbits))
    checkPending := false
    mode := .run }

end Sys2Proof.Machine
end

