-- ==== Sys2Proof/Machine/Assembler.lean ====
section
/-! DEFINITION. The assembler of 30_encoding.md R51: one command per line, `MNEMONIC [operand {, operand}]`,
numbers decimal or `0x` hexadecimal, `;` starts a comment, an operand out of range is refused. A line is a list of
characters. Log 17 names the details R51 leaves open. -/

namespace Sys2Proof.Machine

/-- Why a line is refused. -/
inductive AsmError where
  /-- the first word is no mnemonic of the table -/
  | unknownMnemonic
  /-- an operand is neither a decimal nor a `0x` number -/
  | badNumber
  /-- a wrong number of operands, or one out of range (R51) -/
  | badOperands
deriving DecidableEq, Repr

/-- A mnemonic as the table spells it. -/
def mnemonicText (m : Mnemonic) : List Char :=
  match m with
  | .shift => "SHIFT".toList
  | .bwr => "BWR".toList
  | .brd => "BRD".toList
  | .dirin => "DIRIN".toList
  | .dirout => "DIROUT".toList
  | .accinit => "ACCINIT".toList
  | .accsub => "ACCSUB".toList
  | .accst => "ACCST".toList
  | .prog => "PROG".toList
  | .chksum => "CHKSUM".toList
  | .done => "DONE".toList
  | .panic => "PANIC".toList
  | .ramen => "RAMEN".toList
  | .ramdis => "RAMDIS".toList
  | .selbank => "SELBANK".toList

/-- The table's mnemonics, in its order. -/
def allMnemonics : List Mnemonic :=
  [.shift, .bwr, .brd, .dirin, .dirout, .accinit, .accsub, .accst, .prog, .chksum, .done, .panic,
   .ramen, .ramdis, .selbank]

/-- The mnemonic a word spells. -/
def readMnemonic (word : List Char) : Option Mnemonic := allMnemonics.find? (fun m => mnemonicText m == word)

/-- A blank: space or tab. -/
def isBlank (c : Char) : Bool := c == ' ' || c == '\t'

/-- Blanks dropped at both ends. -/
def trimBlanks (cs : List Char) : List Char := ((cs.dropWhile isBlank).reverse.dropWhile isBlank).reverse

/-- The value of a digit in a base of at most 16; letters of either case. -/
def digitValue (base : Nat) (c : Char) : Option Nat :=
  let v :=
    if '0' ≤ c ∧ c ≤ '9' then some (c.toNat - '0'.toNat)
    else if 'a' ≤ c ∧ c ≤ 'f' then some (c.toNat - 'a'.toNat + 10)
    else if 'A' ≤ c ∧ c ≤ 'F' then some (c.toNat - 'A'.toNat + 10)
    else none
  v.filter (fun n => decide (n < base))

/-- Digits read from the most significant on, `acc` being the value so far. -/
def readDigits (base acc : Nat) (cs : List Char) : Option Nat :=
  match cs with
  | [] => some acc
  | c :: rest =>
    match digitValue base c with
    | some v => readDigits base (acc * base + v) rest
    | none => none

/-- A number: decimal or `0x` hexadecimal, of any size (R51). -/
def readNumber (cs : List Char) : Option Nat :=
  match cs with
  | [] => none
  | ['0', 'x'] => none
  | '0' :: 'x' :: digits => readDigits 16 0 digits
  | digits => readDigits 10 0 digits

/-- The pieces between commas; always at least one. -/
def splitCommas (cs : List Char) : List (List Char) :=
  match cs with
  | [] => [[]]
  | c :: rest =>
    if c == ',' then [] :: splitCommas rest
    else
      match splitCommas rest with
      | [] => [[c]]
      | p :: ps => (c :: p) :: ps

/-- The operands of a line: none when only blanks follow the mnemonic. -/
def readOperands (cs : List Char) : Option (List Nat) :=
  if trimBlanks cs = [] then some [] else (splitCommas cs).mapM (fun p => readNumber (trimBlanks p))

/-- The instruction of a well-formed assembler command (R48, R51, R52). -/
def toInstr (c : AsmCmd) : Option Instr :=
  if c.wellFormed then
    match c.mnemonic, c.operands with
    | .shift, [a] => some (.shift (BitVec.ofNat 16 a))
    | .bwr, [a, d] => some (.bwr (BitVec.ofNat 16 a) (BitVec.ofNat 8 d))
    | .brd, [a] => some (.brd (BitVec.ofNat 16 a))
    | .dirin, [] => some .dirin
    | .dirout, [] => some .dirout
    | .accinit, [c] => some (.accinit (BitVec.ofNat 8 c))
    | .accsub, [a] => some (.accsub (BitVec.ofNat 16 a))
    | .accst, [a] => some (.accst (BitVec.ofNat 16 a))
    | .prog, [k] => some (.prog (BitVec.ofNat 8 k))
    | .chksum, [] => some .chksum
    | .done, [] => some .done
    | .panic, [] => some .panic
    | .ramen, [] => some .ramen
    | .ramdis, [] => some .ramdis
    | .selbank, [n] => some (.selbank (BitVec.ofNat 8 n))
    | _, _ => none
  else none

/-- The assembler command an instruction is written as. -/
def toAsm (i : Instr) : AsmCmd :=
  match i with
  | .shift a => ⟨.shift, [a.toNat]⟩
  | .bwr a d => ⟨.bwr, [a.toNat, d.toNat]⟩
  | .brd a => ⟨.brd, [a.toNat]⟩
  | .dirin => ⟨.dirin, []⟩
  | .dirout => ⟨.dirout, []⟩
  | .accinit c => ⟨.accinit, [c.toNat]⟩
  | .accsub a => ⟨.accsub, [a.toNat]⟩
  | .accst a => ⟨.accst, [a.toNat]⟩
  | .prog k => ⟨.prog, [k.toNat]⟩
  | .chksum => ⟨.chksum, []⟩
  | .done => ⟨.done, []⟩
  | .panic => ⟨.panic, []⟩
  | .ramen => ⟨.ramen, []⟩
  | .ramdis => ⟨.ramdis, []⟩
  | .selbank n => ⟨.selbank, [n.toNat]⟩

/-- The assembler command of a line without comment and outer blanks. -/
def readCommand (cs : List Char) : Except AsmError AsmCmd :=
  match readMnemonic (cs.takeWhile (fun c => !isBlank c)) with
  | none => .error .unknownMnemonic
  | some m =>
    match readOperands (cs.dropWhile (fun c => !isBlank c)) with
    | none => .error .badNumber
    | some ops => .ok ⟨m, ops⟩

/-- One line: the word it assembles to, or nothing for a line that holds no command. -/
def assembleLine (line : List Char) : Except AsmError (Option Word) :=
  let cs := trimBlanks (line.takeWhile (fun c => c != ';'))
  if cs = [] then .ok none
  else
    match readCommand cs with
    | .error e => .error e
    | .ok c =>
      match toInstr c with
      | none => .error .badOperands
      | some i => .ok (some (encode i))

/-- A program: one command per line (R51), the first refused line refusing all of it. -/
def assemble (lines : List (List Char)) : Except AsmError (List Word) :=
  match lines with
  | [] => .ok []
  | l :: rest =>
    match assembleLine l, assemble rest with
    | .ok (some w), .ok ws => .ok (w :: ws)
    | .ok none, .ok ws => .ok ws
    | .error e, _ => .error e
    | .ok _, .error e => .error e

end Sys2Proof.Machine
end

