-- ==== Sys2Proof/Safety.lean ====
section
/-! DEFINITION. The terms claims are stated in: a configuration with the constants of this hardware (00_scope.md
R9), a run that ends well (44_control.md R82), lines at rest between commands (41_bus_cycle.md R59), a bus no two
drivers share (70_reset_and_hazards.md R100-R103), shadows that agree with the reference target, a machine made to run a
list of commands, what writes make of the shadows, and whose byte a read gives. -/

namespace Sys2Proof.Machine

/-- The twelve constants of `Cfg` have the values R9 gives them for this hardware. A rule that writes them as numbers
(0x8000, 0x0A, 'these 50 events') is stated under this premise, which no step changes (StepKeepsConfiguration). -/
structure HasHardwareConstants (c : Cfg) : Prop where
  addrW       : c.addrW = 16
  dataW       : c.dataW = 8
  shiftBits   : c.shiftBits = 16
  extBase     : c.extBase = 0x8000
  ctrlRamen   : c.ctrlRamen = 0x0000
  ctrlBank    : c.ctrlBank = 0x4000
  enableCode  : c.enableCode = 0x0A
  disableCode : c.disableCode = 0x00
  nbanks      : c.nbanks = 4
  bankSize    : c.bankSize = 0x2000
  ramBase     : c.ramBase = 0xA000
  ramLimit    : c.ramLimit = 0xC000

/-- The step answers this next state. -/
def StepsTo (s t : State) : Prop := step s = .next t

/-- `t` is reached from `s` by steps. -/
inductive Reaches (s : State) : State → Prop where
  | refl : Reaches s s
  | tail {t u : State} : Reaches s t → StepsTo t u → Reaches s u

/-- A run ends well (R82): `MODE = DONE`, and neither `Halt(FAULT)` nor `Halt(PANIC)` in the trace. -/
def EndedWell (s : State) : Prop :=
  s.mode = .done ∧ Event.halt .fault ∉ s.trace ∧ Event.halt .panic ∉ s.trace

/-- The lines at rest, as every cycle leaves them (R59): strobes and chip select idle, the clock low, the shift
register's outputs enabled. -/
def Pins.AtRest (p : Pins) : Prop :=
  p.wrN = true ∧ p.rdN = true ∧ p.csN = true ∧ p.sclk = false ∧ p.oe = true

/-- The lines of a state at rest. -/
def LinesAtRest (s : State) : Prop := s.pins.AtRest

/-- One moment on the bus without a hazard: an address is on the bus whenever a strobe is asserted (R59, R100), a
write strobe is asserted only while the block drives the data lines, a read strobe only while it does not (R103),
and never both (R59). -/
def Pins.BusSafe (p : Pins) : Prop :=
  (p.wrN = false → p.dir = .output ∧ p.oe = true ∧ p.sclk = false ∧ p.rdN = true ∧ p.csN = decide (p.sr < 0x8000))
    ∧ (p.rdN = false → p.dir = .input ∧ p.oe = true ∧ p.sclk = false ∧ p.wrN = true ∧ p.csN = decide (p.sr < 0x8000))

/-- No moment of a list of events that starts with the lines at `p` has a hazard. -/
def BusSafeAlong (p : Pins) (es : List Event) : Prop :=
  ∀ pre post : List Event, es = pre ++ post → (p.applyAll pre).BusSafe

/-- The events `t` has on its trace beyond those of `s`, in program order. -/
def EmittedBetween (s t : State) (es : List Event) : Prop := t.trace = es.reverse ++ s.trace

/-- The shadows agree with the latches of the reference target wherever the block has written them. -/
def ShadowsAgree (s : State) : Prop :=
  (∀ d : Byte, s.ramenSh = some d → s.target.ten = some d)
    ∧ (∀ n : Byte, s.bankSh = some n → s.target.tbank = some n)

/-- The reference target's memory is in canonical form. -/
def MemoryCanonical (s : State) : Prop := Memory.wf s.target.fill s.target.tram = true

/-- The sequencer state, the trace and the fault record agree: `Halt(m)` has been emitted exactly when `m` is the
mode and terminal (R25, R82), the record of 60_exceptions.md R88 is written exactly in mode FAULT, and while the
configuration check is still to come the mode is RUN. -/
def SequencerAgrees (s : State) : Prop :=
  (∀ m : Mode, Event.halt m ∈ s.trace ↔ s.mode = m ∧ m ≠ .run)
    ∧ (s.fcode ≠ 0 ↔ s.mode = .fault)
    ∧ (s.checkPending = true → s.mode = .run)

/-- With `CFG_VALIDATE`, once the check is behind it, the running sequencer holds a configuration that passes it
(R79). -/
def ConfigChecked (s : State) : Prop :=
  s.cfg.cfgValidate = true → s.checkPending = false → s.mode ≠ .panic → cfgOk s.cfg s.program = true

/-- A list of commands run one after another from a state, whatever `PROGRAM` holds; it stops at the first that
answers no next state or a terminal mode. -/
def runCommands (is : List Instr) (s : State) : State :=
  match is with
  | [] => s
  | i :: rest =>
    match exec i s with
    | .next t => if t.mode = .run then runCommands rest t else t
    | .fault _ => s
    | .refused _ => s

/-- The data of the last write to address `c` among recorded bus cycles, or `old` where there is none. -/
def lastWriteTo (c : Addr) (old : Option Byte) (cycles : List BusCycle) : Option Byte :=
  match cycles with
  | [] => old
  | .write a d :: rest => lastWriteTo c (if a = some c then d else old) rest
  | .read _ _ :: rest => lastWriteTo c old rest

/-! ## When a command faults (60_exceptions.md R86, R87) -/

/-- The command starts with a bus write (R60). -/
def startsWrite (i : Instr) : Bool :=
  match i with
  | .bwr _ _ | .ramen | .ramdis | .selbank _ | .prog _ | .accst _ => true
  | .shift _ | .brd _ | .dirin | .dirout | .accinit _ | .accsub _ | .chksum | .done | .panic => false

/-- The command starts with a bus read that needs `DIR = IN` beforehand (R60); `CHKSUM` sets it itself (R76). -/
def startsRead (i : Instr) : Bool :=
  match i with
  | .brd _ | .accsub _ => true
  | .shift _ | .bwr _ _ | .dirin | .dirout | .accinit _ | .accst _ | .prog _ | .chksum | .done | .panic
  | .ramen | .ramdis | .selbank _ => false

/-- The command reads `ACC` before setting it (R86). -/
def readsAcc (i : Instr) : Bool :=
  match i with
  | .accsub _ | .accst _ => true
  | .shift _ | .bwr _ _ | .brd _ | .dirin | .dirout | .accinit _ | .prog _ | .chksum | .done | .panic
  | .ramen | .ramdis | .selbank _ => false

/-- `PROG` of a blob that does not exist (R86). -/
def badBlob (i : Instr) (s : State) : Bool :=
  match i with
  | .prog k => decide (s.cfg.blobs.length ≤ k.toNat)
  | .shift _ | .bwr _ _ | .brd _ | .dirin | .dirout | .accinit _ | .accsub _ | .accst _ | .chksum | .done
  | .panic | .ramen | .ramdis | .selbank _ => false

/-- The checks of a command in the order of R87 (steps 3 to 6), each with whether it fails. -/
def commandChecks (i : Instr) (s : State) : List (FaultCode × Bool) :=
  [(.badBlobIndex, badBlob i s),
   (.chkBankMismatch, i == .chksum && s.bankSh != some s.cfg.chkBank),
   (.dirWriteWhileIn, startsWrite i && s.pins.dir == .input),
   (.dirReadWhileOut, startsRead i && s.pins.dir == .output),
   (.accUninit, readsAcc i && s.acc.isNone)]

/-- The fault a command raises: the first check that fails (R87). -/
def commandFault (i : Instr) (s : State) : Option FaultCode :=
  ((commandChecks i s).find? (fun c => c.2)).map (fun c => c.1)

/-- The command sequence `CHKSUM` stands for (43_checksum.md R76). -/
def checksumCommands (c : Cfg) : List Instr :=
  [.dirin, .accinit c.chkInit] ++ (chkRange c).map .accsub ++ [.dirout, .accst (chkWriteAddr c)]

/-- A shadow after a list of bus writes, `ctrl` being its control address (R66). -/
def shadowAfterWrites (ctrl : Addr) (old : Option Byte) (ws : List (Addr × Byte)) : Option Byte :=
  match ws with
  | [] => old
  | w :: rest => shadowAfterWrites ctrl (if w.1 = ctrl then some w.2 else old) rest

/-- Some write of a list is a violation over the shadows before it (R66, R67). -/
def writesViolate (c : Cfg) (ramenSh bankSh : Option Byte) (ws : List (Addr × Byte)) : Bool :=
  match ws with
  | [] => false
  | w :: rest =>
    violates c (.write w.2) w.1 ramenSh bankSh
      || writesViolate c (if w.1 = c.ctrlRamen then some w.2 else ramenSh)
          (if w.1 = c.ctrlBank then some w.2 else bankSh) rest

/-- `BRD a` from `s`, and `ACCSUB a` too where `ACC` holds a value, read the byte `v` and leave the environment the
answers `inputs` and the draw count `draws` (10_state.md R26; log 7). -/
def ReadGives (a : Addr) (s : State) (v : Byte) (inputs : List Byte) (draws : Nat) : Prop :=
  (∃ t : State, exec (.brd a) s = .next t ∧ t.rdata = some v ∧ t.inputs = inputs ∧ t.draws = draws)
    ∧ (∀ c : Byte, s.acc = some c →
        ∃ t : State, exec (.accsub a) s = .next t ∧ t.acc = some (c - v) ∧ t.inputs = inputs ∧ t.draws = draws)

/-- The sum of a list of bytes modulo 256. -/
def byteSum (bs : List Byte) : Byte := bs.foldr (· + ·) 0

end Sys2Proof.Machine
end

