-- ==== Sys2Proof/Certificates/Slice0/Obligations.lean ====
section
/-! DEFINITION. The statements about the model, for the provers. OBLIGATIONS.json lists them. Two premises come back:
LinesAtRest (the clock low, strobes and chip select idle, outputs enabled), an invariant every step keeps, stated as
StepKeepsLinesAtRest; and HasHardwareConstants, that the configuration gives the constants of R9 the values R9 gives
them for this hardware, which no step changes, stated as StepKeepsConfiguration. A rule written with these numbers
(0x8000, 0x0A, 'these 50 events') is stated under it; RulesReadTheConfiguration says what the model's block does with any
others (log 2). -/

open Sys2Proof Sys2Proof.Machine

/-! ## Encoding (30_encoding.md) -/

/-- R53: one word of every command, written out from the table, decodes to its command and is its encoding. -/
def Obligations.WrittenWordsDecode : Prop :=
  decode 0x10A59800 = .ok (.shift 0xA598) ∧ decode 0x20A020AA = .ok (.bwr 0xA020 0xAA)
    ∧ decode 0x30A5C900 = .ok (.brd 0xA5C9) ∧ decode 0x40000000 = .ok .dirin
    ∧ decode 0x50000000 = .ok .dirout ∧ decode 0x600000FF = .ok (.accinit 0xFF)
    ∧ decode 0x70A59800 = .ok (.accsub 0xA598) ∧ decode 0x80B52300 = .ok (.accst 0xB523)
    ∧ decode 0x90000001 = .ok (.prog 1) ∧ decode 0xA0000000 = .ok .chksum
    ∧ decode 0xB0000000 = .ok .done ∧ decode 0xC0000000 = .ok .panic
    ∧ encode (.shift 0xA598) = 0x10A59800 ∧ encode (.bwr 0xA020 0xAA) = 0x20A020AA
    ∧ encode (.brd 0xA5C9) = 0x30A5C900 ∧ encode .dirin = 0x40000000 ∧ encode .dirout = 0x50000000
    ∧ encode (.accinit 0xFF) = 0x600000FF ∧ encode (.accsub 0xA598) = 0x70A59800
    ∧ encode (.accst 0xB523) = 0x80B52300 ∧ encode (.prog 1) = 0x90000001 ∧ encode .chksum = 0xA0000000
    ∧ encode .done = 0xB0000000 ∧ encode .panic = 0xC0000000

/-- Decoding the encoding of any instruction gives it back, every operand at every value; a pseudo-command comes
back as the `BWR` it expands to (R52), which is all a decoder sees. -/
def Obligations.DecodeEncodeRoundTrip : Prop :=
  ∀ i : Instr, decode (encode i) = .ok i.expand ∧ i.expand.wellFormed = true
    ∧ (i.wellFormed = true → i.expand = i)

/-- A word that decodes is the encoding of what it decodes to, which is one of the twelve commands: no bit of a
legal word is ignored. -/
def Obligations.EncodeDecodeRoundTrip : Prop :=
  ∀ (w : Word) (i : Instr), decode w = .ok i → encode i = w ∧ i.wellFormed = true

/-- A word decodes to a command exactly when it lies in the command's row of the opcode table (mask and match). -/
def Obligations.DecodeAgreesWithOpcodeTable : Prop :=
  ∀ (w : Word) (r : OpcodeRow), r ∈ commandRows →
    (r.covers w = true ↔ ∃ i : Instr, decode w = .ok i ∧ i.mnemonic = r.mnemonic)

/-- R50: which words are illegal, and what fetching one does: `ILLEGAL_CMD` with the word recorded and no event but
`Halt(FAULT)`. The all-zero word is illegal. -/
def Obligations.IllegalWordsFault : Prop :=
  (∀ w : Word, (∀ i : Instr, decode w ≠ .ok i) ↔
    (w.extractLsb' 28 4 = 0x0 ∨ w.extractLsb' 28 4 = 0xD ∨ w.extractLsb' 28 4 = 0xE ∨ w.extractLsb' 28 4 = 0xF)
      ∨ w.extractLsb' 24 4 ≠ (0 : BitVec 4)
      ∨ (w.extractLsb' 0 8 ≠ (0 : BitVec 8) ∧ (w.extractLsb' 28 4 = 0x1 ∨ w.extractLsb' 28 4 = 0x3
          ∨ w.extractLsb' 28 4 = 0x7 ∨ w.extractLsb' 28 4 = 0x8))
      ∨ (w.extractLsb' 8 16 ≠ (0 : BitVec 16) ∧ (w.extractLsb' 28 4 = 0x6 ∨ w.extractLsb' 28 4 = 0x9))
      ∨ (w.extractLsb' 0 24 ≠ (0 : BitVec 24) ∧ (w.extractLsb' 28 4 = 0x4 ∨ w.extractLsb' 28 4 = 0x5
          ∨ w.extractLsb' 28 4 = 0xA ∨ w.extractLsb' 28 4 = 0xB ∨ w.extractLsb' 28 4 = 0xC)))
    ∧ (∀ (s : State) (w : Word), s.checkPending = false → s.mode = .run → s.program[s.cp]? = some w →
        (∀ i : Instr, decode w ≠ .ok i) →
        step s = .next { s with
          fcode := 0x01, fcp := s.cp, fword := w, mode := .fault, trace := .halt .fault :: s.trace })
    ∧ (∀ i : Instr, decode 0x00000000 ≠ .ok i)

/-- R52: the three pseudo-commands have the words of the `BWR` they expand to, decode to it, and, the constants being
those of R9, do what it does in every state; `SELBANK` takes any byte. -/
def Obligations.PseudoCommandsAreBusWrites : Prop :=
  ∀ (n : Byte) (s : State),
    encode .ramen = 0x2000000A ∧ encode .ramdis = 0x20000000
      ∧ encode (.selbank n) = 0x20400000 ||| n.setWidth 32
      ∧ decode 0x2000000A = .ok (.bwr 0x0000 0x0A) ∧ decode 0x20000000 = .ok (.bwr 0x0000 0x00)
      ∧ decode (0x20400000 ||| n.setWidth 32) = .ok (.bwr 0x4000 n)
      ∧ (HasHardwareConstants s.cfg →
          exec .ramen s = exec (.bwr 0x0000 0x0A) s ∧ exec .ramdis s = exec (.bwr 0x0000 0x00) s
            ∧ exec (.selbank n) s = exec (.bwr 0x4000 n) s)
      ∧ toInstr ⟨.selbank, [n.toNat]⟩ = some (.selbank n)

/-- The assembler refuses exactly the operand lists of the wrong length or out of range, and never truncates (R51):
what it accepts can be read back from the instruction; a line gives a word only as the encoding of the instruction made
of the numbers read from it, of any size; a line whose numbers do not fit is refused, and with it the program. How a
line is cut into words (blanks, the order of the checks) is log 17. -/
def Obligations.AssemblerNeverTruncates : Prop :=
  (∀ i : Instr, toInstr (toAsm i) = some i)
    ∧ (∀ (c : AsmCmd) (i : Instr), toInstr c = some i → toAsm i = c)
    ∧ (∀ c : AsmCmd, (∃ i : Instr, toInstr c = some i) ↔ c.wellFormed = true)
    ∧ (∀ n : Nat, readNumber (Nat.toDigits 10 n) = some n
        ∧ readNumber ('0' :: 'x' :: Nat.toDigits 16 n) = some n)
    ∧ (∀ (line : List Char) (w : Word), assembleLine line = .ok (some w) ↔
        trimBlanks (line.takeWhile (fun c => c != ';')) ≠ []
          ∧ ∃ (c : AsmCmd) (i : Instr), readCommand (trimBlanks (line.takeWhile (fun c => c != ';'))) = .ok c
            ∧ c.wellFormed = true ∧ toInstr c = some i ∧ encode i = w)
    ∧ (∀ (line : List Char) (c : AsmCmd), trimBlanks (line.takeWhile (fun c => c != ';')) ≠ [] →
        readCommand (trimBlanks (line.takeWhile (fun c => c != ';'))) = .ok c → c.wellFormed = false →
        assembleLine line = .error .badOperands)
    ∧ (∀ (lines : List (List Char)) (ws : List Word), assemble lines = .ok ws ↔
        ∃ rs : List (Option Word), lines.map assembleLine = rs.map .ok ∧ ws = rs.reduceOption)

/-! ## Sequencing (44_control.md) -/

/-- R78: with the configuration check behind it and `MODE = RUN`, a step runs the command the word at `CP` decodes
to, faults past the end, faults on an illegal word; in a terminal mode there is no step. -/
def Obligations.StepRunsDecodedCommand : Prop :=
  ∀ s : State, s.checkPending = false →
    (∀ (w : Word) (i : Instr), s.mode = .run → s.program[s.cp]? = some w → decode w = .ok i → step s = exec i s)
      ∧ (s.mode = .run → s.program.length ≤ s.cp → step s = .next (raiseFault .endOfProgram 0 s))
      ∧ (∀ (w : Word) (e : Illegal), s.mode = .run → s.program[s.cp]? = some w → decode w = .error e →
          step s = .next (raiseFault .illegalCmd w s))
      ∧ (s.mode = .done → step s = .fault .parkedDone)
      ∧ (s.mode = .panic → step s = .fault .parkedPanic)
      ∧ (s.mode = .fault → step s = .fault .parkedFault)

/-- No command is refused and none stops the machine: each answers a next state, in every state; for a command whose
check fails (R87) that next state is fault entry (R88). The second clause is the model's form of R78, by log 3: the
configuration check before the first command is a step of its own, taken while the model's bit `checkPending` holds, so
a step exists then as well as with `MODE = RUN`. -/
def Obligations.EveryCommandCompletes : Prop :=
  (∀ (i : Instr) (s : State), ∃ t : State, exec i s = .next t)
    ∧ (∀ s : State, (s.checkPending = true ∨ s.mode = .run) ↔ ∃ t : State, step s = .next t)

/-- `CP` advances by 1 after a command that leaves the sequencer running and stays otherwise (R21): there is no
jump. -/
def Obligations.CommandPointerOnlyAdvances : Prop :=
  ∀ (i : Instr) (s t : State), s.mode = .run → exec i s = .next t →
    (t.mode = .run ∧ t.cp = s.cp + 1) ∨ (t.mode ≠ .run ∧ t.cp = s.cp)

/-- What `CfgOk` says (R79), and what the check does before the first command: PANIC with no bus cycle, or RUN; with
`CFG_VALIDATE = false` it is skipped. That the check is a step of its own, taken while `checkPending` holds, is the
model's choice (log 3); R79 says only that it comes before the first command. -/
def Obligations.ConfigurationCheck : Prop :=
  (∀ (c : Cfg) (program : List Word), cfgOk c program = true ↔
      1 ≤ c.settle ∧ c.blobs.length ≤ 256
        ∧ (∀ b ∈ c.blobs, b.bank.toNat < c.nbanks ∧ b.offset.toNat + b.bytes.length ≤ c.bankSize)
        ∧ c.chkBank.toNat < c.nbanks ∧ c.chkStart ≤ c.chkEnd ∧ c.chkEnd ≤ c.bankSize ∧ c.chkWrite < c.bankSize
        ∧ (∀ w ∈ program, (∀ k : Byte, decode w = .ok (.prog k) → k.toNat < c.blobs.length)
            ∧ (∀ n : Byte, decode w = .ok (.bwr c.ctrlBank n) → n.toNat < c.nbanks)))
    ∧ (∀ s : State, s.checkPending = true → s.cfg.cfgValidate = true → cfgOk s.cfg s.program = false →
        step s = .next { s with checkPending := false, mode := .panic, trace := .halt .panic :: s.trace })
    ∧ (∀ s : State, s.checkPending = true → (s.cfg.cfgValidate = true → cfgOk s.cfg s.program = true) →
        step s = .next { s with checkPending := false, mode := .run })

/-- R80: `DONE` lights the LED, enters DONE and emits `Halt(DONE)`; nothing else changes, `CP` included; after it no
step exists. -/
def Obligations.DoneResult : Prop :=
  decode 0xB0000000 = .ok .done ∧ ∀ s : State,
    (exec .done s = .next { s with
      pins := { s.pins with led := true }
      mode := .done
      trace := .halt .done :: .set .led true :: s.trace })
    ∧ (∀ t : State, s.checkPending = false → exec .done s = .next t → step t = .fault .parkedDone)

/-- R81: `PANIC` enters PANIC and emits `Halt(PANIC)`, nothing else changes; from then on the LED is 1 for
`BLINK_ON` and 0 for `BLINK_OFF`, forever, starting with 1 (a pattern stated beside the steps, log 15); after it no
step exists. -/
def Obligations.PanicResult : Prop :=
  decode 0xC0000000 = .ok .panic
    ∧ (∀ s : State, exec .panic s = .next { s with mode := .panic, trace := .halt .panic :: s.trace })
    ∧ (∀ (c : Cfg) (k t : Nat),
        (t < c.blinkOn → panicLed c (k * (c.blinkOn + c.blinkOff) + t) = true)
          ∧ (t < c.blinkOff → panicLed c (k * (c.blinkOn + c.blinkOff) + c.blinkOn + t) = false))
    ∧ Config.reference.blinkOn = 250 ∧ Config.reference.blinkOff = 500
    ∧ (∀ s t : State, s.checkPending = false → exec .panic s = .next t → step t = .fault .parkedPanic)

/-! ## The address shifter (40_address_shifter.md, 10_state.md R23) -/

/-- R23: `SR` shifts toward bit 0 and takes `SER` into bit 15 on a rising edge of `SCLK`, and on nothing else; the
address lines carry it while `OE` is 1; after the pulses of one `ShiftOut(a)` it is `a`. -/
def Obligations.ShiftRegisterClocksOnRisingEdge : Prop :=
  (∀ p : Pins, p.sclk = false →
      (p.apply (.set .sclk true)).sr = ((BitVec.ofBool p.ser ++ p.sr.extractLsb' 1 15 : BitVec 16)))
    ∧ (∀ (p : Pins) (e : Event), e ≠ .set .sclk true ∨ p.sclk = true → (p.apply e).sr = p.sr)
    ∧ (∀ p : Pins, (p.oe = true → p.addr = some p.sr) ∧ (p.oe = false → p.addr = none))
    ∧ (∀ (c : Cfg) (p : Pins) (a : Addr), HasHardwareConstants c → p.sclk = false →
        (p.applyAll (shiftEvents c a)).sr = a ∧ (p.applyAll (shiftEvents c a)).addr = some a)

/-- R54, R56: `SHIFT a` emits exactly the 50 events of `ShiftOut(a)`, least significant bit first, leaves `SR = a`
and changes nothing else but `SER`, `SCLK`, `OE` and `CP`. -/
def Obligations.ShiftResult : Prop :=
  ∀ (a : Addr) (s : State), decode ((0x1 : BitVec 4) ++ (0 : BitVec 4) ++ a ++ (0 : BitVec 8)) = .ok (.shift a)
    ∧ (HasHardwareConstants s.cfg → s.pins.sclk = false →
        ∃ es : List Event,
          es = [Event.set .oe false]
              ++ (List.range 16).flatMap
                  (fun k => [Event.set .ser (a.getLsbD k), .set .sclk true, .set .sclk false])
              ++ [Event.set .oe true]
            ∧ es = shiftEvents s.cfg a ∧ es.length = 50
            ∧ exec (.shift a) s = .next { s with
                pins := { s.pins with ser := a.getLsbD 15, sclk := false, oe := true, sr := a }
                trace := es.reverse ++ s.trace
                cp := s.cp + 1 })

/-- R55: sixteen rising clock edges, the k-th with `SER = a[k]`; `OE` is 0 from the first event to the 49th and 1
after the 50th; the clock is low before, between and after the pulses; no other line changes at any event; and no
internal register is changed by the command. -/
def Obligations.ShifterProperties : Prop :=
  ∀ (c : Cfg) (p : Pins) (a : Addr), HasHardwareConstants c → p.sclk = false →
    serAtEdges p (shiftEvents c a) = (List.range 16).map (fun k => a.getLsbD k)
      ∧ (∀ pre post : List Event, shiftEvents c a = pre ++ post → pre ≠ [] →
          (p.applyAll pre).oe = decide (pre.length = 50)
            ∧ ((p.applyAll pre).sclk = true →
                ∃ (q : List Event) (k : Nat), pre = q ++ [.set .ser (a.getLsbD k), .set .sclk true])
            ∧ (p.applyAll pre).wrN = p.wrN ∧ (p.applyAll pre).rdN = p.rdN ∧ (p.applyAll pre).csN = p.csN
            ∧ (p.applyAll pre).dir = p.dir ∧ (p.applyAll pre).dOut = p.dOut ∧ (p.applyAll pre).led = p.led)
      ∧ (p.applyAll (shiftEvents c a)).sclk = false
      ∧ (p.applyAll (shiftEvents c a)).sr = a ∧ (p.applyAll (shiftEvents c a)).addr = some a
      ∧ (∀ s t : State, exec (.shift a) s = .next t →
          t.rdata = s.rdata ∧ t.acc = s.acc ∧ t.ramenSh = s.ramenSh ∧ t.bankSh = s.bankSh ∧ t.pv = s.pv
            ∧ t.mode = s.mode ∧ t.fcode = s.fcode ∧ t.fcp = s.fcp ∧ t.fword = s.fword)

/-! ## Bus cycles and data direction (41_bus_cycle.md) -/

/-- R57, R61: `BWR a, d` emits exactly the events of `BusWrite(a, d)`, 59 in the extended window and 57 below it,
and its whole next state; with `DIR = IN` it faults. The reference target stores `d` (R44). -/
def Obligations.BusWriteResult : Prop :=
  ∀ (a : Addr) (d : Byte) (s : State),
    decode ((0x2 : BitVec 4) ++ (0 : BitVec 4) ++ a ++ d) = .ok (.bwr a d)
      ∧ (s.pins.dir = .input → exec (.bwr a d) s = .next (raiseFault .dirWriteWhileIn (encode (.bwr a d)) s))
      ∧ (HasHardwareConstants s.cfg → LinesAtRest s → s.pins.dir = .output →
          ∃ es : List Event,
            es = [Event.set .wrN true, .set .rdN true, .set .csN true] ++ shiftEvents s.cfg a
                ++ (if 0x8000 ≤ a then [Event.set .csN false] else [])
                ++ [Event.drive d, .set .wrN false, .delay s.cfg.settle, .set .wrN true]
                ++ (if 0x8000 ≤ a then [Event.set .csN true] else [])
              ∧ es.length = (if 0x8000 ≤ a then 59 else 57)
              ∧ exec (.bwr a d) s = .next { s with
                  pins := { s.pins with ser := a.getLsbD 15, sr := a, dOut := d }
                  trace := es.reverse ++ s.trace
                  target := s.target.store (decide (a < 0x8000)) a d
                  pv := s.pv || violates s.cfg (.write d) a s.ramenSh s.bankSh
                  ramenSh := if a = 0x0000 then some d else s.ramenSh
                  bankSh := if a = 0x4000 then some d else s.bankSh
                  cp := s.cp + 1 })

/-- R58, R62: `BRD a` emits exactly the events of `BusRead(a)` around one sample, and its whole next state: `RDATA`
is the sampled byte, `D_OUT` is kept; with `DIR = OUT` it faults. -/
def Obligations.BusReadResult : Prop :=
  ∀ (a : Addr) (s : State),
    decode ((0x3 : BitVec 4) ++ (0 : BitVec 4) ++ a ++ (0 : BitVec 8)) = .ok (.brd a)
      ∧ (s.pins.dir = .output → exec (.brd a) s = .next (raiseFault .dirReadWhileOut (encode (.brd a)) s))
      ∧ (HasHardwareConstants s.cfg → LinesAtRest s → s.pins.dir = .input →
          ∃ (v : Byte) (es : List Event) (inp : List Byte) (dr : Nat),
            es = [Event.set .wrN true, .set .rdN true, .set .csN true] ++ shiftEvents s.cfg a
                ++ (if 0x8000 ≤ a then [Event.set .csN false] else [])
                ++ [Event.set .rdN false, .delay s.cfg.settle, .sample v, .set .rdN true]
                ++ (if 0x8000 ≤ a then [Event.set .csN true] else [])
              ∧ es.length = (if 0x8000 ≤ a then 59 else 57)
              ∧ exec (.brd a) s = .next { s with
                  pins := { s.pins with ser := a.getLsbD 15, sr := a }
                  trace := es.reverse ++ s.trace
                  rdata := some v
                  pv := s.pv || violates s.cfg .read a s.ramenSh s.bankSh
                  inputs := inp
                  draws := dr
                  cp := s.cp + 1 })

/-- Whose byte a read gives (R26, R45), for `BRD`, `ACCSUB` and `CHKSUM`: the reference target's RAM byte where it is
the oracle and the read reaches its RAM; otherwise the environment's next answer, any byte at all, which is used up;
otherwise a free value, and the draw counter advances (the list of answers and the counter are the model's, log 7).
`CHKSUM` under the reference target is ChksumStoresComplementOfSum. -/
def Obligations.OracleAnswersReads : Prop :=
  (∀ (a : Addr) (s : State), HasHardwareConstants s.cfg → LinesAtRest s → s.pins.dir = .input →
    (∀ loc : Nat, s.oracle = .target → s.target.location (decide (a < 0x8000)) a = some loc →
        ReadGives a s (s.target.byteAt loc) s.inputs s.draws)
      ∧ (∀ (v : Byte) (rest : List Byte),
          (s.oracle = .free ∨ s.target.location (decide (a < 0x8000)) a = none) → s.inputs = v :: rest →
          ReadGives a s v rest s.draws)
      ∧ ((s.oracle = .free ∨ s.target.location (decide (a < 0x8000)) a = none) → s.inputs = [] →
          ∃ v : Byte, ReadGives a s v [] (s.draws + 1)))
    ∧ (∀ (s : State) (n : Nat), HasHardwareConstants s.cfg → LinesAtRest s → s.bankSh = some s.cfg.chkBank →
        n = s.cfg.chkEnd - s.cfg.chkStart →
        (s.oracle = .free ∨ ∀ o ∈ List.range' s.cfg.chkStart n,
          s.target.location (decide ((0xA000 + BitVec.ofNat 16 o : Addr) < 0x8000)) (0xA000 + BitVec.ofNat 16 o) = none) →
        ∃ (t : State) (vs : List Byte), exec .chksum s = .next t ∧ vs.length = n
          ∧ vs.take s.inputs.length = s.inputs.take n
          ∧ t.acc = some (s.cfg.chkInit - byteSum vs)
          ∧ t.inputs = s.inputs.drop n ∧ t.draws = s.draws + (n - s.inputs.length))

/-- R59, both cycles, at every moment between two events: chip select is asserted around the strobe in the extended
window and never below it; the strobe is low across exactly one delay, of `SETTLE`; the address is on the bus while
it is low; a write drives its byte, a read takes its one sample, while it is low; the other strobe stays high; and
the cycle ends at rest. -/
def Obligations.CycleProperties : Prop :=
  ∀ (p : Pins) (c : Cfg) (a : Addr) (d v : Byte), HasHardwareConstants c → p.AtRest →
    (∀ pre post : List Event, writeEvents c a d = pre ++ post →
        (p.applyAll pre).rdN = true
          ∧ (a < 0x8000 → (p.applyAll pre).csN = true)
          ∧ ((p.applyAll pre).wrN = false → (p.applyAll pre).addr = some a ∧ (p.applyAll pre).dOut = d
              ∧ (0x8000 ≤ a → (p.applyAll pre).csN = false))
          ∧ (∀ (e : Event) (post' : List Event), post = e :: post' →
              ((∃ m : Nat, e = .delay m) → e = .delay c.settle ∧ (p.applyAll pre).wrN = false)
                ∧ (∀ x : Byte, e ≠ .sample x)))
      ∧ (writeEvents c a d).count (.delay c.settle) = 1
      ∧ (∀ pre post : List Event, readEvents c a v = pre ++ post →
        (p.applyAll pre).wrN = true
          ∧ (a < 0x8000 → (p.applyAll pre).csN = true)
          ∧ ((p.applyAll pre).rdN = false → (p.applyAll pre).addr = some a
              ∧ (0x8000 ≤ a → (p.applyAll pre).csN = false))
          ∧ (∀ (e : Event) (post' : List Event), post = e :: post' →
              ((∃ m : Nat, e = .delay m) → e = .delay c.settle ∧ (p.applyAll pre).rdN = false)
                ∧ ((∃ x : Byte, e = .sample x) → e = .sample v ∧ (p.applyAll pre).rdN = false)))
      ∧ (readEvents c a v).count (.delay c.settle) = 1 ∧ (readEvents c a v).count (.sample v) = 1
      ∧ (p.applyAll (writeEvents c a d)).AtRest ∧ (p.applyAll (readEvents c a v)).AtRest

/-- R63, R64: `DIRIN` and `DIROUT` set `DIR`, emit one event, and change nothing else but `CP`: `D_OUT` is kept. -/
def Obligations.DirectionSwitches : Prop :=
  decode 0x40000000 = .ok .dirin ∧ decode 0x50000000 = .ok .dirout ∧ ∀ s : State,
    exec .dirin s = .next { s with
        pins := { s.pins with dir := .input }, trace := .dir .input :: s.trace, cp := s.cp + 1 }
      ∧ exec .dirout s = .next { s with
        pins := { s.pins with dir := .output }, trace := .dir .output :: s.trace, cp := s.cp + 1 }
      ∧ ({ s.pins with dir := .input } : Pins).driven = none
      ∧ ({ s.pins with dir := .output } : Pins).driven = some s.pins.dOut

/-! ## The protocol and the payload programmer (42_protocol.md) -/

/-- R67: a cycle is a violation in exactly the five cases; `PV` is sticky: no command and no step clears it, reset
does. -/
def Obligations.ViolationCases : Prop :=
  (∀ (c : Cfg) (k : Access) (a : Addr) (ramenSh bankSh : Option Byte), HasHardwareConstants c →
    (violates c k a ramenSh bankSh = true ↔
    (∃ d : Byte, k = .write d ∧ a = 0x0000 ∧ d ≠ 0x0A ∧ d ≠ 0x00)
      ∨ (∃ d : Byte, k = .write d ∧ a = 0x4000 ∧ 4 ≤ d.toNat)
      ∨ (k = .read ∧ (a = 0x0000 ∨ a = 0x4000))
      ∨ ((0xA000 ≤ a.toNat ∧ a.toNat ≤ 0xBFFF)
          ∧ ¬ (ramenSh = some 0x0A ∧ ∃ n : Byte, bankSh = some n ∧ n.toNat < 4))
      ∨ (a ≠ 0x0000 ∧ a ≠ 0x4000 ∧ ¬ (0xA000 ≤ a.toNat ∧ a.toNat ≤ 0xBFFF))))
    ∧ (∀ s t : State, step s = .next t → s.pv = true → t.pv = true)
    ∧ (∀ (i : Instr) (s t : State), exec i s = .next t → s.pv = true → t.pv = true)
    ∧ (∀ s : State, (hardReset s).pv = false)

/-- R66: what the monitor does at the end of a cycle; it emits nothing and changes nothing else. -/
def Obligations.MonitorUpdatesShadows : Prop :=
  ∀ (a : Addr) (d : Byte) (s : State), HasHardwareConstants s.cfg →
    monitor (.write d) a s = { s with
        pv := s.pv || violates s.cfg (.write d) a s.ramenSh s.bankSh
        ramenSh := if a = 0x0000 then some d else s.ramenSh
        bankSh := if a = 0x4000 then some d else s.bankSh }
      ∧ monitor .read a s = { s with pv := s.pv || violates s.cfg .read a s.ramenSh s.bankSh }

/-- R68, R69, R70: the whole next state of `RAMEN`, `RAMDIS` and `SELBANK n` with `DIR = OUT`: 57 events, no
chip-select event after the third, the shadow set; `RAMEN` and `RAMDIS` never set `PV`, `SELBANK n` sets it exactly
when `n >= NBANKS`; with `DIR = IN` each faults. -/
def Obligations.ProtocolCommandResults : Prop :=
  ∀ (n : Byte) (s : State),
    (s.pins.dir = .input →
        exec .ramen s = .next (raiseFault .dirWriteWhileIn 0x2000000A s)
          ∧ exec .ramdis s = .next (raiseFault .dirWriteWhileIn 0x20000000 s)
          ∧ exec (.selbank n) s = .next (raiseFault .dirWriteWhileIn (0x20400000 ||| n.setWidth 32) s))
      ∧ encode .ramen = 0x2000000A ∧ encode .ramdis = 0x20000000
      ∧ encode (.selbank n) = 0x20400000 ||| n.setWidth 32
      ∧ (HasHardwareConstants s.cfg → LinesAtRest s → s.pins.dir = .output →
          exec .ramen s = .next { s with
              pins := { s.pins with ser := false, sr := 0x0000, dOut := 0x0A }
              trace := (writeEvents s.cfg 0x0000 0x0A).reverse ++ s.trace
              target := { s.target with ten := some 0x0A }
              ramenSh := some 0x0A
              cp := s.cp + 1 }
            ∧ exec .ramdis s = .next { s with
              pins := { s.pins with ser := false, sr := 0x0000, dOut := 0x00 }
              trace := (writeEvents s.cfg 0x0000 0x00).reverse ++ s.trace
              target := { s.target with ten := some 0x00 }
              ramenSh := some 0x00
              cp := s.cp + 1 }
            ∧ exec (.selbank n) s = .next { s with
              pins := { s.pins with ser := false, sr := 0x4000, dOut := n }
              trace := (writeEvents s.cfg 0x4000 n).reverse ++ s.trace
              target := { s.target with tbank := some n }
              pv := s.pv || decide (4 ≤ n.toNat)
              bankSh := some n
              cp := s.cp + 1 })
      ∧ (HasHardwareConstants s.cfg → ∀ d : Byte, (writeEvents s.cfg 0x0000 d).length = 57
          ∧ Event.set .csN false ∉ writeEvents s.cfg 0x0000 d
          ∧ (writeEvents s.cfg 0x4000 d).length = 57
          ∧ Event.set .csN false ∉ writeEvents s.cfg 0x4000 d)

/-- R71: `PROG k` checks the index, then the direction; otherwise it issues the bank-select write and then one write
for each byte at ascending addresses, and nothing else, which the reference target takes one after another; `D_OUT`
ends as the last byte, or the bank when the blob is empty. The shadows and `PV` are what these writes, one after another,
make of them (R66, R67); a blob that stays in its bank window leaves `RAMEN_SH` alone and `BANK_SH` at its bank. -/
def Obligations.ProgResult : Prop :=
  ∀ (k : Byte) (s : State),
    decode ((0x9 : BitVec 4) ++ (0 : BitVec 4) ++ (0 : BitVec 16) ++ k) = .ok (.prog k)
      ∧ (s.cfg.blobs[k.toNat]? = none → exec (.prog k) s = .next (raiseFault .badBlobIndex (encode (.prog k)) s))
      ∧ (∀ b : Blob, s.cfg.blobs[k.toNat]? = some b → s.pins.dir = .input →
          exec (.prog k) s = .next (raiseFault .dirWriteWhileIn (encode (.prog k)) s))
      ∧ (∀ b : Blob, s.cfg.blobs[k.toNat]? = some b → HasHardwareConstants s.cfg → LinesAtRest s →
          s.pins.dir = .output →
          ∃ (t : State) (es : List Event) (ws : List (Addr × Byte)), exec (.prog k) s = .next t
            ∧ EmittedBetween s t es
            ∧ es = writeEvents s.cfg 0x4000 b.bank
                ++ b.bytes.zipIdx.flatMap
                    (fun x => writeEvents s.cfg (0xA000 + b.offset + BitVec.ofNat 16 x.2) x.1)
            ∧ recordBus s.pins es = .write (some 0x4000) (some b.bank)
                :: b.bytes.zipIdx.map
                    (fun x => .write (some (0xA000 + b.offset + BitVec.ofNat 16 x.2)) (some x.1))
            ∧ t.pins.dOut = b.bytes.getLastD b.bank
            ∧ LinesAtRest t ∧ t.pins.dir = .output ∧ t.pins.led = s.pins.led
            ∧ t.target = b.bytes.zipIdx.foldl
                (fun g x => g.store (decide ((0xA000 + b.offset + BitVec.ofNat 16 x.2 : Addr) < 0x8000))
                  (0xA000 + b.offset + BitVec.ofNat 16 x.2) x.1)
                (s.target.store true 0x4000 b.bank)
            ∧ ws = (0x4000, b.bank) :: b.bytes.zipIdx.map (fun x => (0xA000 + b.offset + BitVec.ofNat 16 x.2, x.1))
            ∧ t.ramenSh = shadowAfterWrites 0x0000 s.ramenSh ws
            ∧ t.bankSh = shadowAfterWrites 0x4000 s.bankSh ws
            ∧ t.pv = (s.pv || writesViolate s.cfg s.ramenSh s.bankSh ws)
            ∧ (b.offset.toNat + b.bytes.length ≤ 0x2000 →
                t.bankSh = some b.bank ∧ t.ramenSh = s.ramenSh
                  ∧ (s.ramenSh = some 0x0A → b.bank.toNat < 4 → t.pv = s.pv))
            ∧ t.rdata = s.rdata ∧ t.acc = s.acc ∧ t.cp = s.cp + 1 ∧ t.mode = s.mode ∧ t.fcode = s.fcode
            ∧ t.fcp = s.fcp ∧ t.fword = s.fword ∧ t.inputs = s.inputs ∧ t.draws = s.draws)

/-- When `PROG k` sets `PV` (R67 cases 2, 4 and 5; R71): a bank that does not exist; a byte written inside the window
while RAM is not known to be enabled; a byte written outside the window and to no control address. -/
def Obligations.ProgSetsViolation : Prop :=
  ∀ (k : Byte) (b : Blob) (s : State), HasHardwareConstants s.cfg → s.pins.dir = .output →
    s.cfg.blobs[k.toNat]? = some b →
    ∃ t : State, exec (.prog k) s = .next t
      ∧ (4 ≤ b.bank.toNat → t.pv = true)
      ∧ (s.ramenSh ≠ some 0x0A → b.bytes ≠ [] → b.offset.toNat < 0x2000 → t.pv = true)
      ∧ (∀ j : Nat, j < b.bytes.length → (0xA000 + b.offset + BitVec.ofNat 16 j : Addr) ≠ 0x0000 →
          (0xA000 + b.offset + BitVec.ofNat 16 j : Addr) ≠ 0x4000 →
          ¬ (0xA000 ≤ (0xA000 + b.offset + BitVec.ofNat 16 j : Addr).toNat
              ∧ (0xA000 + b.offset + BitVec.ofNat 16 j : Addr).toNat ≤ 0xBFFF) → t.pv = true)

/-- E4 under the reference target (R44): with RAM enabled at the target and a blob that stays in an existing bank,
`PROG k` leaves every byte of the blob in its bank and every other byte of the target's RAM as it was. -/
def Obligations.ProgLandsInItsBank : Prop :=
  ∀ (k : Byte) (b : Blob) (s : State), HasHardwareConstants s.cfg → LinesAtRest s → s.pins.dir = .output →
    MemoryCanonical s → s.cfg.blobs[k.toNat]? = some b → b.bank.toNat < 4 → b.offset.toNat + b.bytes.length ≤ 0x2000 →
    s.target.ten = some 0x0A →
    ∃ t : State, exec (.prog k) s = .next t
      ∧ (∀ (j : Nat) (v : Byte), b.bytes[j]? = some v →
          t.target.byteAt (b.bank.toNat * 0x2000 + (b.offset.toNat + j)) = v)
      ∧ (∀ loc : Nat,
          (∀ j : Nat, j < b.bytes.length → loc ≠ b.bank.toNat * 0x2000 + (b.offset.toNat + j)) →
          t.target.byteAt loc = s.target.byteAt loc)
      ∧ t.target.ten = some 0x0A ∧ t.target.tbank = some b.bank

/-! ## The accumulator and the checksum (43_checksum.md) -/

/-- R73: `ACCINIT c` sets `ACC`, emits no event, and changes nothing else but `CP`. -/
def Obligations.AccInitResult : Prop :=
  ∀ (c : Byte) (s : State),
    decode ((0x6 : BitVec 4) ++ (0 : BitVec 4) ++ (0 : BitVec 16) ++ c) = .ok (.accinit c)
      ∧ exec (.accinit c) s = .next { s with acc := some c, cp := s.cp + 1 }

/-- R74: `ACCSUB a` reads one byte and subtracts it modulo 256; `RDATA` is kept. The direction is checked before
`ACC`. -/
def Obligations.AccSubResult : Prop :=
  ∀ (a : Addr) (s : State),
    decode ((0x7 : BitVec 4) ++ (0 : BitVec 4) ++ a ++ (0 : BitVec 8)) = .ok (.accsub a)
      ∧ (s.pins.dir = .output → exec (.accsub a) s = .next (raiseFault .dirReadWhileOut (encode (.accsub a)) s))
      ∧ (s.pins.dir = .input → s.acc = none →
          exec (.accsub a) s = .next (raiseFault .accUninit (encode (.accsub a)) s))
      ∧ (∀ c : Byte, s.pins.dir = .input → s.acc = some c → HasHardwareConstants s.cfg →
          LinesAtRest s →
          ∃ (v c' : Byte) (inp : List Byte) (dr : Nat),
            c'.toNat = (c.toNat + 256 - v.toNat) % 256
              ∧ recordBus s.pins (readEvents s.cfg a v) = [.read (some a) v]
              ∧ exec (.accsub a) s = .next { s with
                  pins := { s.pins with ser := a.getLsbD 15, sr := a }
                  trace := (readEvents s.cfg a v).reverse ++ s.trace
                  acc := some c'
                  pv := s.pv || violates s.cfg .read a s.ramenSh s.bankSh
                  inputs := inp
                  draws := dr
                  cp := s.cp + 1 })

/-- R75: `ACCST a` is one plain bus write of `ACC`, which keeps its value; no bank select. The direction is checked
before `ACC`. -/
def Obligations.AccStResult : Prop :=
  ∀ (a : Addr) (s : State),
    decode ((0x8 : BitVec 4) ++ (0 : BitVec 4) ++ a ++ (0 : BitVec 8)) = .ok (.accst a)
      ∧ (s.pins.dir = .input → exec (.accst a) s = .next (raiseFault .dirWriteWhileIn (encode (.accst a)) s))
      ∧ (s.pins.dir = .output → s.acc = none →
          exec (.accst a) s = .next (raiseFault .accUninit (encode (.accst a)) s))
      ∧ (∀ c : Byte, s.pins.dir = .output → s.acc = some c → HasHardwareConstants s.cfg →
          LinesAtRest s →
          recordBus s.pins (writeEvents s.cfg a c) = [.write (some a) (some c)]
            ∧ exec (.accst a) s = .next { s with
                pins := { s.pins with ser := a.getLsbD 15, sr := a, dOut := c }
                trace := (writeEvents s.cfg a c).reverse ++ s.trace
                target := s.target.store (decide (a < 0x8000)) a c
                pv := s.pv || violates s.cfg (.write c) a s.ramenSh s.bankSh
                ramenSh := if a = 0x0000 then some c else s.ramenSh
                bankSh := if a = 0x4000 then some c else s.bankSh
                cp := s.cp + 1 })

/-- The derived clause of R76: `CHKSUM` equals, event for event and state for state but for `CP`, the commands
`DIRIN; ACCINIT; ACCSUB` for each address of the range; `DIROUT; ACCST`. -/
def Obligations.ChksumEqualsItsCommands : Prop :=
  ∀ s : State, s.mode = .run → s.bankSh = some s.cfg.chkBank →
    exec .chksum s = .next { runCommands (checksumCommands s.cfg) s with cp := s.cp + 1 }

/-- R76 over any oracle: with another bank selected `CHKSUM` faults, else it switches to input, reads every address
of the range once in ascending order, end exclusive, switches to output, and issues one write of `CHK_INIT` minus
the sum of the bytes read, which `ACC` and `D_OUT` keep. `RDATA` is not written.
Every configuration is covered, so the addresses wrap modulo 2^16 and a range whose end is not past its start is empty
(log 13, the model's reading; R79 lets neither through but the empty range of R76). -/
def Obligations.ChksumResult : Prop :=
  ∀ s : State,
    decode 0xA0000000 = .ok .chksum
      ∧ (s.bankSh ≠ some s.cfg.chkBank →
          exec .chksum s = .next (raiseFault .chkBankMismatch 0xA0000000 s))
      ∧ (s.bankSh = some s.cfg.chkBank → HasHardwareConstants s.cfg → LinesAtRest s →
          ∃ (t : State) (vs : List Byte) (reads : List Event), exec .chksum s = .next t
            ∧ vs.length = s.cfg.chkEnd - s.cfg.chkStart
            ∧ reads = ((List.range' s.cfg.chkStart (s.cfg.chkEnd - s.cfg.chkStart)).zip vs).flatMap
                (fun x => readEvents s.cfg (0xA000 + BitVec.ofNat 16 x.1) x.2)
            ∧ EmittedBetween s t ([.dir .input] ++ reads ++ [.dir .output]
                ++ writeEvents s.cfg (0xA000 + BitVec.ofNat 16 s.cfg.chkWrite)
                    (s.cfg.chkInit - byteSum vs))
            ∧ t.acc = some (s.cfg.chkInit - byteSum vs)
            ∧ t.pins = { s.pins with
                dir := .output
                ser := (0xA000 + BitVec.ofNat 16 s.cfg.chkWrite : Addr).getLsbD 15
                sr := 0xA000 + BitVec.ofNat 16 s.cfg.chkWrite
                dOut := s.cfg.chkInit - byteSum vs }
            ∧ t.target = s.target.store (decide ((0xA000 + BitVec.ofNat 16 s.cfg.chkWrite : Addr) < 0x8000))
                (0xA000 + BitVec.ofNat 16 s.cfg.chkWrite) (s.cfg.chkInit - byteSum vs)
            ∧ t.ramenSh = (if (0xA000 + BitVec.ofNat 16 s.cfg.chkWrite : Addr) = 0x0000
                then some (s.cfg.chkInit - byteSum vs) else s.ramenSh)
            ∧ t.bankSh = (if (0xA000 + BitVec.ofNat 16 s.cfg.chkWrite : Addr) = 0x4000
                then some (s.cfg.chkInit - byteSum vs) else s.bankSh)
            ∧ t.pv = (s.pv
                || (List.range' s.cfg.chkStart (s.cfg.chkEnd - s.cfg.chkStart)).any
                    (fun o => violates s.cfg .read (0xA000 + BitVec.ofNat 16 o) s.ramenSh s.bankSh)
                || violates s.cfg (.write (s.cfg.chkInit - byteSum vs)) (0xA000 + BitVec.ofNat 16 s.cfg.chkWrite)
                    s.ramenSh s.bankSh)
            ∧ t.rdata = s.rdata ∧ t.mode = s.mode ∧ t.cp = s.cp + 1 ∧ t.fcode = s.fcode ∧ t.fcp = s.fcp
            ∧ t.fword = s.fword)

/-- R77 (with R72): under the reference target, RAM enabled and the configured bank selected, `CHKSUM` over a range
inside the bank stores `CHK_INIT` minus the sum of the range's bytes at the write offset of that bank, and leaves
every other byte of the target's RAM as it was; the environment's own answers are not used. A range whose end is not past
its start is empty (log 13; R76 names `CHK_START = CHK_END`). -/
def Obligations.ChksumStoresComplementOfSum : Prop :=
  ∀ s : State, HasHardwareConstants s.cfg → LinesAtRest s → MemoryCanonical s → s.oracle = .target →
    s.bankSh = some s.cfg.chkBank → s.cfg.chkBank.toNat < 4 → s.cfg.chkEnd ≤ 0x2000 →
    s.cfg.chkWrite < 0x2000 → s.target.ten = some 0x0A → s.target.tbank = some s.cfg.chkBank →
    ∃ (t : State) (c : Byte), exec .chksum s = .next t
      ∧ c = s.cfg.chkInit - byteSum ((List.range' s.cfg.chkStart (s.cfg.chkEnd - s.cfg.chkStart)).map
          (fun o => s.target.byteAt (s.cfg.chkBank.toNat * 0x2000 + o)))
      ∧ t.acc = some c
      ∧ t.target.byteAt (s.cfg.chkBank.toNat * 0x2000 + s.cfg.chkWrite) = c
      ∧ (∀ loc : Nat, loc ≠ s.cfg.chkBank.toNat * 0x2000 + s.cfg.chkWrite →
          t.target.byteAt loc = s.target.byteAt loc)
      ∧ (s.ramenSh = some 0x0A → t.pv = s.pv)
      ∧ t.inputs = s.inputs ∧ t.draws = s.draws

/-! ## The reference target (20_memory.md) -/

/-- What the reference target does at the end of a write cycle (R44), and that nothing else changes it. A write cycle ends
at a `Set(WR_n, 1)` that raises the strobe: that one with `WR_n` already 1 changes nothing is the model's reading (log
9, DEDUCED). -/
def Obligations.TargetWriteRule : Prop :=
  (∀ (p : Pins) (t : Target) (a : Addr), p.wrN = false → p.addr = some a → p.dir = .output →
      (a = 0x0000 → Target.observe p t (.set .wrN true) = { t with ten := some p.dOut })
        ∧ (a = 0x4000 → Target.observe p t (.set .wrN true) = { t with tbank := some p.dOut })
        ∧ (∀ b : Byte, 0xA000 ≤ a.toNat → a.toNat ≤ 0xBFFF → p.csN = false → t.ten = some 0x0A →
            t.tbank = some b → b.toNat < 4 →
            Target.observe p t (.set .wrN true)
              = { t with tram := Memory.write t.fill t.tram (b.toNat * 0x2000 + (a.toNat - 0xA000)) p.dOut })
        ∧ (a ≠ 0x0000 → a ≠ 0x4000 →
            ¬ (0xA000 ≤ a.toNat ∧ a.toNat ≤ 0xBFFF ∧ p.csN = false ∧ t.ten = some 0x0A
                ∧ ∃ b : Byte, t.tbank = some b ∧ b.toNat < 4) →
            Target.observe p t (.set .wrN true) = t))
    ∧ (∀ (p : Pins) (t : Target) (e : Event),
        e ≠ .set .wrN true ∨ p.wrN = true ∨ p.addr = none ∨ p.dir = .input → Target.observe p t e = t)

/-- Reading the target's RAM after a write to it (R43): the byte written where it was written, and every other byte
as before; what a test's start state fixes is read where nothing was written. -/
def Obligations.TargetMemoryReadsBack : Prop :=
  ∀ (t : Target) (loc : Nat) (d : Byte), Memory.wf t.fill t.tram = true →
    Target.byteAt { t with tram := Memory.write t.fill t.tram loc d } loc = d
      ∧ (∀ loc' : Nat, loc' ≠ loc →
          Target.byteAt { t with tram := Memory.write t.fill t.tram loc d } loc' = t.byteAt loc')
      ∧ (∀ f : Byte, t.fill = some f → t.tram = [] → t.byteAt loc = f)

/-- Which byte of the target's RAM each command stores to: the one location its address reaches, for a single bus
write (`BWR`, `ACCST`, the pseudo-commands), holds the byte written, and every other byte is as before. -/
def Obligations.WriteCommandsStoreOneByte : Prop :=
  ∀ (i : Instr) (a : Addr) (d : Byte) (s t : State), HasHardwareConstants s.cfg → LinesAtRest s → MemoryCanonical s →
    (i.expand = .bwr a d ∨ (i = .accst a ∧ s.acc = some d)) → s.pins.dir = .output → exec i s = .next t →
    (∀ loc : Nat, s.target.location (decide (a < 0x8000)) a = some loc → t.target.byteAt loc = d)
      ∧ (∀ loc : Nat, s.target.location (decide (a < 0x8000)) a ≠ some loc →
          t.target.byteAt loc = s.target.byteAt loc)

/-- The commands that store nothing leave the whole reference target as it was: `SHIFT`, `BRD`, `DIRIN`, `DIROUT`,
`ACCINIT`, `ACCSUB`, `DONE`, `PANIC`, and any command that faults. -/
def Obligations.OtherCommandsStoreNothing : Prop :=
  ∀ (i : Instr) (s t : State), LinesAtRest s → exec i s = .next t →
    startsWrite i = false ∧ i ≠ .chksum ∨ commandFault i s ≠ none → t.target = s.target

/-! ## Faults and reset (60_exceptions.md, 70_reset_and_hazards.md) -/

/-- R88: fault entry writes the record, enters FAULT, emits `Halt(FAULT)`, and changes nothing else; past the end of
the program the recorded word is 0; there is no further step. The codes are those of R86. -/
def Obligations.FaultEntry : Prop :=
  (∀ (f : FaultCode) (w : Word) (s : State), raiseFault f w s = { s with
      fcode := f.code, fcp := s.cp, fword := w, mode := .fault, trace := .halt .fault :: s.trace })
    ∧ (∀ s : State, s.checkPending = false → s.mode = .run → s.program.length ≤ s.cp →
        step s = .next { s with
          fcode := 0x02, fcp := s.cp, fword := 0, mode := .fault, trace := .halt .fault :: s.trace })
    ∧ (∀ (f : FaultCode) (w : Word) (s : State), s.checkPending = false →
        step (raiseFault f w s) = .fault .parkedFault)
    ∧ FaultCode.illegalCmd.code = 0x01 ∧ FaultCode.endOfProgram.code = 0x02
    ∧ FaultCode.dirWriteWhileIn.code = 0x03 ∧ FaultCode.dirReadWhileOut.code = 0x04
    ∧ FaultCode.accUninit.code = 0x05 ∧ FaultCode.badBlobIndex.code = 0x06
    ∧ FaultCode.chkBankMismatch.code = 0x07

/-- R87: a command raises exactly the first check that fails in the order of the rule, before any event, with the
state exactly as before but for the fault record; and when no check fails it does not fault, not even part-way. -/
def Obligations.FaultsAreFirstFailingCheckAndPrecise : Prop :=
  ∀ (i : Instr) (s : State),
    (∀ f : FaultCode, commandFault i s = some f → exec i s = .next { s with
        fcode := f.code, fcp := s.cp, fword := encode i, mode := .fault, trace := .halt .fault :: s.trace })
      ∧ (commandFault i s = none → ∃ t : State, exec i s = .next t ∧ t.fcode = s.fcode ∧ t.fcp = s.fcp
          ∧ t.fword = s.fword ∧ (t.mode = .fault → s.mode = .fault))

/-- R89, R97: in a terminal mode there is no step, so the record is never cleared by one; reset leaves it, from any
state. -/
def Obligations.OnlyResetLeavesTerminalModes : Prop :=
  (∀ s : State, s.checkPending = false → s.mode ≠ .run → ∀ t : State, step s ≠ .next t)
    ∧ (∀ s : State, (hardReset s).mode = .run ∧ (hardReset s).checkPending = true)

/-- The reset values of R27, both in `State.reset` and after a reset of any state; `D_OUT`, `SR` and the target's state,
which R27 leaves open, are not claimed (for the target see NothingPersistsAcrossReset), and that the configuration check is then still to come is the model's form of R98 (log 3). -/
def Obligations.ResetValues : Prop :=
  ∀ s0 s : State, s = State.reset ∨ s = hardReset s0 →
    s.pins.wrN = true ∧ s.pins.rdN = true ∧ s.pins.csN = true ∧ s.pins.sclk = false ∧ s.pins.ser = false
      ∧ s.pins.oe = true ∧ s.pins.led = false ∧ s.pins.dir = .output ∧ s.rdata = none ∧ s.acc = none
      ∧ s.ramenSh = none ∧ s.bankSh = none ∧ s.pv = false ∧ s.cp = 0 ∧ s.mode = .run ∧ s.fcode = 0
      ∧ s.fcp = 0 ∧ s.fword = 0 ∧ s.trace = [] ∧ s.checkPending = true

/-! ## Rules of the whole machine -/

/-- Who writes each internal register (R19): `RDATA` only `BRD`; `ACC` only `ACCINIT`, `ACCSUB`, `CHKSUM`; the
shadows only a command that writes the bus; the fault record only fault entry; the LED only `DONE`; `DIR` only
`DIRIN`, `DIROUT`, `CHKSUM`; the configuration, the program and the environment's choices no command at all. -/
def Obligations.RegisterWriters : Prop :=
  ∀ (i : Instr) (s t : State), exec i s = .next t →
    (t.rdata ≠ s.rdata → ∃ a : Addr, i = .brd a)
      ∧ (t.acc ≠ s.acc → (∃ c : Byte, i = .accinit c) ∨ (∃ a : Addr, i = .accsub a) ∨ i = .chksum)
      ∧ (t.ramenSh ≠ s.ramenSh ∨ t.bankSh ≠ s.bankSh → startsWrite i = true ∨ i = .chksum)
      ∧ (t.fcode ≠ s.fcode ∨ t.fcp ≠ s.fcp ∨ t.fword ≠ s.fword → t.mode = .fault)
      ∧ (t.pins.led ≠ s.pins.led → i = .done)
      ∧ (t.pins.dir ≠ s.pins.dir → i = .dirin ∨ i = .dirout ∨ i = .chksum)
      ∧ t.cfg = s.cfg ∧ t.program = s.program ∧ t.checkPending = s.checkPending ∧ t.oracle = s.oracle
      ∧ t.target.fill = s.target.fill

/-- R17, R25, R105: in every step the trace only grows, the lines and the reference target are exactly what the new
events make them, and every `Delay` among them is of `SETTLE`. -/
def Obligations.StateFollowsTrace : Prop :=
  ∀ s t : State, step s = .next t →
    ∃ es : List Event, EmittedBetween s t es ∧ t.pins = s.pins.applyAll es
      ∧ t.target = Target.observeAll s.pins s.target es
      ∧ (∀ n : Nat, Event.delay n ∈ es → n = s.cfg.settle)

/-- The last sentence of R25: dropping the `Set` events that change no level leaves the same lines and shows the
target the same. -/
def Obligations.RedundantSetsShowNothing : Prop :=
  ∀ (p : Pins) (t : Target) (es : List Event),
    p.applyAll (dropRedundant p es) = p.applyAll es
      ∧ Target.observeAll p t (dropRedundant p es) = Target.observeAll p t es
      ∧ recordBus p (dropRedundant p es) = recordBus p es

/-- Invariant: no step changes the configuration or the program (R8, R16: parameters of the step relation), so the
constants of R9 stay those of this hardware. -/
def Obligations.StepKeepsConfiguration : Prop :=
  ∀ s t : State, step s = .next t →
    t.cfg = s.cfg ∧ t.program = s.program ∧ (HasHardwareConstants s.cfg → HasHardwareConstants t.cfg)

/-- What the block does with the constants of the configuration it is given, whatever their values (R8, R9). For values
other than R9's this is the model's reading (log 2, DEDUCED), not the rules' words: R54 writes bits 0 to 15, R57 and R58
write `a[15] == 1`, R67 case 4 writes 0xA000-0xBFFF and 0x0A, and the model reads the field in the number's place:
`SHIFT_BITS` clock pulses in `ShiftOut`; chip select exactly from `EXT_BASE` on; the five cases of R67; the writes of
the pseudo-commands and of `PROG`'s bank select; the addresses of blob bytes and of the checksum. -/
def Obligations.RulesReadTheConfiguration : Prop :=
  (∀ (c : Cfg) (p : Pins) (a : Addr), p.sclk = false →
      serAtEdges p (shiftEvents c a) = (List.range c.shiftBits).map (fun k => a.getLsbD k))
    ∧ (∀ (c : Cfg) (a : Addr) (d v : Byte),
        (Event.set .csN false ∈ writeEvents c a d ↔ c.extBase ≤ a)
          ∧ (Event.set .csN false ∈ readEvents c a v ↔ c.extBase ≤ a))
    ∧ (∀ (c : Cfg) (k : Access) (a : Addr) (ramenSh bankSh : Option Byte), violates c k a ramenSh bankSh = true ↔
        (∃ d : Byte, k = .write d ∧ a = c.ctrlRamen ∧ d ≠ c.enableCode ∧ d ≠ c.disableCode)
          ∨ (∃ d : Byte, k = .write d ∧ a = c.ctrlBank ∧ c.nbanks ≤ d.toNat)
          ∨ (k = .read ∧ (a = c.ctrlRamen ∨ a = c.ctrlBank))
          ∨ ((c.ramBase ≤ a ∧ a < c.ramLimit)
              ∧ ¬ (ramenSh = some c.enableCode ∧ ∃ n : Byte, bankSh = some n ∧ n.toNat < c.nbanks))
          ∨ (a ≠ c.ctrlRamen ∧ a ≠ c.ctrlBank ∧ ¬ (c.ramBase ≤ a ∧ a < c.ramLimit)))
    ∧ (∀ (s : State) (n : Byte), s.pins.dir = .output →
        (∃ t : State, exec .ramen s = .next t ∧ t.ramenSh = some s.cfg.enableCode
            ∧ EmittedBetween s t (writeEvents s.cfg s.cfg.ctrlRamen s.cfg.enableCode))
          ∧ (∃ t : State, exec .ramdis s = .next t ∧ t.ramenSh = some s.cfg.disableCode
              ∧ EmittedBetween s t (writeEvents s.cfg s.cfg.ctrlRamen s.cfg.disableCode))
          ∧ (∃ t : State, exec (.selbank n) s = .next t ∧ t.bankSh = some n
              ∧ EmittedBetween s t (writeEvents s.cfg s.cfg.ctrlBank n)))
    ∧ (∀ (s : State) (k : Byte) (b : Blob), s.pins.dir = .output → s.cfg.blobs[k.toNat]? = some b →
        ∃ t : State, exec (.prog k) s = .next t
          ∧ EmittedBetween s t (writeEvents s.cfg s.cfg.ctrlBank b.bank
              ++ b.bytes.zipIdx.flatMap
                  (fun x => writeEvents s.cfg (s.cfg.ramBase + b.offset + BitVec.ofNat 16 x.2) x.1)))
    ∧ (∀ s : State, s.bankSh = some s.cfg.chkBank →
        ∃ (t : State) (vs : List Byte), exec .chksum s = .next t ∧ vs.length = s.cfg.chkEnd - s.cfg.chkStart
          ∧ EmittedBetween s t ([.dir .input]
              ++ ((List.range' s.cfg.chkStart (s.cfg.chkEnd - s.cfg.chkStart)).zip vs).flatMap
                  (fun x => readEvents s.cfg (s.cfg.ramBase + BitVec.ofNat 16 x.1) x.2)
              ++ [.dir .output]
              ++ writeEvents s.cfg (s.cfg.ramBase + BitVec.ofNat 16 s.cfg.chkWrite) (s.cfg.chkInit - byteSum vs)))

/-- Invariant: every step leaves the lines at rest (R59 'every cycle ends with'). -/
def Obligations.StepKeepsLinesAtRest : Prop :=
  ∀ s t : State, LinesAtRest s → step s = .next t → LinesAtRest t

/-- R100, R102, R103: no step, `PROG` and `CHKSUM` included, has a moment with a bus hazard: whenever a strobe is
low the address is on the bus, the clock is low, chip select follows the window, the other strobe is high, and the
block drives the data lines exactly in a write. -/
def Obligations.NoStepHasABusHazard : Prop :=
  ∀ s t : State, HasHardwareConstants s.cfg → LinesAtRest s → step s = .next t →
    ∃ es : List Event, EmittedBetween s t es ∧ BusSafeAlong s.pins es

/-- R19, R66: in every step the shadows become the last byte a bus recorder sees written to their control address,
whichever command wrote it. -/
def Obligations.ShadowsAreLastControlWrites : Prop :=
  ∀ s t : State, HasHardwareConstants s.cfg → LinesAtRest s → step s = .next t →
    ∃ es : List Event, EmittedBetween s t es
      ∧ t.ramenSh = lastWriteTo 0x0000 s.ramenSh (recordBus s.pins es)
      ∧ t.bankSh = lastWriteTo 0x4000 s.bankSh (recordBus s.pins es)

/-- Invariant: the shadows agree with the latches of the reference target, so that the precondition the monitor
checks over the block's own state is the one the target applies (R44, R67). -/
def Obligations.StepKeepsShadowsAgreeing : Prop :=
  ∀ s t : State, HasHardwareConstants s.cfg ∧ LinesAtRest s ∧ ShadowsAgree s → step s = .next t →
    HasHardwareConstants t.cfg ∧ LinesAtRest t ∧ ShadowsAgree t

/-- Invariant: the reference target's memory keeps its canonical form. -/
def Obligations.StepKeepsMemoryCanonical : Prop :=
  ∀ s t : State, MemoryCanonical s → step s = .next t → MemoryCanonical t

/-- Invariant: mode, halts on the trace, fault record and pending check agree (R25, R82, R88). -/
def Obligations.StepKeepsSequencerAgreeing : Prop :=
  ∀ s t : State, SequencerAgrees s → step s = .next t → SequencerAgrees t

/-- Invariant: a checked configuration stays checked, and `BAD_BLOB_INDEX` is never raised under it (R86, derived
from R79). -/
def Obligations.CheckedConfigurationNeverBadBlob : Prop :=
  ∀ s t : State, ConfigChecked s ∧ (s.cfg.cfgValidate = true → s.fcode ≠ 0x06) → step s = .next t →
    ConfigChecked t ∧ (t.cfg.cfgValidate = true → t.fcode ≠ 0x06)

/-- The invariants hold at reset. The lines, the shadows, the fault record and the trace are R27's. What is the model's:
the constants of R9 are in the reset state because it holds the reference configuration (log 21, DESIGN CHOICE), the
memory is canonical because it lists nothing over opaque draws (log 6, DESIGN CHOICE), and ConfigChecked, with
SequencerAgrees' last clause, speaks of the bit checkPending, set at reset (log 3, DESIGN CHOICE). -/
def Obligations.InvariantsHoldAtReset : Prop :=
  HasHardwareConstants State.reset.cfg ∧ LinesAtRest State.reset ∧ ShadowsAgree State.reset ∧ MemoryCanonical State.reset
    ∧ SequencerAgrees State.reset ∧ ConfigChecked State.reset ∧ State.reset.fcode ≠ 0x06

/-- R82: a run has ended well exactly when `MODE = DONE`. -/
def Obligations.EndsWellExactlyInDone : Prop :=
  ∀ s : State, SequencerAgrees s → (EndedWell s ↔ s.mode = .done)

/-- R30, R32: the windows of the bus space in numbers, and the control addresses outside both. -/
def Obligations.AddressWindows : Prop :=
  ∀ (c : Cfg) (a : Addr), HasHardwareConstants c → (extended c a = true ↔ 0x8000 ≤ a.toNat)
    ∧ (inRamWindow c a = true ↔ 0xA000 ≤ a.toNat ∧ a.toNat ≤ 0xBFFF)
    ∧ (inRamWindow c a = true → extended c a = true)
    ∧ (isControl c a = true ↔ a = 0x0000 ∨ a = 0x4000) ∧ (isControl c a = true → extended c a = false)

/-- R27's last row, R43, R98 'nothing persists across runs': a reset forgets everything of the run before it. Two states
with the same parameters (R16), the read oracle's choices among them, and the same run number are one state after it,
whatever else they held. The reference target is drawn anew:
latches and RAM are the opaque draws of the next run, whatever the run before wrote and whatever a test's start state
fixed. No step draws it again. The run's number and the answers that stay are the model's form of the draws (logs 6,
7, 16). -/
def Obligations.NothingPersistsAcrossReset : Prop :=
  (∀ s u : State, u.cfg = s.cfg → u.program = s.program → u.oracle = s.oracle → u.inputs = s.inputs →
      u.draws = s.draws → u.target.run = s.target.run → hardReset u = hardReset s)
    ∧ (∀ s : State, (hardReset s).target.run = s.target.run + 1
        ∧ (hardReset s).target.ten = Config.tenAtStart (s.target.run + 1)
        ∧ (hardReset s).target.tbank = Config.tbankAtStart (s.target.run + 1)
        ∧ ∀ loc : Nat, (hardReset s).target.byteAt loc = Config.tramAtStart (s.target.run + 1) loc)
    ∧ (∀ s t : State, step s = .next t → t.target.run = s.target.run)

/-- The invariants hold after a reset of any state, so of every run and not of the first alone. The constants of R9 stay
those of the configuration, a parameter (R16); what else is the model's is as in InvariantsHoldAtReset (logs 3, 6, 16). -/
def Obligations.InvariantsHoldAfterAnyReset : Prop :=
  ∀ s : State, (HasHardwareConstants s.cfg → HasHardwareConstants (hardReset s).cfg) ∧ LinesAtRest (hardReset s)
    ∧ ShadowsAgree (hardReset s) ∧ MemoryCanonical (hardReset s) ∧ SequencerAgrees (hardReset s)
    ∧ ConfigChecked (hardReset s) ∧ (hardReset s).fcode ≠ 0x06
end

