-- ==== Sys2Proof/Laws/Assembler.lean ====
section
/-! SUPPORT. What the assembler of 30_encoding.md R51 answers, said once: a number printed in either base is read back,
a line gives exactly the word of the command read from it, a program exactly the words of its lines. -/

namespace Sys2Proof.Machine

/-! ## Numbers -/

/-- Every digit character of a base of at most 16 has its value. -/
theorem digitValue_digitChar {base d : Nat} (hb : base ≤ 16) (hd : d < base) :
    digitValue base (Nat.digitChar d) = some d := by
  have h : d < 16 := by omega
  unfold digitValue
  interval_cases d <;> simp [Nat.digitChar] <;> omega

/-- Digits are read one after another. -/
theorem readDigits_append (base acc : Nat) (xs ys : List Char) :
    readDigits base acc (xs ++ ys) = (readDigits base acc xs).bind (fun n => readDigits base n ys) := by
  induction xs generalizing acc with
  | nil => rfl
  | cons c xs ih =>
    rw [List.cons_append, readDigits, readDigits]
    cases digitValue base c with
    | none => rfl
    | some v => exact ih _

/-- A printed number is read back. -/
theorem readDigits_toDigits {base : Nat} (h1 : 1 < base) (hb : base ≤ 16) (n : Nat) :
    readDigits base 0 (Nat.toDigits base n) = some n := by
  induction n using Nat.strongRecOn with
  | _ n ih =>
    by_cases hn : n < base
    · rw [Nat.toDigits_of_lt_base hn, readDigits, digitValue_digitChar hb hn]
      simp [readDigits]
    · rw [Nat.toDigits_of_base_le h1 (by omega), readDigits_append, ih _ (Nat.div_lt_self (by omega) h1)]
      simp only [Option.bind_some, readDigits, digitValue_digitChar hb (Nat.mod_lt n (by omega))]
      rw [Nat.mul_comm, Nat.div_add_mod]

theorem toDigits_ne_nil {base : Nat} (h1 : 1 < base) (n : Nat) : Nat.toDigits base n ≠ [] := by
  by_cases hn : n < base
  · rw [Nat.toDigits_of_lt_base hn]; simp
  · rw [Nat.toDigits_of_base_le h1 (by omega)]; simp

/-- Digits of a decimal number never start with `0x`. -/
theorem readNumber_of_readDigits {cs : List Char} {n : Nat} (hne : cs ≠ []) (h : readDigits 10 0 cs = some n) :
    readNumber cs = some n := by
  have hx : digitValue 10 'x' = none := by decide
  have h0 : ∀ ds, readDigits 10 0 ('0' :: 'x' :: ds) = none := by
    intro ds
    have : digitValue 10 '0' = some 0 := by decide
    rw [readDigits, this]
    simp only [readDigits, hx]
  unfold readNumber
  split
  · exact absurd rfl hne
  · rw [h0] at h; cases h
  · rw [h0] at h; cases h
  · exact h

/-- A number printed in decimal is read back (R51). -/
theorem readNumber_decimal (n : Nat) : readNumber (Nat.toDigits 10 n) = some n :=
  readNumber_of_readDigits (toDigits_ne_nil (by omega) n) (readDigits_toDigits (by omega) (by omega) n)

/-- A number printed in hexadecimal after `0x` is read back (R51). -/
theorem readNumber_hex (n : Nat) : readNumber ('0' :: 'x' :: Nat.toDigits 16 n) = some n := by
  have h := toDigits_ne_nil (base := 16) (by omega) n
  have h1 := readDigits_toDigits (base := 16) (by omega) (by omega) n
  generalize Nat.toDigits 16 n = ds at h h1
  cases ds with
  | nil => exact absurd rfl h
  | cons d ds => exact h1

/-! ## Lines and programs -/

/-- Only a well-formed command has an instruction. -/
theorem wellFormed_of_toInstr {c : AsmCmd} {i : Instr} (h : toInstr c = some i) : c.wellFormed = true := by
  unfold toInstr at h
  split at h
  · assumption
  · cases h

/-- A line gives a word exactly as the encoding of the command read from it. -/
theorem assembleLine_ok {line : List Char} {w : Word} : assembleLine line = .ok (some w) ↔
    trimBlanks (line.takeWhile (fun c => c != ';')) ≠ []
      ∧ ∃ (c : AsmCmd) (i : Instr), readCommand (trimBlanks (line.takeWhile (fun c => c != ';'))) = .ok c
        ∧ c.wellFormed = true ∧ toInstr c = some i ∧ encode i = w := by
  unfold assembleLine
  generalize trimBlanks (line.takeWhile (fun c => c != ';')) = cs
  by_cases hcs : cs = []
  · simp [hcs]
  · simp only [ne_eq, hcs, not_false_eq_true, true_and, if_false]
    cases hc : readCommand cs with
    | error e => simp
    | ok c =>
      cases hi : toInstr c with
      | none =>
        simp only [hi, reduceCtorEq, false_iff]
        rintro ⟨c', i, h1, -, h2, -⟩
        cases h1
        rw [hi] at h2
        cases h2
      | some i =>
        simp only [hi, Except.ok.injEq, Option.some.injEq]
        constructor
        · exact fun h => ⟨c, i, rfl, wellFormed_of_toInstr hi, hi, h⟩
        · rintro ⟨c', i', h1, -, h2, h3⟩
          subst h1
          rw [hi] at h2
          cases h2
          exact h3

/-- A line whose command is not well formed is refused. -/
theorem assembleLine_badOperands {line : List Char} {c : AsmCmd}
    (h : trimBlanks (line.takeWhile (fun c => c != ';')) ≠ [])
    (hc : readCommand (trimBlanks (line.takeWhile (fun c => c != ';'))) = .ok c) (hw : c.wellFormed = false) :
    assembleLine line = .error .badOperands := by
  have hi : toInstr c = none := by unfold toInstr; rw [hw]; rfl
  unfold assembleLine
  simp [h, hc, hi]

/-- A program is accepted exactly when each of its lines is, and gives their words in order. -/
theorem assemble_ok {lines : List (List Char)} {ws : List Word} : assemble lines = .ok ws ↔
    ∃ rs : List (Option Word), lines.map assembleLine = rs.map .ok ∧ ws = rs.reduceOption := by
  induction lines generalizing ws with
  | nil =>
    constructor
    · intro h; cases h; exact ⟨[], rfl, rfl⟩
    · rintro ⟨rs, h1, rfl⟩
      obtain rfl := List.map_eq_nil_iff.1 h1.symm
      rfl
  | cons l rest ih =>
    rw [assemble]
    cases hl : assembleLine l with
    | error e =>
      simp only [reduceCtorEq, false_iff]
      rintro ⟨rs, h1, -⟩
      cases rs with
      | nil => cases h1
      | cons r rs => rw [List.map_cons, List.map_cons, hl] at h1; cases h1
    | ok r =>
      cases hr : assemble rest with
      | error e =>
        have hno : ¬ ∃ rs : List (Option Word), (l :: rest).map assembleLine = rs.map .ok ∧ ws = rs.reduceOption := by
          rintro ⟨rs, h1, -⟩
          cases rs with
          | nil => cases h1
          | cons r' rs =>
            rw [List.map_cons, List.map_cons] at h1
            have := ih.2 ⟨rs, (List.cons.inj h1).2, rfl⟩
            rw [hr] at this
            cases this
        cases r <;> simp only [reduceCtorEq, false_iff] <;> exact hno
      | ok us =>
        have key : (∃ rs : List (Option Word), (l :: rest).map assembleLine = rs.map .ok ∧ ws = rs.reduceOption)
            ↔ ws = (r :: []).reduceOption ++ us := by
          constructor
          · rintro ⟨rs, h1, rfl⟩
            cases rs with
            | nil => cases h1
            | cons r' rs =>
              rw [List.map_cons, List.map_cons, hl] at h1
              obtain ⟨e1, e2⟩ := List.cons.inj h1
              cases e1
              have := ih.2 ⟨rs, e2, rfl⟩
              rw [hr] at this
              cases this
              cases r <;> simp
          · rintro rfl
            obtain ⟨rs, h1, rfl⟩ := ih.1 hr
            refine ⟨r :: rs, by rw [List.map_cons, List.map_cons, hl, h1], ?_⟩
            cases r <;> simp
        rw [key]
        cases r <;> simp [eq_comm]

end Sys2Proof.Machine
end

