-- ==== Sys2Proof/Laws/Memory.lean ====
section
/-! SUPPORT. The laws of the reference target's memory: what a read after a write gives, and that every operation
keeps the canonical form. -/

namespace Sys2Proof.Machine

/-! ## Listing and looking up -/

theorem Memory.risingFrom_mono {lo lo' : Nat} {m : Memory} (h : Memory.risingFrom lo m = true) (hl : lo' ≤ lo) :
    Memory.risingFrom lo' m = true := by
  cases m with
  | nil => rfl
  | cons c m =>
    simp only [Memory.risingFrom, Bool.and_eq_true, decide_eq_true_eq] at h ⊢
    exact ⟨by omega, h.2⟩

theorem Memory.get?_below {lo loc : Nat} {m : Memory} (h : Memory.risingFrom lo m = true) (hl : loc < lo) :
    Memory.get? m loc = none := by
  induction m generalizing lo with
  | nil => rfl
  | cons c m ih =>
    simp only [Memory.risingFrom, Bool.and_eq_true, decide_eq_true_eq] at h
    rw [Memory.get?, if_neg (by omega)]
    exact ih h.2 (by omega)

@[simp] theorem Memory.get?_insert_same (m : Memory) (loc : Nat) (v : Byte) :
    Memory.get? (Memory.insert m loc v) loc = some v := by
  induction m with
  | nil => simp [Memory.insert, Memory.get?]
  | cons c m ih =>
    simp only [Memory.insert]
    split
    · simp [Memory.get?, show ¬ c.1 = loc by omega, ih]
    · split <;> simp [Memory.get?]

theorem Memory.get?_insert_other {m : Memory} {loc loc' : Nat} {v : Byte} (h : loc' ≠ loc) :
    Memory.get? (Memory.insert m loc v) loc' = Memory.get? m loc' := by
  induction m with
  | nil => simp [Memory.insert, Memory.get?, Ne.symm h]
  | cons c m ih =>
    simp only [Memory.insert]
    split
    · simp [Memory.get?, ih]
    · split
      · simp [Memory.get?, Ne.symm h, show ¬ c.1 = loc' by omega]
      · simp [Memory.get?, Ne.symm h]

theorem Memory.get?_erase_same {lo loc : Nat} {m : Memory} (h : Memory.risingFrom lo m = true) :
    Memory.get? (Memory.erase m loc) loc = none := by
  induction m generalizing lo with
  | nil => rfl
  | cons c m ih =>
    simp only [Memory.risingFrom, Bool.and_eq_true, decide_eq_true_eq] at h
    simp only [Memory.erase]
    split
    · exact Memory.get?_below h.2 (by omega)
    · rw [Memory.get?, if_neg ‹_›]; exact ih h.2

theorem Memory.get?_erase_other {m : Memory} {loc loc' : Nat} (h : loc' ≠ loc) :
    Memory.get? (Memory.erase m loc) loc' = Memory.get? m loc' := by
  induction m with
  | nil => rfl
  | cons c m ih =>
    simp only [Memory.erase]
    split
    · simp [Memory.get?, show ¬ c.1 = loc' by omega]
    · simp [Memory.get?, ih]

/-! ## The canonical form is kept -/

theorem Memory.risingFrom_insert {lo loc : Nat} {m : Memory} {v : Byte} (h : Memory.risingFrom lo m = true)
    (hl : lo ≤ loc) : Memory.risingFrom lo (Memory.insert m loc v) = true := by
  induction m generalizing lo with
  | nil => simp [Memory.insert, Memory.risingFrom, hl]
  | cons c m ih =>
    simp only [Memory.risingFrom, Bool.and_eq_true, decide_eq_true_eq] at h
    simp only [Memory.insert]
    split
    · simp [Memory.risingFrom, h.1, ih h.2 (by omega)]
    · split
      · have : c.1 = loc := ‹_›
        simp [Memory.risingFrom, ← this, h]
      · simp [Memory.risingFrom, hl, show loc + 1 ≤ c.1 by omega, h.2]

theorem Memory.risingFrom_erase {lo loc : Nat} {m : Memory} (h : Memory.risingFrom lo m = true) :
    Memory.risingFrom lo (Memory.erase m loc) = true := by
  induction m generalizing lo with
  | nil => rfl
  | cons c m ih =>
    simp only [Memory.risingFrom, Bool.and_eq_true, decide_eq_true_eq] at h
    simp only [Memory.erase]
    split
    · exact Memory.risingFrom_mono h.2 (by omega)
    · simp [Memory.risingFrom, h.1, ih h.2]

theorem Memory.mem_insert {m : Memory} {loc : Nat} {v : Byte} {c : Host.Cell}
    (h : c ∈ Memory.insert m loc v) : c ∈ m ∨ c = (loc, v) := by
  induction m with
  | nil => simpa [Memory.insert] using h
  | cons b m ih =>
    simp only [Memory.insert] at h
    split at h
    · rcases List.mem_cons.1 h with h | h
      · simp [h]
      · rcases ih h with h | h <;> simp [h]
    · split at h
      · rcases List.mem_cons.1 h with h | h <;> simp [h]
      · rcases List.mem_cons.1 h with h | h
        · exact .inr h
        · exact .inl h

theorem Memory.mem_erase {m : Memory} {loc : Nat} {c : Host.Cell} (h : c ∈ Memory.erase m loc) : c ∈ m := by
  induction m with
  | nil => simp [Memory.erase] at h
  | cons b m ih =>
    simp only [Memory.erase] at h
    split at h
    · exact .tail _ h
    · rcases List.mem_cons.1 h with h | h
      · simp [h]
      · exact .tail _ (ih h)

theorem Memory.wf_iff {fill : Option Byte} {m : Memory} :
    Memory.wf fill m = true ↔ Memory.risingFrom 0 m = true ∧
      ∀ c ∈ m, c.1 < Config.nbanks * Config.bankSize ∧ fill ≠ some c.2 := by
  simp [Memory.wf, List.all_eq_true]

/-- A write inside the banks keeps the canonical form. -/
theorem Memory.wf_write {fill : Option Byte} {m : Memory} {loc : Nat} {v : Byte} (h : Memory.wf fill m = true)
    (hl : loc < Config.nbanks * Config.bankSize) : Memory.wf fill (Memory.write fill m loc v) = true := by
  rw [Memory.wf_iff] at h ⊢
  unfold Memory.write
  split
  · exact ⟨Memory.risingFrom_erase h.1, fun c hc => h.2 c (Memory.mem_erase hc)⟩
  · refine ⟨Memory.risingFrom_insert h.1 (Nat.zero_le _), fun c hc => ?_⟩
    rcases Memory.mem_insert hc with hc | rfl
    · exact h.2 c hc
    · exact ⟨hl, ‹_›⟩

/-! ## Reading the target's memory -/

theorem ramBase_toNat : Config.ramBase.toNat = 40960 := by decide

/-- The target's window in numbers. -/
theorem inTargetWindow_iff {a : Addr} : inTargetWindow a = true ↔ 40960 ≤ a.toNat ∧ a.toNat < 49152 := by
  rw [inTargetWindow, Bool.and_eq_true, decide_eq_true_iff, decide_eq_true_iff]
  rfl

/-- A location of an existing bank lies inside the four banks. -/
theorem ramLocation_lt {b : Byte} {a : Addr} (hb : b.toNat < Config.nbanks) (ha : inTargetWindow a = true) :
    ramLocation b (targetOffset a) < Config.nbanks * Config.bankSize := by
  rw [inTargetWindow_iff] at ha
  have hr : targetOffset a = a.toNat - 40960 := by rw [targetOffset, ramBase_toNat]
  have hn : Config.nbanks = 4 := rfl
  have hs : Config.bankSize = 8192 := rfl
  rw [ramLocation, hr, hs]
  rw [hn] at hb ⊢
  omega

/-- When an access reaches RAM, and where (R44, R45). -/
theorem Target.location_eq_some {t : Target} {csN : Bool} {a : Addr} {loc : Nat} :
    t.location csN a = some loc ↔ inTargetWindow a = true ∧ csN = false ∧ t.ten = some Config.enableCode ∧
      ∃ b, t.tbank = some b ∧ b.toNat < Config.nbanks ∧ loc = ramLocation b (targetOffset a) := by
  unfold Target.location
  split
  · rename_i hw
    simp only [Bool.and_eq_true, Bool.not_eq_true', beq_iff_eq] at hw
    cases ht : t.tbank with
    | none => simp
    | some b =>
      by_cases hb : b.toNat < Config.nbanks
      · simp [hb, hw, eq_comm]
      · simp [hb]
  · rename_i hw
    simp only [Bool.and_eq_true, Bool.not_eq_true', beq_iff_eq] at hw
    constructor
    · intro h; cases h
    · intro h; exact absurd ⟨⟨h.1, h.2.1⟩, h.2.2.1⟩ hw

/-- The location an access reaches lies inside the four banks. -/
theorem Target.location_lt {t : Target} {csN : Bool} {a : Addr} {loc : Nat} (h : t.location csN a = some loc) :
    loc < Config.nbanks * Config.bankSize := by
  have ⟨ha, _, _, b, _, hb, hl⟩ := Target.location_eq_some.1 h
  exact hl ▸ ramLocation_lt hb ha

/-- After a write, the byte written is read at its location. -/
theorem Target.byteAt_write_same {t : Target} {loc : Nat} {d : Byte} (h : Memory.wf t.fill t.tram = true) :
    Target.byteAt { t with tram := Memory.write t.fill t.tram loc d } loc = d := by
  unfold Target.byteAt Memory.write
  split
  · simp only at *
    split at *
    · rename_i v hf hv
      rw [Memory.get?_erase_same (Memory.wf_iff.1 h).1] at hv
      cases hv
    · simp_all
  · rename_i hv
    simp only at hv ⊢
    split at hv
    · rename_i hf
      simp [hf]
    · simp at hv

/-- After a write, every other location reads as before. -/
theorem Target.byteAt_write_other {t : Target} {loc loc' : Nat} {d : Byte} (h : loc' ≠ loc) :
    Target.byteAt { t with tram := Memory.write t.fill t.tram loc d } loc' = t.byteAt loc' := by
  have : Memory.get? (Memory.write t.fill t.tram loc d) loc' = Memory.get? t.tram loc' := by
    unfold Memory.write
    split
    · exact Memory.get?_erase_other h
    · exact Memory.get?_insert_other h
  simp [Target.byteAt, this]

/-- What a store to the reference target does to its memory's form. -/
theorem Target.store_wf {t : Target} {csN : Bool} {a : Addr} {d : Byte} (h : Memory.wf t.fill t.tram = true) :
    Memory.wf (t.store csN a d).fill (t.store csN a d).tram = true := by
  unfold Target.store
  split
  · exact h
  · split
    · exact h
    · split
      · exact Memory.wf_write h (Target.location_lt ‹_›)
      · exact h

@[simp] theorem Target.store_fill (t : Target) (csN : Bool) (a : Addr) (d : Byte) : (t.store csN a d).fill = t.fill := by
  unfold Target.store
  split
  · rfl
  · split
    · rfl
    · split <;> rfl

@[simp] theorem Target.store_run (t : Target) (csN : Bool) (a : Addr) (d : Byte) : (t.store csN a d).run = t.run := by
  unfold Target.store
  split
  · rfl
  · split
    · rfl
    · split <;> rfl

/-- A store keeps every byte but the one at the location it reaches. -/
theorem Target.byteAt_store_other {t : Target} {csN : Bool} {a : Addr} {d : Byte} {loc : Nat}
    (h : t.location csN a ≠ some loc) : (t.store csN a d).byteAt loc = t.byteAt loc := by
  unfold Target.store
  split
  · rfl
  · split
    · rfl
    · split
      · rename_i l hl
        exact Target.byteAt_write_other (fun e => h (by rw [hl, e]))
      · rfl

end Sys2Proof.Machine
end

