-- ==== Sys2Proof/Laws/Operands.lean ====
section
/-! SUPPORT. The address windows in numbers under the constants of this hardware, the locations that RAM-relative
addresses reach, and the monitor's cases. -/

namespace Sys2Proof.Machine

/-- The reference configuration has the constants of this hardware. -/
theorem reference_hardware : HasHardwareConstants Config.reference :=
  ⟨rfl, rfl, rfl, rfl, rfl, rfl, rfl, rfl, rfl, rfl, rfl, rfl⟩

/-! ## Windows -/

/-- The extended window in numbers (20_memory.md R30). -/
theorem extended_eq_decide {c : Cfg} (hc : HasHardwareConstants c) (a : Addr) : extended c a = decide (0x8000 ≤ a) := by
  rw [extended, hc.extBase]

theorem extended_iff {c : Cfg} (hc : HasHardwareConstants c) {a : Addr} : extended c a = true ↔ 32768 ≤ a.toNat := by
  rw [extended_eq_decide hc, decide_eq_true_iff, BitVec.le_def]
  rfl

theorem not_extended_eq_decide {c : Cfg} (hc : HasHardwareConstants c) (a : Addr) :
    (!extended c a) = decide (a < 0x8000) := by
  rw [extended_eq_decide hc, ← decide_not]
  exact decide_eq_decide.2 BitVec.not_le

/-- The extended window is bit 15 (R30, 41_bus_cycle.md R57). -/
theorem extended_eq_bit15 {c : Cfg} (hc : HasHardwareConstants c) (a : Addr) : extended c a = a.getLsbD 15 := by
  have h := a.isLt
  rw [Bool.eq_iff_iff, extended_iff hc, BitVec.getLsbD, Nat.testBit_eq_decide_div_mod_eq, decide_eq_true_iff]
  omega

/-- The block's RAM window is the target's (R32, R44). -/
theorem inRamWindow_eq {c : Cfg} (hc : HasHardwareConstants c) (a : Addr) : inRamWindow c a = inTargetWindow a := by
  rw [inRamWindow, hc.ramBase, hc.ramLimit]
  rfl

theorem isControl_iff {c : Cfg} (hc : HasHardwareConstants c) {a : Addr} :
    isControl c a = true ↔ a = 0x0000 ∨ a = 0x4000 := by
  simp [isControl, hc.ctrlRamen, hc.ctrlBank]

/-- A RAM-window address is in the extended window. -/
theorem extended_of_inTargetWindow {c : Cfg} (hc : HasHardwareConstants c) {a : Addr} (h : inTargetWindow a = true) :
    extended c a = true := by
  rw [inTargetWindow_iff] at h
  rw [extended_iff hc]
  omega

/-- A RAM-window address is no control address. -/
theorem not_control_of_inTargetWindow {a : Addr} (h : inTargetWindow a = true) : a ≠ 0x0000 ∧ a ≠ 0x4000 := by
  rw [inTargetWindow_iff] at h
  constructor
  · rintro rfl; exact absurd h (by decide)
  · rintro rfl; exact absurd h (by decide)

/-! ## RAM-relative addresses -/

/-- An address `o` past `RAM_BASE` inside the bank window: it is in the RAM window at offset `o`. -/
theorem toNat_ramRelative {c : Cfg} (hc : HasHardwareConstants c) {o : Nat} (h : o < 8192) :
    (ramRelative c o).toNat = 40960 + o := by
  rw [ramRelative, hc.ramBase, BitVec.toNat_add, BitVec.toNat_ofNat]
  have : (0xA000 : Addr).toNat = 40960 := rfl
  omega

theorem inTargetWindow_ramRelative {c : Cfg} (hc : HasHardwareConstants c) {o : Nat} (h : o < 8192) :
    inTargetWindow (ramRelative c o) = true := by
  rw [inTargetWindow_iff, toNat_ramRelative hc h]
  omega

theorem targetOffset_ramRelative {c : Cfg} (hc : HasHardwareConstants c) {o : Nat} (h : o < 8192) :
    targetOffset (ramRelative c o) = o := by
  rw [targetOffset, ramBase_toNat, toNat_ramRelative hc h]
  omega

/-- A blob byte's address is `RAM_BASE` plus its offset in the bank (42_protocol.md R71). -/
theorem blobAddr_eq_ramRelative (c : Cfg) (off : Addr) (j : Nat) : blobAddr c off j = ramRelative c (off.toNat + j) := by
  apply BitVec.eq_of_toNat_eq
  simp only [blobAddr, ramRelative, BitVec.toNat_add, BitVec.toNat_ofNat]
  omega

/-- Where an access inside the bank window lands, RAM enabled and bank `b` latched at the target. -/
theorem Target.location_ramRelative {c : Cfg} (hc : HasHardwareConstants c) {t : Target} {b : Byte} {o : Nat}
    (ho : o < 8192) (hb : b.toNat < 4) (ht : t.ten = some Config.enableCode) (htb : t.tbank = some b) :
    t.location (!extended c (ramRelative c o)) (ramRelative c o) = some (b.toNat * 8192 + o) := by
  have hw := inTargetWindow_ramRelative hc ho
  rw [Target.location_eq_some]
  refine ⟨hw, ?_, ht, b, htb, hb, ?_⟩
  · rw [extended_of_inTargetWindow hc hw]; rfl
  · rw [targetOffset_ramRelative hc ho]; rfl

/-- A store inside the bank window, RAM enabled and bank `b` latched at the target (20_memory.md R44). -/
theorem Target.store_ramRelative {c : Cfg} (hc : HasHardwareConstants c) {t : Target} {b : Byte} {o : Nat} {d : Byte}
    (ho : o < 8192) (hb : b.toNat < 4) (ht : t.ten = some Config.enableCode) (htb : t.tbank = some b) :
    t.store (!extended c (ramRelative c o)) (ramRelative c o) d
      = { t with tram := Memory.write t.fill t.tram (b.toNat * 8192 + o) d } := by
  have hn := not_control_of_inTargetWindow (inTargetWindow_ramRelative hc ho)
  rw [Target.store, if_neg (show ¬ _ = Config.ctrlRamen from hn.1), if_neg (show ¬ _ = Config.ctrlBank from hn.2),
    Target.location_ramRelative hc ho hb ht htb]

/-! ## The monitor (42_protocol.md R65-R67) -/

/-- 'Enabled, bank n' in numbers (R65). -/
theorem ramOpen_iff {c : Cfg} (hc : HasHardwareConstants c) {ramenSh bankSh : Option Byte} :
    ramOpen c ramenSh bankSh = true ↔ ramenSh = some 0x0A ∧ ∃ n : Byte, bankSh = some n ∧ n.toNat < 4 := by
  unfold ramOpen
  cases ramenSh with
  | none => cases bankSh <;> simp
  | some x =>
    cases bankSh with
    | none => simp
    | some y =>
      rw [Bool.and_eq_true, beq_iff_eq, decide_eq_true_iff, hc.enableCode, hc.nbanks]
      simp

/-- The five cases of R67, the first three together. -/
theorem violates_iff {c : Cfg} {k : Access} {a : Addr} {ramenSh bankSh : Option Byte} :
    violates c k a ramenSh bankSh = true ↔ violatesControl c k a = true
      ∨ (inRamWindow c a = true ∧ ¬ ramOpen c ramenSh bankSh = true)
      ∨ (¬ isControl c a = true ∧ ¬ inRamWindow c a = true) := by
  simp [violates, or_assoc]

/-- An access inside the bank window is no violation while RAM is open (R67). -/
theorem violates_ramRelative {c : Cfg} (hc : HasHardwareConstants c) {k : Access} {o : Nat} {rs bs : Option Byte}
    (ho : o < 8192) (h : ramOpen c rs bs = true) : violates c k (ramRelative c o) rs bs = false := by
  have hw := inTargetWindow_ramRelative hc ho
  have hn := not_control_of_inTargetWindow hw
  have h1 : (ramRelative c o == c.ctrlRamen) = false := by rw [hc.ctrlRamen]; exact beq_false_of_ne hn.1
  have h2 : (ramRelative c o == c.ctrlBank) = false := by rw [hc.ctrlBank]; exact beq_false_of_ne hn.2
  cases k <;> simp [violates, violatesControl, isControl, inRamWindow_eq hc, hw, h1, h2, h]

/-- A write to a control address is a violation only by its data (R68-R70). -/
theorem violates_write_control {c : Cfg} (hc : HasHardwareConstants c) {a : Addr} (h : isControl c a = true) (d : Byte)
    (ramenSh bankSh : Option Byte) : violates c (.write d) a ramenSh bankSh = violatesControl c (.write d) a := by
  have hw : inRamWindow c a = false := by
    rw [inRamWindow_eq hc]
    rcases (isControl_iff hc).1 h with rfl | rfl <;> rfl
  simp [violates, h, hw]

/-- A bank select is a violation exactly for a bank that does not exist (R67 case 2, R70). -/
theorem violatesControl_bank {c : Cfg} (hc : HasHardwareConstants c) (n : Byte) :
    violatesControl c (.write n) c.ctrlBank = decide (4 ≤ n.toNat) := by
  have h : (c.ctrlBank == c.ctrlRamen) = false := by rw [hc.ctrlBank, hc.ctrlRamen]; rfl
  simp only [violatesControl, h, beq_self_eq_true, Bool.true_and, Bool.false_and, Bool.false_or, hc.nbanks]

/-- The enable and disable codes are no violation (R68, R69). -/
theorem violatesControl_ramen {c : Cfg} (hc : HasHardwareConstants c) :
    violatesControl c (.write c.enableCode) c.ctrlRamen = false
      ∧ violatesControl c (.write c.disableCode) c.ctrlRamen = false := by
  have h : (c.ctrlRamen == c.ctrlBank) = false := by rw [hc.ctrlBank, hc.ctrlRamen]; rfl
  simp [violatesControl, h]

end Sys2Proof.Machine
end

