-- ==== Sys2Proof/Laws/State.lean ====
section
/-! SUPPORT. One lemma per field for each shared update of State, each true by rfl, so that no later proof unfolds a
record update. -/

namespace Sys2Proof.Machine

/-! ## `emit` -/

@[simp] theorem emit_pins (e : Event) (s : State) : (emit e s).pins = s.pins.apply e := rfl
@[simp] theorem emit_rdata (e : Event) (s : State) : (emit e s).rdata = s.rdata := rfl
@[simp] theorem emit_acc (e : Event) (s : State) : (emit e s).acc = s.acc := rfl
@[simp] theorem emit_ramenSh (e : Event) (s : State) : (emit e s).ramenSh = s.ramenSh := rfl
@[simp] theorem emit_bankSh (e : Event) (s : State) : (emit e s).bankSh = s.bankSh := rfl
@[simp] theorem emit_pv (e : Event) (s : State) : (emit e s).pv = s.pv := rfl
@[simp] theorem emit_cp (e : Event) (s : State) : (emit e s).cp = s.cp := rfl
@[simp] theorem emit_mode (e : Event) (s : State) : (emit e s).mode = s.mode := rfl
@[simp] theorem emit_fcode (e : Event) (s : State) : (emit e s).fcode = s.fcode := rfl
@[simp] theorem emit_fcp (e : Event) (s : State) : (emit e s).fcp = s.fcp := rfl
@[simp] theorem emit_fword (e : Event) (s : State) : (emit e s).fword = s.fword := rfl
@[simp] theorem emit_trace (e : Event) (s : State) : (emit e s).trace = e :: s.trace := rfl
@[simp] theorem emit_cfg (e : Event) (s : State) : (emit e s).cfg = s.cfg := rfl
@[simp] theorem emit_program (e : Event) (s : State) : (emit e s).program = s.program := rfl
@[simp] theorem emit_checkPending (e : Event) (s : State) : (emit e s).checkPending = s.checkPending := rfl
@[simp] theorem emit_target (e : Event) (s : State) : (emit e s).target = Target.observe s.pins s.target e := rfl
@[simp] theorem emit_oracle (e : Event) (s : State) : (emit e s).oracle = s.oracle := rfl
@[simp] theorem emit_inputs (e : Event) (s : State) : (emit e s).inputs = s.inputs := rfl
@[simp] theorem emit_draws (e : Event) (s : State) : (emit e s).draws = s.draws := rfl

/-! ## `advance` -/

@[simp] theorem advance_pins (s : State) : (advance s).pins = s.pins := rfl
@[simp] theorem advance_rdata (s : State) : (advance s).rdata = s.rdata := rfl
@[simp] theorem advance_acc (s : State) : (advance s).acc = s.acc := rfl
@[simp] theorem advance_ramenSh (s : State) : (advance s).ramenSh = s.ramenSh := rfl
@[simp] theorem advance_bankSh (s : State) : (advance s).bankSh = s.bankSh := rfl
@[simp] theorem advance_pv (s : State) : (advance s).pv = s.pv := rfl
@[simp] theorem advance_cp (s : State) : (advance s).cp = s.cp + 1 := rfl
@[simp] theorem advance_mode (s : State) : (advance s).mode = s.mode := rfl
@[simp] theorem advance_fcode (s : State) : (advance s).fcode = s.fcode := rfl
@[simp] theorem advance_fcp (s : State) : (advance s).fcp = s.fcp := rfl
@[simp] theorem advance_fword (s : State) : (advance s).fword = s.fword := rfl
@[simp] theorem advance_trace (s : State) : (advance s).trace = s.trace := rfl
@[simp] theorem advance_cfg (s : State) : (advance s).cfg = s.cfg := rfl
@[simp] theorem advance_program (s : State) : (advance s).program = s.program := rfl
@[simp] theorem advance_checkPending (s : State) : (advance s).checkPending = s.checkPending := rfl
@[simp] theorem advance_target (s : State) : (advance s).target = s.target := rfl
@[simp] theorem advance_oracle (s : State) : (advance s).oracle = s.oracle := rfl
@[simp] theorem advance_inputs (s : State) : (advance s).inputs = s.inputs := rfl
@[simp] theorem advance_draws (s : State) : (advance s).draws = s.draws := rfl

/-! ## `monitor` -/

@[simp] theorem monitor_pins (k : Access) (a : Addr) (s : State) : (monitor k a s).pins = s.pins := rfl
@[simp] theorem monitor_rdata (k : Access) (a : Addr) (s : State) : (monitor k a s).rdata = s.rdata := rfl
@[simp] theorem monitor_acc (k : Access) (a : Addr) (s : State) : (monitor k a s).acc = s.acc := rfl
@[simp] theorem monitor_ramenSh (k : Access) (a : Addr) (s : State) : (monitor k a s).ramenSh = shadowAfter s.cfg.ctrlRamen k a s.ramenSh := rfl
@[simp] theorem monitor_bankSh (k : Access) (a : Addr) (s : State) : (monitor k a s).bankSh = shadowAfter s.cfg.ctrlBank k a s.bankSh := rfl
@[simp] theorem monitor_pv (k : Access) (a : Addr) (s : State) : (monitor k a s).pv = (s.pv || violates s.cfg k a s.ramenSh s.bankSh) := rfl
@[simp] theorem monitor_cp (k : Access) (a : Addr) (s : State) : (monitor k a s).cp = s.cp := rfl
@[simp] theorem monitor_mode (k : Access) (a : Addr) (s : State) : (monitor k a s).mode = s.mode := rfl
@[simp] theorem monitor_fcode (k : Access) (a : Addr) (s : State) : (monitor k a s).fcode = s.fcode := rfl
@[simp] theorem monitor_fcp (k : Access) (a : Addr) (s : State) : (monitor k a s).fcp = s.fcp := rfl
@[simp] theorem monitor_fword (k : Access) (a : Addr) (s : State) : (monitor k a s).fword = s.fword := rfl
@[simp] theorem monitor_trace (k : Access) (a : Addr) (s : State) : (monitor k a s).trace = s.trace := rfl
@[simp] theorem monitor_cfg (k : Access) (a : Addr) (s : State) : (monitor k a s).cfg = s.cfg := rfl
@[simp] theorem monitor_program (k : Access) (a : Addr) (s : State) : (monitor k a s).program = s.program := rfl
@[simp] theorem monitor_checkPending (k : Access) (a : Addr) (s : State) : (monitor k a s).checkPending = s.checkPending := rfl
@[simp] theorem monitor_target (k : Access) (a : Addr) (s : State) : (monitor k a s).target = s.target := rfl
@[simp] theorem monitor_oracle (k : Access) (a : Addr) (s : State) : (monitor k a s).oracle = s.oracle := rfl
@[simp] theorem monitor_inputs (k : Access) (a : Addr) (s : State) : (monitor k a s).inputs = s.inputs := rfl
@[simp] theorem monitor_draws (k : Access) (a : Addr) (s : State) : (monitor k a s).draws = s.draws := rfl

/-! ## `raiseFault` -/

@[simp] theorem raiseFault_pins (f : FaultCode) (w : Word) (s : State) : (raiseFault f w s).pins = s.pins := rfl
@[simp] theorem raiseFault_rdata (f : FaultCode) (w : Word) (s : State) : (raiseFault f w s).rdata = s.rdata := rfl
@[simp] theorem raiseFault_acc (f : FaultCode) (w : Word) (s : State) : (raiseFault f w s).acc = s.acc := rfl
@[simp] theorem raiseFault_ramenSh (f : FaultCode) (w : Word) (s : State) : (raiseFault f w s).ramenSh = s.ramenSh := rfl
@[simp] theorem raiseFault_bankSh (f : FaultCode) (w : Word) (s : State) : (raiseFault f w s).bankSh = s.bankSh := rfl
@[simp] theorem raiseFault_pv (f : FaultCode) (w : Word) (s : State) : (raiseFault f w s).pv = s.pv := rfl
@[simp] theorem raiseFault_cp (f : FaultCode) (w : Word) (s : State) : (raiseFault f w s).cp = s.cp := rfl
@[simp] theorem raiseFault_mode (f : FaultCode) (w : Word) (s : State) : (raiseFault f w s).mode = .fault := rfl
@[simp] theorem raiseFault_fcode (f : FaultCode) (w : Word) (s : State) : (raiseFault f w s).fcode = f.code := rfl
@[simp] theorem raiseFault_fcp (f : FaultCode) (w : Word) (s : State) : (raiseFault f w s).fcp = s.cp := rfl
@[simp] theorem raiseFault_fword (f : FaultCode) (w : Word) (s : State) : (raiseFault f w s).fword = w := rfl
@[simp] theorem raiseFault_trace (f : FaultCode) (w : Word) (s : State) : (raiseFault f w s).trace = .halt .fault :: s.trace := rfl
@[simp] theorem raiseFault_cfg (f : FaultCode) (w : Word) (s : State) : (raiseFault f w s).cfg = s.cfg := rfl
@[simp] theorem raiseFault_program (f : FaultCode) (w : Word) (s : State) : (raiseFault f w s).program = s.program := rfl
@[simp] theorem raiseFault_checkPending (f : FaultCode) (w : Word) (s : State) : (raiseFault f w s).checkPending = s.checkPending := rfl
@[simp] theorem raiseFault_target (f : FaultCode) (w : Word) (s : State) : (raiseFault f w s).target = s.target := rfl
@[simp] theorem raiseFault_oracle (f : FaultCode) (w : Word) (s : State) : (raiseFault f w s).oracle = s.oracle := rfl
@[simp] theorem raiseFault_inputs (f : FaultCode) (w : Word) (s : State) : (raiseFault f w s).inputs = s.inputs := rfl
@[simp] theorem raiseFault_draws (f : FaultCode) (w : Word) (s : State) : (raiseFault f w s).draws = s.draws := rfl

/-! ## `enterPanic` -/

@[simp] theorem enterPanic_pins (s : State) : (enterPanic s).pins = s.pins := rfl
@[simp] theorem enterPanic_rdata (s : State) : (enterPanic s).rdata = s.rdata := rfl
@[simp] theorem enterPanic_acc (s : State) : (enterPanic s).acc = s.acc := rfl
@[simp] theorem enterPanic_ramenSh (s : State) : (enterPanic s).ramenSh = s.ramenSh := rfl
@[simp] theorem enterPanic_bankSh (s : State) : (enterPanic s).bankSh = s.bankSh := rfl
@[simp] theorem enterPanic_pv (s : State) : (enterPanic s).pv = s.pv := rfl
@[simp] theorem enterPanic_cp (s : State) : (enterPanic s).cp = s.cp := rfl
@[simp] theorem enterPanic_mode (s : State) : (enterPanic s).mode = .panic := rfl
@[simp] theorem enterPanic_fcode (s : State) : (enterPanic s).fcode = s.fcode := rfl
@[simp] theorem enterPanic_fcp (s : State) : (enterPanic s).fcp = s.fcp := rfl
@[simp] theorem enterPanic_fword (s : State) : (enterPanic s).fword = s.fword := rfl
@[simp] theorem enterPanic_trace (s : State) : (enterPanic s).trace = .halt .panic :: s.trace := rfl
@[simp] theorem enterPanic_cfg (s : State) : (enterPanic s).cfg = s.cfg := rfl
@[simp] theorem enterPanic_program (s : State) : (enterPanic s).program = s.program := rfl
@[simp] theorem enterPanic_checkPending (s : State) : (enterPanic s).checkPending = s.checkPending := rfl
@[simp] theorem enterPanic_target (s : State) : (enterPanic s).target = s.target := rfl
@[simp] theorem enterPanic_oracle (s : State) : (enterPanic s).oracle = s.oracle := rfl
@[simp] theorem enterPanic_inputs (s : State) : (enterPanic s).inputs = s.inputs := rfl
@[simp] theorem enterPanic_draws (s : State) : (enterPanic s).draws = s.draws := rfl

/-! ## `hardReset` -/

@[simp] theorem hardReset_pins (s : State) : (hardReset s).pins = Pins.afterReset (s.target.run + 1) := rfl
@[simp] theorem hardReset_rdata (s : State) : (hardReset s).rdata = none := rfl
@[simp] theorem hardReset_acc (s : State) : (hardReset s).acc = none := rfl
@[simp] theorem hardReset_ramenSh (s : State) : (hardReset s).ramenSh = none := rfl
@[simp] theorem hardReset_bankSh (s : State) : (hardReset s).bankSh = none := rfl
@[simp] theorem hardReset_pv (s : State) : (hardReset s).pv = false := rfl
@[simp] theorem hardReset_cp (s : State) : (hardReset s).cp = 0 := rfl
@[simp] theorem hardReset_mode (s : State) : (hardReset s).mode = .run := rfl
@[simp] theorem hardReset_fcode (s : State) : (hardReset s).fcode = 0 := rfl
@[simp] theorem hardReset_fcp (s : State) : (hardReset s).fcp = 0 := rfl
@[simp] theorem hardReset_fword (s : State) : (hardReset s).fword = 0 := rfl
@[simp] theorem hardReset_trace (s : State) : (hardReset s).trace = [] := rfl
@[simp] theorem hardReset_cfg (s : State) : (hardReset s).cfg = s.cfg := rfl
@[simp] theorem hardReset_program (s : State) : (hardReset s).program = s.program := rfl
@[simp] theorem hardReset_checkPending (s : State) : (hardReset s).checkPending = true := rfl
@[simp] theorem hardReset_target (s : State) : (hardReset s).target = Target.atStart (s.target.run + 1) := rfl
@[simp] theorem hardReset_oracle (s : State) : (hardReset s).oracle = s.oracle := rfl
@[simp] theorem hardReset_inputs (s : State) : (hardReset s).inputs = s.inputs := rfl
@[simp] theorem hardReset_draws (s : State) : (hardReset s).draws = s.draws := rfl

/-! ## Lines: one lemma per event -/

@[simp] theorem Pins.apply_set (p : Pins) (l : Line) (v : Bool) : p.apply (.set l v) = p.setLine l v := rfl
@[simp] theorem Pins.apply_drive (p : Pins) (d : Byte) : p.apply (.drive d) = { p with dOut := d } := rfl
@[simp] theorem Pins.apply_dir (p : Pins) (x : Dir) : p.apply (.dir x) = { p with dir := x } := rfl
@[simp] theorem Pins.apply_delay (p : Pins) (n : Nat) : p.apply (.delay n) = p := rfl
@[simp] theorem Pins.apply_sample (p : Pins) (v : Byte) : p.apply (.sample v) = p := rfl
@[simp] theorem Pins.apply_halt (p : Pins) (m : Mode) : p.apply (.halt m) = p := rfl

@[simp] theorem Pins.setLine_ser (p : Pins) (v : Bool) : p.setLine .ser v = { p with ser := v } := rfl
@[simp] theorem Pins.setLine_oe (p : Pins) (v : Bool) : p.setLine .oe v = { p with oe := v } := rfl
@[simp] theorem Pins.setLine_wrN (p : Pins) (v : Bool) : p.setLine .wrN v = { p with wrN := v } := rfl
@[simp] theorem Pins.setLine_rdN (p : Pins) (v : Bool) : p.setLine .rdN v = { p with rdN := v } := rfl
@[simp] theorem Pins.setLine_csN (p : Pins) (v : Bool) : p.setLine .csN v = { p with csN := v } := rfl
@[simp] theorem Pins.setLine_led (p : Pins) (v : Bool) : p.setLine .led v = { p with led := v } := rfl

@[simp] theorem Pins.applyAll_nil (p : Pins) : p.applyAll [] = p := rfl
@[simp] theorem Pins.applyAll_cons (p : Pins) (e : Event) (es : List Event) :
    p.applyAll (e :: es) = (p.apply e).applyAll es := rfl

@[simp] theorem Target.observeAll_nil (p : Pins) (t : Target) : Target.observeAll p t [] = t := rfl
@[simp] theorem Target.observeAll_cons (p : Pins) (t : Target) (e : Event) (es : List Event) :
    Target.observeAll p t (e :: es) = Target.observeAll (p.apply e) (Target.observe p t e) es := rfl

@[simp] theorem recordBus_nil (p : Pins) : recordBus p [] = [] := rfl
@[simp] theorem recordBus_cons (p : Pins) (e : Event) (es : List Event) :
    recordBus p (e :: es) = recordEvent p e ++ recordBus (p.apply e) es := rfl

end Sys2Proof.Machine
end

