-- ==== Sys2Proof/Laws/Ops.lean ====
section
/-! SUPPORT. One lemma for each shared operation that says everything it does: emitting a list of events, the
address shifter, the two bus cycles, sampling. -/

namespace Sys2Proof.Machine

/-! ## Emitting a list of events -/

/-- Everything `emitAll` does: the trace grows, the lines and the reference target follow the events. -/
theorem emitAll_eq (es : List Event) (s : State) :
    emitAll es s = { s with
      trace := es.reverse ++ s.trace
      pins := s.pins.applyAll es
      target := Target.observeAll s.pins s.target es } := by
  induction es generalizing s with
  | nil => rfl
  | cons e es ih =>
    have : emitAll (e :: es) s = emitAll es (emit e s) := rfl
    rw [this, ih]
    simp

@[simp] theorem emitAll_trace (es : List Event) (s : State) : (emitAll es s).trace = es.reverse ++ s.trace := by
  rw [emitAll_eq]
@[simp] theorem emitAll_pins (es : List Event) (s : State) : (emitAll es s).pins = s.pins.applyAll es := by
  rw [emitAll_eq]
@[simp] theorem emitAll_target (es : List Event) (s : State) :
    (emitAll es s).target = Target.observeAll s.pins s.target es := by
  rw [emitAll_eq]
@[simp] theorem emitAll_rdata (es : List Event) (s : State) : (emitAll es s).rdata = s.rdata := by
  rw [emitAll_eq]
@[simp] theorem emitAll_acc (es : List Event) (s : State) : (emitAll es s).acc = s.acc := by
  rw [emitAll_eq]
@[simp] theorem emitAll_ramenSh (es : List Event) (s : State) : (emitAll es s).ramenSh = s.ramenSh := by
  rw [emitAll_eq]
@[simp] theorem emitAll_bankSh (es : List Event) (s : State) : (emitAll es s).bankSh = s.bankSh := by
  rw [emitAll_eq]
@[simp] theorem emitAll_pv (es : List Event) (s : State) : (emitAll es s).pv = s.pv := by
  rw [emitAll_eq]
@[simp] theorem emitAll_cp (es : List Event) (s : State) : (emitAll es s).cp = s.cp := by
  rw [emitAll_eq]
@[simp] theorem emitAll_mode (es : List Event) (s : State) : (emitAll es s).mode = s.mode := by
  rw [emitAll_eq]
@[simp] theorem emitAll_fcode (es : List Event) (s : State) : (emitAll es s).fcode = s.fcode := by
  rw [emitAll_eq]
@[simp] theorem emitAll_fcp (es : List Event) (s : State) : (emitAll es s).fcp = s.fcp := by
  rw [emitAll_eq]
@[simp] theorem emitAll_fword (es : List Event) (s : State) : (emitAll es s).fword = s.fword := by
  rw [emitAll_eq]
@[simp] theorem emitAll_cfg (es : List Event) (s : State) : (emitAll es s).cfg = s.cfg := by
  rw [emitAll_eq]
@[simp] theorem emitAll_program (es : List Event) (s : State) : (emitAll es s).program = s.program := by
  rw [emitAll_eq]
@[simp] theorem emitAll_checkPending (es : List Event) (s : State) : (emitAll es s).checkPending = s.checkPending := by
  rw [emitAll_eq]
@[simp] theorem emitAll_oracle (es : List Event) (s : State) : (emitAll es s).oracle = s.oracle := by
  rw [emitAll_eq]
@[simp] theorem emitAll_inputs (es : List Event) (s : State) : (emitAll es s).inputs = s.inputs := by
  rw [emitAll_eq]
@[simp] theorem emitAll_draws (es : List Event) (s : State) : (emitAll es s).draws = s.draws := by
  rw [emitAll_eq]

theorem Pins.applyAll_append (p : Pins) (xs ys : List Event) :
    p.applyAll (xs ++ ys) = (p.applyAll xs).applyAll ys := List.foldl_append

theorem Target.observeAll_append (p : Pins) (t : Target) (xs ys : List Event) :
    Target.observeAll p t (xs ++ ys) = Target.observeAll (p.applyAll xs) (Target.observeAll p t xs) ys := by
  induction xs generalizing p t with
  | nil => rfl
  | cons e xs ih => simp [ih]

theorem recordBus_append (p : Pins) (xs ys : List Event) :
    recordBus p (xs ++ ys) = recordBus p xs ++ recordBus (p.applyAll xs) ys := by
  induction xs generalizing p with
  | nil => rfl
  | cons e xs ih => simp [ih]

/-- An event that is no rising write strobe shows the target nothing. -/
def quiet (e : Event) : Bool :=
  match e with
  | .set .wrN v => !v
  | .sample _ => false
  | .set .ser _ => true
  | .set .sclk _ => true
  | .set .oe _ => true
  | .set .rdN _ => true
  | .set .csN _ => true
  | .set .led _ => true
  | .drive _ => true
  | .dir _ => true
  | .delay _ => true
  | .halt _ => true

theorem Target.observe_quiet (p : Pins) (t : Target) {e : Event} (h : quiet e = true) : Target.observe p t e = t := by
  cases e with
  | set l v => cases l <;> cases v <;> simp_all [quiet, Target.observe]
  | sample => rfl
  | drive => rfl
  | dir => rfl
  | delay => rfl
  | halt => rfl

theorem Target.observeAll_quiet (p : Pins) (t : Target) {es : List Event} (h : es.all quiet = true) :
    Target.observeAll p t es = t := by
  induction es generalizing p t with
  | nil => rfl
  | cons e es ih =>
    simp only [List.all_cons, Bool.and_eq_true] at h
    rw [Target.observeAll_cons, Target.observe_quiet p t h.1, ih _ _ h.2]

theorem recordBus_quiet (p : Pins) {es : List Event} (h : es.all quiet = true) : recordBus p es = [] := by
  induction es generalizing p with
  | nil => rfl
  | cons e es ih =>
    simp only [List.all_cons, Bool.and_eq_true] at h
    rw [recordBus_cons, ih _ h.2]
    cases e with
    | set l v => cases l <;> cases v <;> simp_all [quiet, recordEvent]
    | sample => simp [quiet] at h
    | drive => rfl
    | dir => rfl
    | delay => rfl
    | halt => rfl

/-! ## The address shifter -/

/-- Bits of an address after `k` pulses of `ShiftOut(a)` from `p` (R23, R54). -/
theorem shiftIn_sixteen (a sr : Addr) :
    (List.range 16).foldl (fun r i => shiftIn (a.getLsbD i) r) sr = a := by
  ext i hi
  simp only [List.range, List.range.loop, List.foldl, shiftIn]
  rw [← BitVec.getLsbD_eq_getElem, ← BitVec.getLsbD_eq_getElem]
  simp only [BitVec.getLsbD_append, BitVec.getLsbD_extractLsb', BitVec.getLsbD_ofBool]
  have : i < 16 := hi
  interval_cases i <;> simp

/-- One bit's three events, the clock low before them. -/
theorem Pins.applyAll_shiftBit {p : Pins} (h : p.sclk = false) (a : Addr) (i : Nat) :
    p.applyAll (shiftBit a i) = { p with ser := a.getLsbD i, sr := shiftIn (a.getLsbD i) p.sr } := by
  cases p
  simp_all [shiftBit, Pins.setLine]

/-- Any list of bits, the clock low before them. -/
theorem Pins.applyAll_shiftBits {p : Pins} (h : p.sclk = false) (a : Addr) (is : List Nat) :
    p.applyAll (is.flatMap (shiftBit a)) =
      { p with
        ser := is.foldl (fun _ i => a.getLsbD i) p.ser
        sr := is.foldl (fun r i => shiftIn (a.getLsbD i) r) p.sr } := by
  induction is generalizing p with
  | nil => rfl
  | cons i is ih =>
    rw [List.flatMap_cons, Pins.applyAll_append, Pins.applyAll_shiftBit h, ih (by simpa using h)]
    rfl

/-- `SER` after the pulses of `ShiftOut(a)`. -/
def serAfter (c : Cfg) (a : Addr) (ser : Bool) : Bool :=
  (List.range c.shiftBits).foldl (fun _ i => a.getLsbD i) ser

/-- `SR` after the pulses of `ShiftOut(a)`. -/
def srAfter (c : Cfg) (a sr : Addr) : Addr := (List.range c.shiftBits).foldl (fun r i => shiftIn (a.getLsbD i) r) sr

/-- With sixteen pulses `SER` ends as the top bit of the address. -/
theorem serAfter_eq {c : Cfg} (hc : HasHardwareConstants c) (a : Addr) (ser : Bool) :
    serAfter c a ser = a.getLsbD 15 := by
  rw [serAfter, hc.shiftBits]
  rfl

/-- With sixteen pulses `SR` ends as the address. -/
theorem srAfter_eq {c : Cfg} (hc : HasHardwareConstants c) (a sr : Addr) : srAfter c a sr = a := by
  rw [srAfter, hc.shiftBits, shiftIn_sixteen]

/-- Everything `ShiftOut(a)` does to the lines (R54), the clock low before it, whatever `SHIFT_BITS`. -/
theorem Pins.applyAll_shiftEvents_cfg {p : Pins} (h : p.sclk = false) (c : Cfg) (a : Addr) :
    p.applyAll (shiftEvents c a) = { p with ser := serAfter c a p.ser, oe := true, sr := srAfter c a p.sr } := by
  rw [shiftEvents, Pins.applyAll_append, Pins.applyAll_append]
  have h0 : ({ p with oe := false } : Pins).sclk = false := h
  have h1 : p.applyAll [.set .oe false] = { p with oe := false } := rfl
  rw [h1, Pins.applyAll_shiftBits h0]
  rfl

/-- Everything `ShiftOut(a)` does to the lines (R54, R55), the clock low before it. -/
theorem Pins.applyAll_shiftEvents {p : Pins} {c : Cfg} (hc : HasHardwareConstants c) (h : p.sclk = false) (a : Addr) :
    p.applyAll (shiftEvents c a) = { p with ser := a.getLsbD 15, oe := true, sr := a } := by
  rw [Pins.applyAll_shiftEvents_cfg h, serAfter_eq hc, srAfter_eq hc]

theorem shiftEvents_quiet (c : Cfg) (a : Addr) : (shiftEvents c a).all quiet = true := by
  simp [shiftEvents, shiftBit, quiet, List.all_flatMap]

theorem shiftEvents_length {c : Cfg} (hc : HasHardwareConstants c) (a : Addr) : (shiftEvents c a).length = 50 := by
  simp [shiftEvents, shiftBit, hc.shiftBits, List.length_flatMap]

theorem selectEvents_quiet (c : Cfg) (a : Addr) (v : Bool) : (selectEvents c a v).all quiet = true := by
  unfold selectEvents; split <;> rfl

theorem selectEvents_length (c : Cfg) (a : Addr) (v : Bool) :
    (selectEvents c a v).length = if extended c a then 1 else 0 := by
  unfold selectEvents; split <;> rfl

/-! ## The write cycle -/

/-- The lines just before a strobe: at rest but for chip select, the address on the bus. -/
theorem Pins.applyAll_select {p : Pins} (h : p.AtRest) (c : Cfg) (a : Addr) :
    p.applyAll (idleEvents ++ shiftEvents c a ++ selectEvents c a false)
      = { p with ser := serAfter c a p.ser, sr := srAfter c a p.sr, csN := !extended c a } := by
  obtain ⟨hw, hr, hc, hs, ho⟩ := h
  rw [Pins.applyAll_append, Pins.applyAll_append]
  have h1 : p.applyAll idleEvents = p := by cases p; simp_all [idleEvents]
  rw [h1, Pins.applyAll_shiftEvents_cfg hs]
  unfold selectEvents
  cases p
  simp only at *
  split <;> simp_all

theorem Target.observeAll_select {p : Pins} (h : p.AtRest) (t : Target) (c : Cfg) (a : Addr) :
    Target.observeAll p t (idleEvents ++ shiftEvents c a ++ selectEvents c a false) = t := by
  obtain ⟨hw, -, -, -, -⟩ := h
  rw [Target.observeAll_append, Target.observeAll_append,
    Target.observeAll_quiet _ _ (selectEvents_quiet c a false), Target.observeAll_quiet _ _ (shiftEvents_quiet c a)]
  simp [idleEvents, Target.observe, hw]

theorem recordBus_select {p : Pins} (h : p.AtRest) (c : Cfg) (a : Addr) :
    recordBus p (idleEvents ++ shiftEvents c a ++ selectEvents c a false) = [] := by
  obtain ⟨hw, -, -, -, -⟩ := h
  rw [recordBus_append, recordBus_append, recordBus_quiet _ (selectEvents_quiet c a false),
    recordBus_quiet _ (shiftEvents_quiet c a)]
  simp [idleEvents, recordEvent, hw]

/-- What a write cycle leaves on the lines (R57), from lines at rest, whatever `SHIFT_BITS`. -/
theorem Pins.applyAll_writeEvents_cfg {p : Pins} (h : p.AtRest) (c : Cfg) (a : Addr) (d : Byte) :
    p.applyAll (writeEvents c a d) = { p with ser := serAfter c a p.ser, sr := srAfter c a p.sr, dOut := d } := by
  rw [writeEvents, Pins.applyAll_append, Pins.applyAll_append, Pins.applyAll_select h]
  obtain ⟨hw, hr, hc, hs, ho⟩ := h
  unfold selectEvents
  cases p
  simp only at *
  split <;> simp_all

/-- What a write cycle leaves on the lines (R57), from lines at rest. -/
theorem Pins.applyAll_writeEvents {p : Pins} {c : Cfg} (hc : HasHardwareConstants c) (h : p.AtRest) (a : Addr)
    (d : Byte) : p.applyAll (writeEvents c a d) = { p with ser := a.getLsbD 15, sr := a, dOut := d } := by
  rw [Pins.applyAll_writeEvents_cfg h, serAfter_eq hc, srAfter_eq hc]

/-- What a write cycle shows the reference target (R44), from lines at rest, whatever `SHIFT_BITS`. -/
theorem Target.observeAll_writeEvents_cfg {p : Pins} (h : p.AtRest) (t : Target) (c : Cfg) (a : Addr) (d : Byte) :
    Target.observeAll p t (writeEvents c a d)
      = match p.dir with
        | .output => t.store (!extended c a) (srAfter c a p.sr) d
        | .input => t := by
  rw [writeEvents, Target.observeAll_append, Target.observeAll_append, Pins.applyAll_select h,
    Target.observeAll_select h, Target.observeAll_quiet _ _ (selectEvents_quiet c a true)]
  obtain ⟨hw, hr, hc, hs, ho⟩ := h
  cases p
  simp only at *
  simp only [Target.observeAll_cons, Target.observeAll_nil, Target.observe, Target.latch, Pins.addr, Pins.driven,
    Pins.apply_drive, Pins.apply_set, Pins.setLine_wrN, Pins.apply_delay, ho]
  simp
  split <;> rename_i h1 h2 <;> split at h2 <;> simp_all

/-- What a write cycle shows the reference target (R44), from lines at rest. -/
theorem Target.observeAll_writeEvents {p : Pins} {c : Cfg} (hc : HasHardwareConstants c) (h : p.AtRest) (t : Target)
    (a : Addr) (d : Byte) : Target.observeAll p t (writeEvents c a d)
      = match p.dir with
        | .output => t.store (!extended c a) a d
        | .input => t := by
  rw [Target.observeAll_writeEvents_cfg h, srAfter_eq hc]

/-- What a write cycle shows the bus recorder, from lines at rest. -/
theorem recordBus_writeEvents {p : Pins} {c : Cfg} (hc : HasHardwareConstants c) (h : p.AtRest) (a : Addr) (d : Byte) :
    recordBus p (writeEvents c a d)
      = [.write (some a) (match p.dir with | .output => some d | .input => none)] := by
  rw [writeEvents, recordBus_append, recordBus_append, Pins.applyAll_select h, srAfter_eq hc,
    recordBus_select h, recordBus_quiet _ (selectEvents_quiet c a true)]
  obtain ⟨hw, hr, hc, hs, ho⟩ := h
  obtain ⟨_, _, _, _, _, _, _, dir, _, _⟩ := p
  simp only at ho
  cases dir <;> simp [recordEvent, Pins.addr, Pins.driven, ho]

theorem writeEvents_length {c : Cfg} (hc : HasHardwareConstants c) (a : Addr) (d : Byte) :
    (writeEvents c a d).length = if extended c a then 59 else 57 := by
  simp only [writeEvents, List.length_append, shiftEvents_length hc, selectEvents_length]
  split <;> rfl

@[simp] theorem busWrite_rdata (a : Addr) (d : Byte) (s : State) : (busWrite a d s).rdata = s.rdata := by
  simp [busWrite]
@[simp] theorem busWrite_acc (a : Addr) (d : Byte) (s : State) : (busWrite a d s).acc = s.acc := by
  simp [busWrite]
@[simp] theorem busWrite_cp (a : Addr) (d : Byte) (s : State) : (busWrite a d s).cp = s.cp := by
  simp [busWrite]
@[simp] theorem busWrite_mode (a : Addr) (d : Byte) (s : State) : (busWrite a d s).mode = s.mode := by
  simp [busWrite]
@[simp] theorem busWrite_fcode (a : Addr) (d : Byte) (s : State) : (busWrite a d s).fcode = s.fcode := by
  simp [busWrite]
@[simp] theorem busWrite_fcp (a : Addr) (d : Byte) (s : State) : (busWrite a d s).fcp = s.fcp := by
  simp [busWrite]
@[simp] theorem busWrite_fword (a : Addr) (d : Byte) (s : State) : (busWrite a d s).fword = s.fword := by
  simp [busWrite]
@[simp] theorem busWrite_cfg (a : Addr) (d : Byte) (s : State) : (busWrite a d s).cfg = s.cfg := by
  simp [busWrite]
@[simp] theorem busWrite_program (a : Addr) (d : Byte) (s : State) : (busWrite a d s).program = s.program := by
  simp [busWrite]
@[simp] theorem busWrite_checkPending (a : Addr) (d : Byte) (s : State) : (busWrite a d s).checkPending = s.checkPending := by
  simp [busWrite]
@[simp] theorem busWrite_oracle (a : Addr) (d : Byte) (s : State) : (busWrite a d s).oracle = s.oracle := by
  simp [busWrite]
@[simp] theorem busWrite_inputs (a : Addr) (d : Byte) (s : State) : (busWrite a d s).inputs = s.inputs := by
  simp [busWrite]
@[simp] theorem busWrite_draws (a : Addr) (d : Byte) (s : State) : (busWrite a d s).draws = s.draws := by
  simp [busWrite]

@[simp] theorem busWrite_trace (a : Addr) (d : Byte) (s : State) :
    (busWrite a d s).trace = (writeEvents s.cfg a d).reverse ++ s.trace := by
  simp [busWrite]

@[simp] theorem busWrite_pv (a : Addr) (d : Byte) (s : State) :
    (busWrite a d s).pv = (s.pv || violates s.cfg (.write d) a s.ramenSh s.bankSh) := by
  simp [busWrite]

@[simp] theorem busWrite_ramenSh (a : Addr) (d : Byte) (s : State) :
    (busWrite a d s).ramenSh = if a = s.cfg.ctrlRamen then some d else s.ramenSh := by
  simp [busWrite, shadowAfter]

@[simp] theorem busWrite_bankSh (a : Addr) (d : Byte) (s : State) :
    (busWrite a d s).bankSh = if a = s.cfg.ctrlBank then some d else s.bankSh := by
  simp [busWrite, shadowAfter]

theorem busWrite_pins {s : State} (hc : HasHardwareConstants s.cfg) (h : LinesAtRest s) (a : Addr) (d : Byte) :
    (busWrite a d s).pins = { s.pins with ser := a.getLsbD 15, sr := a, dOut := d } := by
  simp [busWrite, Pins.applyAll_writeEvents hc h]

theorem busWrite_target {s : State} (hc : HasHardwareConstants s.cfg) (h : LinesAtRest s) (ho : s.pins.dir = .output)
    (a : Addr) (d : Byte) : (busWrite a d s).target = s.target.store (!extended s.cfg a) a d := by
  simp [busWrite, Target.observeAll_writeEvents hc h, ho]

/-- Everything a write cycle does (R57, R44, R66), from lines at rest and `DIR = OUT`. -/
theorem busWrite_eq {s : State} (hc : HasHardwareConstants s.cfg) (h : LinesAtRest s) (ho : s.pins.dir = .output)
    (a : Addr) (d : Byte) : busWrite a d s = { s with
      pins := { s.pins with ser := a.getLsbD 15, sr := a, dOut := d }
      trace := (writeEvents s.cfg a d).reverse ++ s.trace
      target := s.target.store (!extended s.cfg a) a d
      pv := s.pv || violates s.cfg (.write d) a s.ramenSh s.bankSh
      ramenSh := if a = s.cfg.ctrlRamen then some d else s.ramenSh
      bankSh := if a = s.cfg.ctrlBank then some d else s.bankSh } := by
  rw [busWrite, emitAll_eq, Pins.applyAll_writeEvents hc h, Target.observeAll_writeEvents hc h]
  simp [monitor, shadowAfter, ho]

/-- A write cycle keeps the lines at rest. -/
theorem busWrite_rest {s : State} (h : LinesAtRest s) (a : Addr) (d : Byte) : LinesAtRest (busWrite a d s) := by
  unfold LinesAtRest at *
  simp only [busWrite, monitor_pins, emitAll_pins]
  rw [Pins.applyAll_writeEvents_cfg h]
  exact h

/-! ## Sampling and the read cycle -/

@[simp] theorem oracleByte_pins (s : State) : (oracleByte s).2.pins = s.pins := by
  unfold oracleByte draw; split <;> [rfl; (split <;> rfl)]
@[simp] theorem oracleByte_rdata (s : State) : (oracleByte s).2.rdata = s.rdata := by
  unfold oracleByte draw; split <;> [rfl; (split <;> rfl)]
@[simp] theorem oracleByte_acc (s : State) : (oracleByte s).2.acc = s.acc := by
  unfold oracleByte draw; split <;> [rfl; (split <;> rfl)]
@[simp] theorem oracleByte_ramenSh (s : State) : (oracleByte s).2.ramenSh = s.ramenSh := by
  unfold oracleByte draw; split <;> [rfl; (split <;> rfl)]
@[simp] theorem oracleByte_bankSh (s : State) : (oracleByte s).2.bankSh = s.bankSh := by
  unfold oracleByte draw; split <;> [rfl; (split <;> rfl)]
@[simp] theorem oracleByte_pv (s : State) : (oracleByte s).2.pv = s.pv := by
  unfold oracleByte draw; split <;> [rfl; (split <;> rfl)]
@[simp] theorem oracleByte_cp (s : State) : (oracleByte s).2.cp = s.cp := by
  unfold oracleByte draw; split <;> [rfl; (split <;> rfl)]
@[simp] theorem oracleByte_mode (s : State) : (oracleByte s).2.mode = s.mode := by
  unfold oracleByte draw; split <;> [rfl; (split <;> rfl)]
@[simp] theorem oracleByte_fcode (s : State) : (oracleByte s).2.fcode = s.fcode := by
  unfold oracleByte draw; split <;> [rfl; (split <;> rfl)]
@[simp] theorem oracleByte_fcp (s : State) : (oracleByte s).2.fcp = s.fcp := by
  unfold oracleByte draw; split <;> [rfl; (split <;> rfl)]
@[simp] theorem oracleByte_fword (s : State) : (oracleByte s).2.fword = s.fword := by
  unfold oracleByte draw; split <;> [rfl; (split <;> rfl)]
@[simp] theorem oracleByte_trace (s : State) : (oracleByte s).2.trace = s.trace := by
  unfold oracleByte draw; split <;> [rfl; (split <;> rfl)]
@[simp] theorem oracleByte_cfg (s : State) : (oracleByte s).2.cfg = s.cfg := by
  unfold oracleByte draw; split <;> [rfl; (split <;> rfl)]
@[simp] theorem oracleByte_program (s : State) : (oracleByte s).2.program = s.program := by
  unfold oracleByte draw; split <;> [rfl; (split <;> rfl)]
@[simp] theorem oracleByte_checkPending (s : State) : (oracleByte s).2.checkPending = s.checkPending := by
  unfold oracleByte draw; split <;> [rfl; (split <;> rfl)]
@[simp] theorem oracleByte_target (s : State) : (oracleByte s).2.target = s.target := by
  unfold oracleByte draw; split <;> [rfl; (split <;> rfl)]
@[simp] theorem oracleByte_oracle (s : State) : (oracleByte s).2.oracle = s.oracle := by
  unfold oracleByte draw; split <;> [rfl; (split <;> rfl)]

/-- The state in which a read cycle at `a` takes its sample. -/
def atSample (a : Addr) (s : State) : State := emitAll (readHead s.cfg a) s

theorem busRead_value (a : Addr) (s : State) : (busRead a s).1 = (oracleByte (atSample a s)).1 := by
  simp only [busRead, sample, atSample]

@[simp] theorem busRead_rdata (a : Addr) (s : State) : (busRead a s).2.rdata = s.rdata := by
  simp [busRead, sample]
@[simp] theorem busRead_acc (a : Addr) (s : State) : (busRead a s).2.acc = s.acc := by
  simp [busRead, sample]
@[simp] theorem busRead_cp (a : Addr) (s : State) : (busRead a s).2.cp = s.cp := by
  simp [busRead, sample]
@[simp] theorem busRead_mode (a : Addr) (s : State) : (busRead a s).2.mode = s.mode := by
  simp [busRead, sample]
@[simp] theorem busRead_fcode (a : Addr) (s : State) : (busRead a s).2.fcode = s.fcode := by
  simp [busRead, sample]
@[simp] theorem busRead_fcp (a : Addr) (s : State) : (busRead a s).2.fcp = s.fcp := by
  simp [busRead, sample]
@[simp] theorem busRead_fword (a : Addr) (s : State) : (busRead a s).2.fword = s.fword := by
  simp [busRead, sample]
@[simp] theorem busRead_cfg (a : Addr) (s : State) : (busRead a s).2.cfg = s.cfg := by
  simp [busRead, sample]
@[simp] theorem busRead_program (a : Addr) (s : State) : (busRead a s).2.program = s.program := by
  simp [busRead, sample]
@[simp] theorem busRead_checkPending (a : Addr) (s : State) : (busRead a s).2.checkPending = s.checkPending := by
  simp [busRead, sample]
@[simp] theorem busRead_oracle (a : Addr) (s : State) : (busRead a s).2.oracle = s.oracle := by
  simp [busRead, sample]

@[simp] theorem busRead_trace (a : Addr) (s : State) :
    (busRead a s).2.trace = (readEvents s.cfg a (busRead a s).1).reverse ++ s.trace := by
  simp [busRead, sample, readEvents]

@[simp] theorem busRead_pv (a : Addr) (s : State) :
    (busRead a s).2.pv = (s.pv || violates s.cfg .read a s.ramenSh s.bankSh) := by
  simp [busRead, sample]

@[simp] theorem busRead_ramenSh (a : Addr) (s : State) : (busRead a s).2.ramenSh = s.ramenSh := by
  simp [busRead, sample, shadowAfter]

@[simp] theorem busRead_bankSh (a : Addr) (s : State) : (busRead a s).2.bankSh = s.bankSh := by
  simp [busRead, sample, shadowAfter]

/-- The lines while a read at `a` is sampled. -/
theorem Pins.applyAll_readHead {p : Pins} (h : p.AtRest) (c : Cfg) (a : Addr) :
    p.applyAll (readHead c a)
      = { p with ser := serAfter c a p.ser, sr := srAfter c a p.sr, csN := !extended c a, rdN := false } := by
  rw [readHead, Pins.applyAll_append, Pins.applyAll_select h]
  simp

/-- What a read cycle leaves on the lines (R58), from lines at rest, whatever `SHIFT_BITS`. -/
theorem Pins.applyAll_readEvents_cfg {p : Pins} (h : p.AtRest) (c : Cfg) (a : Addr) (v : Byte) :
    p.applyAll (readEvents c a v) = { p with ser := serAfter c a p.ser, sr := srAfter c a p.sr } := by
  rw [readEvents, Pins.applyAll_append, Pins.applyAll_append, Pins.applyAll_readHead h, readTail]
  obtain ⟨hw, hr, hc, hs, ho⟩ := h
  unfold selectEvents
  cases p
  simp only at *
  split <;> simp_all

/-- What a read cycle leaves on the lines (R58), from lines at rest. -/
theorem Pins.applyAll_readEvents {p : Pins} {c : Cfg} (hc : HasHardwareConstants c) (h : p.AtRest) (a : Addr)
    (v : Byte) : p.applyAll (readEvents c a v) = { p with ser := a.getLsbD 15, sr := a } := by
  rw [Pins.applyAll_readEvents_cfg h, serAfter_eq hc, srAfter_eq hc]

/-- The target sees nothing in a read cycle (R44), whatever the address. -/
theorem Target.observeAll_readEvents {p : Pins} (h : p.AtRest) (t : Target) (c : Cfg) (a : Addr) (v : Byte) :
    Target.observeAll p t (readEvents c a v) = t := by
  have hq : ([Event.set .rdN false, .delay c.settle]).all quiet = true := rfl
  have hq' : (readTail c a).all quiet = true := by
    rw [readTail, List.all_append, selectEvents_quiet]; rfl
  rw [readEvents, readHead, Target.observeAll_append, Target.observeAll_append, Target.observeAll_append,
    Target.observeAll_select h, Target.observeAll_quiet _ _ hq, Target.observeAll_quiet _ _ hq']
  rfl

/-- What a read cycle shows the bus recorder, from lines at rest, whatever `SHIFT_BITS`. -/
theorem recordBus_readEvents_cfg {p : Pins} (h : p.AtRest) (c : Cfg) (a : Addr) (v : Byte) :
    recordBus p (readEvents c a v) = [.read (some (srAfter c a p.sr)) v] := by
  have hq : ([Event.set .rdN false, .delay c.settle]).all quiet = true := rfl
  have hq' : (readTail c a).all quiet = true := by
    rw [readTail, List.all_append, selectEvents_quiet]; rfl
  rw [readEvents, recordBus_append, recordBus_append, recordBus_quiet _ hq', Pins.applyAll_readHead h, readHead,
    recordBus_append, recordBus_select h, recordBus_quiet _ hq]
  simp [recordEvent, Pins.addr, h.2.2.2.2]

/-- What a read cycle shows the bus recorder, from lines at rest. -/
theorem recordBus_readEvents {p : Pins} {c : Cfg} (hc : HasHardwareConstants c) (h : p.AtRest) (a : Addr) (v : Byte) :
    recordBus p (readEvents c a v) = [.read (some a) v] := by
  rw [recordBus_readEvents_cfg h, srAfter_eq hc]

theorem readEvents_length {c : Cfg} (hc : HasHardwareConstants c) (a : Addr) (v : Byte) :
    (readEvents c a v).length = if extended c a then 59 else 57 := by
  simp only [readEvents, readHead, readTail, List.length_append, shiftEvents_length hc, selectEvents_length]
  split <;> rfl

/-- The lines and the target after a read cycle follow its events, whatever the lines. -/
theorem busRead_pins_eq (a : Addr) (s : State) :
    (busRead a s).2.pins = s.pins.applyAll (readEvents s.cfg a (busRead a s).1) := by
  simp [busRead, sample, readEvents, Pins.applyAll_append]

theorem busRead_target_eq (a : Addr) (s : State) :
    (busRead a s).2.target = Target.observeAll s.pins s.target (readEvents s.cfg a (busRead a s).1) := by
  simp [busRead, sample, readEvents, Target.observeAll_append]

theorem busRead_pins {s : State} (hc : HasHardwareConstants s.cfg) (h : LinesAtRest s) (a : Addr) :
    (busRead a s).2.pins = { s.pins with ser := a.getLsbD 15, sr := a } := by
  rw [busRead_pins_eq, Pins.applyAll_readEvents hc h]

theorem busRead_target {s : State} (h : LinesAtRest s) (a : Addr) : (busRead a s).2.target = s.target := by
  rw [busRead_target_eq, Target.observeAll_readEvents h]

/-- Everything a read cycle does but which byte it gives (R58, R66), from lines at rest. -/
theorem busRead_eq {s : State} (hc : HasHardwareConstants s.cfg) (h : LinesAtRest s) (a : Addr) :
    (busRead a s).2 = { s with
      pins := { s.pins with ser := a.getLsbD 15, sr := a }
      trace := (readEvents s.cfg a (busRead a s).1).reverse ++ s.trace
      pv := s.pv || violates s.cfg .read a s.ramenSh s.bankSh
      inputs := (busRead a s).2.inputs
      draws := (busRead a s).2.draws } := by
  have hp := busRead_pins hc h a
  have ht := busRead_target h a
  have htr := busRead_trace a s
  have hpv := busRead_pv a s
  have h1 := busRead_ramenSh a s
  have h2 := busRead_bankSh a s
  have h3 := busRead_rdata a s
  have h4 := busRead_acc a s
  have h5 := busRead_cp a s
  have h6 := busRead_mode a s
  have h7 := busRead_fcode a s
  have h8 := busRead_fcp a s
  have h9 := busRead_fword a s
  have h10 := busRead_cfg a s
  have h11 := busRead_program a s
  have h12 := busRead_checkPending a s
  have h13 := busRead_oracle a s
  cases hh : (busRead a s).2
  simp_all

/-- A read cycle as one value and one next state, the oracle's part left open. -/
theorem busRead_cases {s : State} (hc : HasHardwareConstants s.cfg) (h : LinesAtRest s) (a : Addr) :
    ∃ (v : Byte) (inp : List Byte) (dr : Nat), busRead a s = (v, { s with
      pins := { s.pins with ser := a.getLsbD 15, sr := a }
      trace := (readEvents s.cfg a v).reverse ++ s.trace
      pv := s.pv || violates s.cfg .read a s.ramenSh s.bankSh
      inputs := inp
      draws := dr }) :=
  ⟨(busRead a s).1, (busRead a s).2.inputs, (busRead a s).2.draws, Prod.ext rfl (busRead_eq hc h a)⟩

/-- A read cycle keeps the lines at rest. -/
theorem busRead_rest {s : State} (h : LinesAtRest s) (a : Addr) : LinesAtRest (busRead a s).2 := by
  unfold LinesAtRest at *
  rw [busRead_pins_eq, Pins.applyAll_readEvents_cfg h]
  exact h

/-- Who answers the sample of a read from lines at rest (R26, R45): the reference target where it is the oracle and
the address on the bus reaches its RAM, else a draw. -/
theorem busRead_oracle_cases {s : State} (hc : HasHardwareConstants s.cfg) (h : LinesAtRest s)
    (hi : s.pins.dir = .input) (a : Addr) :
    oracleByte (atSample a s) = match s.oracle, s.target.location (!extended s.cfg a) a with
      | .target, some loc => (s.target.byteAt loc, atSample a s)
      | .target, none => draw (atSample a s)
      | .free, _ => draw (atSample a s) := by
  have hp : (atSample a s).pins
      = { s.pins with ser := a.getLsbD 15, sr := a, csN := !extended s.cfg a, rdN := false } := by
    simp [atSample, Pins.applyAll_readHead h, serAfter_eq hc, srAfter_eq hc]
  have hq : ([Event.set .rdN false, .delay s.cfg.settle]).all quiet = true := rfl
  have htg : (atSample a s).target = s.target := by
    rw [atSample, emitAll_target, readHead, Target.observeAll_append, Target.observeAll_select h,
      Target.observeAll_quiet _ _ hq]
  have hor : (atSample a s).oracle = s.oracle := by simp [atSample]
  unfold oracleByte targetAnswer
  rw [hor, htg]
  cases s.oracle with
  | free => rfl
  | target =>
    have : s.target.answer (atSample a s).pins
        = (s.target.location (!extended s.cfg a) a).map s.target.byteAt := by
      simp [Target.answer, hp, hi, Pins.addr, h.2.2.2.2]
    rw [this]
    cases s.target.location (!extended s.cfg a) a <;> rfl

/-- A read draws its answers from the environment exactly as the sample does. -/
theorem busRead_env (a : Addr) (s : State) :
    (busRead a s).2.inputs = (oracleByte (atSample a s)).2.inputs
      ∧ (busRead a s).2.draws = (oracleByte (atSample a s)).2.draws := by
  simp [busRead, sample, atSample]

/-- Where the reference target is the oracle and the read reaches its RAM, the byte read is the byte there (R45), and
the environment's own answers are untouched. -/
theorem busRead_value_target {s : State} (hc : HasHardwareConstants s.cfg) (h : LinesAtRest s)
    (hi : s.pins.dir = .input) (ht : s.oracle = .target)
    {a : Addr} {loc : Nat} (hl : s.target.location (!extended s.cfg a) a = some loc) :
    (busRead a s).1 = s.target.byteAt loc ∧ (busRead a s).2.inputs = s.inputs
      ∧ (busRead a s).2.draws = s.draws := by
  have h1 := busRead_oracle_cases hc h hi a
  rw [ht, hl] at h1
  have h2 := busRead_env a s
  rw [busRead_value, h2.1, h2.2, h1]
  simp [atSample]

/-- Otherwise the byte read is a draw (R26). -/
theorem busRead_value_draw {s : State} (hc : HasHardwareConstants s.cfg) (h : LinesAtRest s)
    (hi : s.pins.dir = .input) {a : Addr}
    (hf : s.oracle = .free ∨ s.target.location (!extended s.cfg a) a = none) :
    oracleByte (atSample a s) = draw (atSample a s) := by
  rw [busRead_oracle_cases hc h hi a]
  rcases hf with hf | hf <;> rw [hf]
  cases s.oracle <;> rfl

/-- A draw takes the environment's next answer where there is one. -/
theorem busRead_value_input {s : State} (hc : HasHardwareConstants s.cfg) (h : LinesAtRest s)
    (hi : s.pins.dir = .input) {a : Addr} {v : Byte} {rest : List Byte}
    (hf : s.oracle = .free ∨ s.target.location (!extended s.cfg a) a = none) (hs : s.inputs = v :: rest) :
    (busRead a s).1 = v ∧ (busRead a s).2.inputs = rest ∧ (busRead a s).2.draws = s.draws := by
  have h2 := busRead_env a s
  have h3 : (atSample a s).inputs = v :: rest := by simp [atSample, hs]
  rw [busRead_value, h2.1, h2.2, busRead_value_draw hc h hi hf, draw, h3]
  simp [atSample]

/-- A draw with no answer ready is a free value, and is counted. -/
theorem busRead_value_free {s : State} (hc : HasHardwareConstants s.cfg) (h : LinesAtRest s)
    (hi : s.pins.dir = .input) {a : Addr}
    (hf : s.oracle = .free ∨ s.target.location (!extended s.cfg a) a = none) (hs : s.inputs = []) :
    (busRead a s).1 = Config.oracle ((readHead s.cfg a).reverse ++ s.trace) s.draws
      ∧ (busRead a s).2.inputs = [] ∧ (busRead a s).2.draws = s.draws + 1 := by
  have h2 := busRead_env a s
  have h3 : (atSample a s).inputs = [] := by simp [atSample, hs]
  rw [busRead_value, h2.1, h2.2, busRead_value_draw hc h hi hf, draw, h3]
  simp [atSample]

end Sys2Proof.Machine
end

