-- ==== Sys2Proof/Laws/Exec.lean ====
section
/-! SUPPORT. What a command or a step can do, said once: the events it emits are a run of whole chunks (a bus cycle, a
shift, a direction switch, the LED, a halt), the lines and the target follow them, and the shadows follow the writes
among them. Claims over all steps are read off `step_runs`. -/

namespace Sys2Proof.Machine

/-! ## The direction -/

/-- An event that is no direction switch. -/
def keepsDir (e : Event) : Bool :=
  match e with
  | .dir _ => false
  | .set _ _ => true
  | .drive _ => true
  | .delay _ => true
  | .sample _ => true
  | .halt _ => true

/-- Events without a direction switch keep the direction, whatever the lines. -/
theorem Pins.applyAll_dir (p : Pins) {es : List Event} (h : es.all keepsDir = true) : (p.applyAll es).dir = p.dir := by
  induction es generalizing p with
  | nil => rfl
  | cons e es ih =>
    simp only [List.all_cons, Bool.and_eq_true] at h
    rw [Pins.applyAll_cons, ih _ h.2]
    cases e with
    | set l v => cases l <;> rfl
    | dir x => simp [keepsDir] at h
    | drive => rfl
    | delay => rfl
    | sample => rfl
    | halt => rfl

theorem shiftEvents_keepsDir (c : Cfg) (a : Addr) : (shiftEvents c a).all keepsDir = true := by
  simp [shiftEvents, shiftBit, keepsDir, List.all_flatMap]

theorem selectEvents_keepsDir (c : Cfg) (a : Addr) (v : Bool) : (selectEvents c a v).all keepsDir = true := by
  unfold selectEvents; split <;> rfl

theorem writeEvents_keepsDir (c : Cfg) (a : Addr) (d : Byte) : (writeEvents c a d).all keepsDir = true := by
  simp only [writeEvents, List.all_append, shiftEvents_keepsDir, selectEvents_keepsDir]; rfl

theorem readEvents_keepsDir (c : Cfg) (a : Addr) (v : Byte) : (readEvents c a v).all keepsDir = true := by
  simp only [readEvents, readHead, readTail, List.all_append, shiftEvents_keepsDir, selectEvents_keepsDir]; rfl

@[simp] theorem busWrite_dir (a : Addr) (d : Byte) (s : State) : (busWrite a d s).pins.dir = s.pins.dir := by
  simp only [busWrite, monitor_pins, emitAll_pins]
  exact Pins.applyAll_dir _ (writeEvents_keepsDir _ a d)

@[simp] theorem busRead_dir (a : Addr) (s : State) : (busRead a s).2.pins.dir = s.pins.dir := by
  rw [busRead_pins_eq]
  exact Pins.applyAll_dir _ (readEvents_keepsDir _ a _)

/-! ## The LED -/

/-- An event that does not set the LED. -/
def keepsLed (e : Event) : Bool :=
  match e with
  | .set .led _ => false
  | .set .ser _ => true
  | .set .sclk _ => true
  | .set .oe _ => true
  | .set .wrN _ => true
  | .set .rdN _ => true
  | .set .csN _ => true
  | .drive _ => true
  | .dir _ => true
  | .delay _ => true
  | .sample _ => true
  | .halt _ => true

theorem Pins.applyAll_led (p : Pins) {es : List Event} (h : es.all keepsLed = true) : (p.applyAll es).led = p.led := by
  induction es generalizing p with
  | nil => rfl
  | cons e es ih =>
    simp only [List.all_cons, Bool.and_eq_true] at h
    rw [Pins.applyAll_cons, ih _ h.2]
    cases e with
    | set l v => cases l <;> first | rfl | simp [keepsLed] at h
    | dir => rfl
    | drive => rfl
    | delay => rfl
    | sample => rfl
    | halt => rfl

theorem shiftEvents_keepsLed (c : Cfg) (a : Addr) : (shiftEvents c a).all keepsLed = true := by
  simp [shiftEvents, shiftBit, keepsLed, List.all_flatMap]

theorem selectEvents_keepsLed (c : Cfg) (a : Addr) (v : Bool) : (selectEvents c a v).all keepsLed = true := by
  unfold selectEvents; split <;> rfl

@[simp] theorem busWrite_led (a : Addr) (d : Byte) (s : State) : (busWrite a d s).pins.led = s.pins.led := by
  have h : (writeEvents s.cfg a d).all keepsLed = true := by
    simp only [writeEvents, List.all_append, shiftEvents_keepsLed, selectEvents_keepsLed]; rfl
  simp only [busWrite, monitor_pins, emitAll_pins]
  exact Pins.applyAll_led _ h

@[simp] theorem busRead_led (a : Addr) (s : State) : (busRead a s).2.pins.led = s.pins.led := by
  have h : (readEvents s.cfg a (busRead a s).1).all keepsLed = true := by
    simp only [readEvents, readHead, readTail, List.all_append, shiftEvents_keepsLed, selectEvents_keepsLed]; rfl
  rw [busRead_pins_eq]
  exact Pins.applyAll_led _ h

/-! ## Chunks of events -/

/-- One whole piece of a command's events, with the direction before and after. -/
inductive Chunk (c : Cfg) : Dir → List Event → Dir → Prop where
  | write (a : Addr) (d : Byte) : Chunk c .output (writeEvents c a d) .output
  | read (a : Addr) (v : Byte) : Chunk c .input (readEvents c a v) .input
  | shift (x : Dir) (a : Addr) : Chunk c x (shiftEvents c a) x
  | dir (x y : Dir) : Chunk c x [.dir y] y
  | led (x : Dir) : Chunk c x [.set .led true] x
  | halt (x : Dir) (m : Mode) : Chunk c x [.halt m] x

/-- Chunks one after another. -/
inductive Chunks (c : Cfg) : Dir → List Event → Dir → Prop where
  | nil (x : Dir) : Chunks c x [] x
  | cons {x y z : Dir} {es fs : List Event} : Chunk c x es y → Chunks c y fs z → Chunks c x (es ++ fs) z

theorem Chunk.chunks {c : Cfg} {x y : Dir} {es : List Event} (h : Chunk c x es y) : Chunks c x es y := by
  simpa using Chunks.cons h (.nil y)

theorem Chunks.append {c : Cfg} {x y z : Dir} {es fs : List Event} (h : Chunks c x es y) (k : Chunks c y fs z) :
    Chunks c x (es ++ fs) z := by
  induction h with
  | nil => exact k
  | cons c _ ih => rw [List.append_assoc]; exact .cons c (ih k)

theorem Pins.applyAll_shiftEvents_rest {p : Pins} (h : p.AtRest) (c : Cfg) (a : Addr) :
    (p.applyAll (shiftEvents c a)).AtRest := by
  rw [Pins.applyAll_shiftEvents_cfg h.2.2.2.1]
  exact ⟨h.1, h.2.1, h.2.2.1, h.2.2.2.1, rfl⟩

/-- A chunk leaves lines at rest at rest, with the direction it says. -/
theorem Chunk.rest {c : Cfg} {x y : Dir} {es : List Event} (h : Chunk c x es y) {p : Pins} (hp : p.AtRest)
    (hx : p.dir = x) : (p.applyAll es).AtRest ∧ (p.applyAll es).dir = y := by
  cases h with
  | write a d => rw [Pins.applyAll_writeEvents_cfg hp]; exact ⟨hp, hx⟩
  | read a v => rw [Pins.applyAll_readEvents_cfg hp]; exact ⟨hp, hx⟩
  | shift x a =>
    exact ⟨Pins.applyAll_shiftEvents_rest hp c a, by rw [Pins.applyAll_shiftEvents_cfg hp.2.2.2.1]; exact hx⟩
  | dir x y => exact ⟨hp, rfl⟩
  | led x => exact ⟨hp, hx⟩
  | halt x m => exact ⟨hp, hx⟩

/-- Chunks leave lines at rest at rest, with the direction they say. -/
theorem Chunks.rest {c : Cfg} {x y : Dir} {es : List Event} (h : Chunks c x es y) {p : Pins} (hp : p.AtRest)
    (hx : p.dir = x) : (p.applyAll es).AtRest ∧ (p.applyAll es).dir = y := by
  induction h generalizing p with
  | nil => exact ⟨hp, hx⟩
  | cons c _ ih =>
    rw [Pins.applyAll_append]
    have := c.rest hp hx
    exact ih this.1 this.2

/-- Every delay in a chunk is of `SETTLE`. -/
theorem Chunk.delay {c : Cfg} {m : Nat} {x y : Dir} {es : List Event} (h : Chunk c x es y) (hm : Event.delay m ∈ es) :
    m = c.settle := by
  have hs : ∀ a, Event.delay m ∉ shiftEvents c a := by intro a; simp [shiftEvents, shiftBit]
  have hc : ∀ a v, Event.delay m ∉ selectEvents c a v := by intro a v; unfold selectEvents; split <;> simp
  cases h with
  | write a d =>
    simp only [writeEvents, idleEvents, List.mem_append, hs, hc, List.mem_cons, List.not_mem_nil, reduceCtorEq,
      false_or, or_false, Event.delay.injEq] at hm
    exact hm
  | read a v =>
    simp only [readEvents, readHead, readTail, idleEvents, List.mem_append, hs, hc, List.mem_cons,
      List.not_mem_nil, reduceCtorEq, false_or, or_false, Event.delay.injEq] at hm
    exact hm
  | shift x a => exact absurd hm (hs a)
  | dir x y => simp at hm
  | led x => simp at hm
  | halt x k => simp at hm

theorem Chunks.delay {c : Cfg} {m : Nat} {x y : Dir} {es : List Event} (h : Chunks c x es y) (hm : Event.delay m ∈ es) :
    m = c.settle := by
  induction h with
  | nil => simp at hm
  | cons c _ ih =>
    rcases List.mem_append.1 hm with hm | hm
    · exact c.delay hm
    · exact ih hm

/-! ## Bus safety along a list of events -/

/-- Bus safety at every moment, moment by moment. -/
def safeFrom (p : Pins) : List Event → Prop
  | [] => p.BusSafe
  | e :: es => p.BusSafe ∧ safeFrom (p.apply e) es

theorem busSafeAlong_iff {p : Pins} {es : List Event} : BusSafeAlong p es ↔ safeFrom p es := by
  induction es generalizing p with
  | nil =>
    constructor
    · intro h; exact h [] [] rfl
    · intro h pre post e
      obtain ⟨rfl, rfl⟩ := List.append_eq_nil_iff.1 e.symm
      exact h
  | cons e es ih =>
    constructor
    · intro h
      refine ⟨h [] (e :: es) rfl, ih.1 fun pre post he => h (e :: pre) post (by rw [he]; rfl)⟩
    · rintro ⟨h1, h2⟩ pre post he
      cases pre with
      | nil => exact h1
      | cons e' pre =>
        obtain ⟨rfl, rfl⟩ := List.cons.inj he
        exact ih.2 h2 pre post rfl

theorem safeFrom_append {p : Pins} {xs ys : List Event} (h : safeFrom p xs) (k : safeFrom (p.applyAll xs) ys) :
    safeFrom p (xs ++ ys) := by
  induction xs generalizing p with
  | nil => exact k
  | cons e xs ih => exact ⟨h.1, ih h.2 k⟩

/-- An event that asserts no strobe. -/
def calm (e : Event) : Bool :=
  match e with
  | .set .wrN v => v
  | .set .rdN v => v
  | .set .ser _ => true
  | .set .sclk _ => true
  | .set .oe _ => true
  | .set .csN _ => true
  | .set .led _ => true
  | .drive _ => true
  | .dir _ => true
  | .delay _ => true
  | .sample _ => true
  | .halt _ => true

/-- While no strobe is asserted there is no hazard. -/
theorem safeFrom_calm {p : Pins} {es : List Event} (hw : p.wrN = true) (hr : p.rdN = true)
    (h : es.all calm = true) : safeFrom p es := by
  have hs : p.BusSafe := ⟨fun h => by simp [hw] at h, fun h => by simp [hr] at h⟩
  induction es generalizing p with
  | nil => exact hs
  | cons e es ih =>
    simp only [List.all_cons, Bool.and_eq_true] at h
    have hk : (p.apply e).wrN = true ∧ (p.apply e).rdN = true := by
      cases e with
      | set l v => cases l <;> simp_all [Pins.setLine, calm]
      | drive => exact ⟨hw, hr⟩
      | dir => exact ⟨hw, hr⟩
      | delay => exact ⟨hw, hr⟩
      | sample => exact ⟨hw, hr⟩
      | halt => exact ⟨hw, hr⟩
    exact ⟨hs, ih hk.1 hk.2 h.2 ⟨fun h => by simp [hk.1] at h, fun h => by simp [hk.2] at h⟩⟩

theorem shiftEvents_calm (c : Cfg) (a : Addr) : (shiftEvents c a).all calm = true := by
  simp [shiftEvents, shiftBit, calm, List.all_flatMap]

theorem selectEvents_calm (c : Cfg) (a : Addr) (v : Bool) : (selectEvents c a v).all calm = true := by
  unfold selectEvents; split <;> rfl

/-- No chunk has a hazard. -/
theorem Chunk.safe {c : Cfg} {x y : Dir} {es : List Event} (h : Chunk c x es y) (hk : HasHardwareConstants c)
    {p : Pins} (hp : p.AtRest) (hx : p.dir = x) : safeFrom p es := by
  obtain ⟨hw, hr, hc, hs, ho⟩ := hp
  cases h with
  | write a d =>
    have hh : (idleEvents ++ shiftEvents c a ++ selectEvents c a false).all calm = true := by
      rw [List.all_append, List.all_append, shiftEvents_calm, selectEvents_calm]; rfl
    rw [writeEvents]
    refine safeFrom_append (safeFrom_append (safeFrom_calm hw hr hh) ?_) (safeFrom_calm ?_ ?_ (selectEvents_calm _ a true))
    · rw [Pins.applyAll_select ⟨hw, hr, hc, hs, ho⟩]
      simp [safeFrom, Pins.BusSafe, hw, hr, hs, ho, hx, srAfter_eq hk, not_extended_eq_decide hk]
    · rw [Pins.applyAll_append, Pins.applyAll_select ⟨hw, hr, hc, hs, ho⟩]; simp
    · rw [Pins.applyAll_append, Pins.applyAll_select ⟨hw, hr, hc, hs, ho⟩]; simp [hr]
  | read a v =>
    have hh : (idleEvents ++ shiftEvents c a ++ selectEvents c a false).all calm = true := by
      rw [List.all_append, List.all_append, shiftEvents_calm, selectEvents_calm]; rfl
    have ht : ([Event.set .rdN true] ++ selectEvents c a true).all calm = true := by
      rw [List.all_append, selectEvents_calm]; rfl
    rw [readEvents, readHead, readTail, List.append_assoc, List.append_assoc]
    refine safeFrom_append (safeFrom_calm hw hr hh) ?_
    rw [Pins.applyAll_select ⟨hw, hr, hc, hs, ho⟩]
    simp only [List.cons_append, List.nil_append, safeFrom, Pins.apply_set, Pins.setLine_rdN, Pins.apply_delay,
      Pins.apply_sample]
    refine ⟨?_, ?_, ?_, ?_, safeFrom_calm ?_ ?_ (selectEvents_calm _ a true)⟩ <;>
      simp [Pins.BusSafe, hw, hr, hs, ho, hx, srAfter_eq hk, not_extended_eq_decide hk]
  | shift x a => exact safeFrom_calm hw hr (shiftEvents_calm _ a)
  | dir x y => exact safeFrom_calm hw hr rfl
  | led x => exact safeFrom_calm hw hr rfl
  | halt x m => exact safeFrom_calm hw hr rfl

theorem Chunks.safe {c : Cfg} {x y : Dir} {es : List Event} (h : Chunks c x es y) (hk : HasHardwareConstants c)
    {p : Pins} (hp : p.AtRest) (hx : p.dir = x) : safeFrom p es := by
  induction h generalizing p with
  | nil => exact safeFrom_calm hp.1 hp.2.1 rfl
  | cons c _ ih =>
    have := c.rest hp hx
    exact safeFrom_append (c.safe hk hp hx) (ih this.1 this.2)

/-! ## What a command does, as a run of chunks -/

theorem lastWriteTo_append (c : Addr) (old : Option Byte) (xs ys : List BusCycle) :
    lastWriteTo c old (xs ++ ys) = lastWriteTo c (lastWriteTo c old xs) ys := by
  induction xs generalizing old with
  | nil => rfl
  | cons b xs ih => cases b <;> exact ih _

/-- From `s` to `t` the events `es` were emitted, in chunks; the lines, the target, the shadows and the monitor's flag
follow them; the parameters are unchanged. -/
structure Runs (s t : State) (es : List Event) : Prop where
  trace : t.trace = es.reverse ++ s.trace
  pins : t.pins = s.pins.applyAll es
  target : t.target = Target.observeAll s.pins s.target es
  chunks : Chunks s.cfg s.pins.dir es t.pins.dir
  shadows : HasHardwareConstants s.cfg → s.pins.AtRest →
    t.ramenSh = lastWriteTo s.cfg.ctrlRamen s.ramenSh (recordBus s.pins es)
      ∧ t.bankSh = lastWriteTo s.cfg.ctrlBank s.bankSh (recordBus s.pins es)
  pv : s.pv = true → t.pv = true
  cfg : t.cfg = s.cfg
  program : t.program = s.program
  oracle : t.oracle = s.oracle

theorem Runs.rest {s t : State} {es : List Event} (h : Runs s t es) (hs : LinesAtRest s) : LinesAtRest t := by
  unfold LinesAtRest
  rw [h.pins]
  exact (h.chunks.rest hs rfl).1

theorem Runs.trans {s t u : State} {es fs : List Event} (h : Runs s t es) (k : Runs t u fs) :
    Runs s u (es ++ fs) where
  trace := by rw [k.trace, h.trace]; simp
  pins := by rw [k.pins, h.pins, Pins.applyAll_append]
  target := by rw [k.target, h.target, h.pins, Target.observeAll_append]
  chunks := h.chunks.append (h.cfg ▸ k.chunks)
  shadows := fun hc hs => by
    have h1 := h.shadows hc hs
    have h2 := k.shadows (h.cfg ▸ hc) (h.rest hs)
    rw [h.cfg] at h2
    rw [recordBus_append, lastWriteTo_append, lastWriteTo_append, ← h1.1, ← h1.2, ← h.pins]
    exact h2
  pv := fun hv => k.pv (h.pv hv)
  cfg := k.cfg.trans h.cfg
  program := k.program.trans h.program
  oracle := k.oracle.trans h.oracle

/-- A change of registers that emits nothing, seen by nobody on the bus. -/
theorem Runs.still {s t : State} (h1 : t.trace = s.trace) (h2 : t.pins = s.pins) (h3 : t.target = s.target)
    (h4 : t.ramenSh = s.ramenSh) (h5 : t.bankSh = s.bankSh) (h6 : t.pv = s.pv) (h7 : t.cfg = s.cfg)
    (h8 : t.program = s.program) (h9 : t.oracle = s.oracle) : Runs s t [] where
  trace := h1
  pins := h2
  target := h3
  chunks := by rw [h2]; exact .nil _
  shadows := fun _ _ => ⟨h4, h5⟩
  pv := fun h => by rw [h6]; exact h
  cfg := h7
  program := h8
  oracle := h9

theorem runs_advance (s : State) : Runs s (advance s) [] := .still rfl rfl rfl rfl rfl rfl rfl rfl rfl

/-- One event that is a chunk by itself and shows the bus recorder nothing. -/
theorem runs_emit {e : Event} {s : State} (hc : Chunk s.cfg s.pins.dir [e] (s.pins.apply e).dir)
    (hq : quiet e = true) : Runs s (emit e s) [e] where
  trace := rfl
  pins := rfl
  target := rfl
  chunks := hc.chunks
  shadows := fun _ _ => by
    rw [recordBus_quiet _ (by simpa using hq)]
    exact ⟨rfl, rfl⟩
  pv := fun h => h
  cfg := rfl
  program := rfl
  oracle := rfl

theorem runs_busWrite (a : Addr) (d : Byte) {s : State} (ho : s.pins.dir = .output) :
    Runs s (busWrite a d s) (writeEvents s.cfg a d) where
  trace := busWrite_trace a d s
  pins := by simp [busWrite]
  target := by simp [busWrite]
  chunks := by
    rw [busWrite_dir, ho]
    exact (Chunk.write a d).chunks
  shadows := fun hc hs => by
    rw [recordBus_writeEvents hc hs, ho, busWrite_ramenSh, busWrite_bankSh]
    exact ⟨by simp [lastWriteTo], by simp [lastWriteTo]⟩
  pv := fun h => by simp [h]
  cfg := busWrite_cfg a d s
  program := busWrite_program a d s
  oracle := busWrite_oracle a d s

theorem runs_busRead (a : Addr) {s : State} (hi : s.pins.dir = .input) :
    Runs s (busRead a s).2 (readEvents s.cfg a (busRead a s).1) where
  trace := busRead_trace a s
  pins := busRead_pins_eq a s
  target := busRead_target_eq a s
  chunks := by
    rw [busRead_dir, hi]
    exact (Chunk.read a _).chunks
  shadows := fun hc hs => by
    rw [recordBus_readEvents hc hs, busRead_ramenSh, busRead_bankSh]
    exact ⟨rfl, rfl⟩
  pv := fun h => by simp [h]
  cfg := busRead_cfg a s
  program := busRead_program a s
  oracle := busRead_oracle a s

theorem runs_shift (a : Addr) (s : State) : Runs s (emitAll (shiftEvents s.cfg a) s) (shiftEvents s.cfg a) where
  trace := by simp
  pins := by simp
  target := by simp
  chunks := by
    rw [emitAll_pins, Pins.applyAll_dir _ (shiftEvents_keepsDir _ a)]
    exact (Chunk.shift _ a).chunks
  shadows := fun _ _ => by
    rw [recordBus_quiet _ (shiftEvents_quiet _ a)]
    simp [lastWriteTo]
  pv := fun h => by simp [h]
  cfg := by simp
  program := by simp
  oracle := by simp

/-- A halt beside a change of registers nobody sees on the bus. -/
theorem Runs.halted {s t : State} {m : Mode} (h1 : t.trace = .halt m :: s.trace) (h2 : t.pins = s.pins)
    (h3 : t.target = s.target) (h4 : t.ramenSh = s.ramenSh) (h5 : t.bankSh = s.bankSh) (h6 : t.pv = s.pv)
    (h7 : t.cfg = s.cfg) (h8 : t.program = s.program) (h9 : t.oracle = s.oracle) : Runs s t [.halt m] where
  trace := h1
  pins := h2
  target := h3
  chunks := by rw [h2]; exact (Chunk.halt _ m).chunks
  shadows := fun _ _ => ⟨h4, h5⟩
  pv := fun h => by rw [h6]; exact h
  cfg := h7
  program := h8
  oracle := h9

theorem runs_raiseFault (f : FaultCode) (w : Word) (s : State) : Runs s (raiseFault f w s) [.halt .fault] :=
  .halted rfl rfl rfl rfl rfl rfl rfl rfl rfl

theorem runs_enterPanic (s : State) : Runs s (enterPanic s) [.halt .panic] :=
  .halted rfl rfl rfl rfl rfl rfl rfl rfl rfl

/-- A single bus write command (R61), the pseudo-commands too. -/
theorem runs_writeCommand (w : Word) (a : Addr) (d : Byte) (s : State) : ∃ es, Runs s (writeCommand w a d s) es := by
  unfold writeCommand
  split
  · exact ⟨_, (runs_busWrite a d ‹_›).trans (runs_advance _)⟩
  · exact ⟨_, runs_raiseFault _ _ _⟩

theorem runs_writeBlob (off : Addr) (j : Nat) (bytes : List Byte) {s : State} (ho : s.pins.dir = .output) :
    ∃ es, Runs s (writeBlob off j bytes s) es := by
  induction bytes generalizing j s with
  | nil => exact ⟨_, .still rfl rfl rfl rfl rfl rfl rfl rfl rfl⟩
  | cons v rest ih =>
    obtain ⟨es, h⟩ := ih (j + 1) (s := busWrite (blobAddr s.cfg off j) v s) (by rw [busWrite_dir, ho])
    exact ⟨_, (runs_busWrite _ v ho).trans h⟩

/-- A run followed by a new value of `ACC`. -/
theorem Runs.setAcc {s t : State} {es : List Event} (h : Runs s t es) (v : Option Byte) :
    Runs s { t with acc := v } es where
  trace := h.trace
  pins := h.pins
  target := h.target
  chunks := h.chunks
  shadows := h.shadows
  pv := h.pv
  cfg := h.cfg
  program := h.program
  oracle := h.oracle

/-- A run followed by a new value of `RDATA`. -/
theorem Runs.setRdata {s t : State} {es : List Event} (h : Runs s t es) (v : Option Byte) :
    Runs s { t with rdata := v } es where
  trace := h.trace
  pins := h.pins
  target := h.target
  chunks := h.chunks
  shadows := h.shadows
  pv := h.pv
  cfg := h.cfg
  program := h.program
  oracle := h.oracle

theorem runs_subtractRange (as : List Addr) (c : Byte) {s : State} (hi : s.pins.dir = .input) :
    ∃ es, Runs s (subtractRange as c s).2 es ∧ (subtractRange as c s).2.pins.dir = .input := by
  induction as generalizing c s with
  | nil => exact ⟨_, .still rfl rfl rfl rfl rfl rfl rfl rfl rfl, hi⟩
  | cons a rest ih =>
    have h1 := (runs_busRead a hi).setAcc (some (accMinus c (busRead a s).1))
    obtain ⟨es, h2, hd⟩ := ih (accMinus c (busRead a s).1)
      (s := { (busRead a s).2 with acc := some (accMinus c (busRead a s).1) }) ((busRead_dir a s).trans hi)
    exact ⟨_, h1.trans h2, hd⟩

theorem runs_checksumBody (s : State) : ∃ es, Runs s (checksumBody s) es := by
  have h1 : Runs s { emit (.dir .input) s with acc := some s.cfg.chkInit } [.dir .input] :=
    (runs_emit (e := .dir .input) (s := s) (.dir _ _) rfl).setAcc _
  obtain ⟨es, h2, hd⟩ := runs_subtractRange (chkRange s.cfg) s.cfg.chkInit
    (s := { emit (.dir .input) s with acc := some s.cfg.chkInit }) rfl
  unfold checksumBody
  generalize subtractRange (chkRange s.cfg) s.cfg.chkInit { emit (.dir .input) s with acc := some s.cfg.chkInit } = r
    at h2 hd ⊢
  have h3 : Runs r.2 (emit (.dir .output) r.2) [.dir .output] := runs_emit (.dir _ _) rfl
  exact ⟨_, ((h1.trans h2).trans h3).trans (runs_busWrite (chkWriteAddr s.cfg) r.1 rfl)⟩

/-- Everything a command can do, as a run of chunks. -/
theorem exec_runs {i : Instr} {s t : State} (h : exec i s = .next t) : ∃ es, Runs s t es := by
  cases i with
  | shift a => cases h; exact ⟨_, (runs_shift a s).trans (runs_advance _)⟩
  | bwr a d => cases h; exact runs_writeCommand _ a d s
  | ramen => cases h; exact runs_writeCommand _ _ _ s
  | ramdis => cases h; exact runs_writeCommand _ _ _ s
  | selbank n => cases h; exact runs_writeCommand _ _ n s
  | brd a =>
    simp only [exec, execBrd] at h
    split at h
    · rename_i hi
      have h1 := runs_busRead a hi
      generalize busRead a s = r at h h1
      cases h
      exact ⟨_, (h1.setRdata (some r.1)).trans (runs_advance _)⟩
    · cases h; exact ⟨_, runs_raiseFault _ _ s⟩
  | dirin => cases h; exact ⟨_, (runs_emit (.dir _ _) rfl).trans (runs_advance _)⟩
  | dirout => cases h; exact ⟨_, (runs_emit (.dir _ _) rfl).trans (runs_advance _)⟩
  | accinit c => cases h; exact ⟨_, .still rfl rfl rfl rfl rfl rfl rfl rfl rfl⟩
  | accsub a =>
    simp only [exec, execAccsub] at h
    split at h
    · split at h
      · rename_i hi _ c _
        have h1 := runs_busRead a hi
        unfold subtractRead at h
        generalize busRead a s = r at h h1
        cases h
        exact ⟨_, (h1.setAcc (some (accMinus c r.1))).trans (runs_advance _)⟩
      · cases h; exact ⟨_, runs_raiseFault _ _ s⟩
    · cases h; exact ⟨_, runs_raiseFault _ _ s⟩
  | accst a =>
    simp only [exec, execAccst] at h
    split at h
    · split at h
      · cases h; exact ⟨_, (runs_busWrite a _ ‹_›).trans (runs_advance _)⟩
      · cases h; exact ⟨_, runs_raiseFault _ _ s⟩
    · cases h; exact ⟨_, runs_raiseFault _ _ s⟩
  | prog k =>
    simp only [exec, execProg] at h
    split at h
    · cases h; exact ⟨_, runs_raiseFault _ _ s⟩
    · rename_i b hb
      split at h
      · rename_i ho
        cases h
        obtain ⟨es, hr⟩ := runs_writeBlob b.offset 0 b.bytes (s := busWrite s.cfg.ctrlBank b.bank s)
          (by rw [busWrite_dir, ho])
        exact ⟨_, ((runs_busWrite s.cfg.ctrlBank b.bank ho).trans hr).trans (runs_advance _)⟩
      · cases h; exact ⟨_, runs_raiseFault _ _ s⟩
  | chksum =>
    simp only [exec, execChksum] at h
    split at h
    · cases h
      obtain ⟨es, hr⟩ := runs_checksumBody s
      exact ⟨_, hr.trans (runs_advance _)⟩
    · cases h; exact ⟨_, runs_raiseFault _ _ s⟩
  | done =>
    cases h
    have h1 : Runs s (emit (.set .led true) s) [.set .led true] := runs_emit (.led _) rfl
    have h2 : Runs (emit (.set .led true) s) (emit (.halt .done) { emit (.set .led true) s with mode := .done })
        [.halt .done] := .halted rfl rfl rfl rfl rfl rfl rfl rfl rfl
    exact ⟨_, h1.trans h2⟩
  | panic => cases h; exact ⟨_, runs_enterPanic s⟩

/-- What the configuration check can do: enter PANIC, or set the mode to RUN. -/
theorem configCheck_cases (s : State) :
    (s.cfg.cfgValidate = true ∧ cfgOk s.cfg s.program = false ∧
        configCheck s = enterPanic { s with checkPending := false })
      ∨ ((s.cfg.cfgValidate = true → cfgOk s.cfg s.program = true) ∧
        configCheck s = { s with mode := .run, checkPending := false }) := by
  unfold configCheck
  cases hv : s.cfg.cfgValidate <;> cases hc : cfgOk s.cfg s.program <;> simp

/-- Everything a step can do: the configuration check, a fetch fault, a decode fault, or a whole command. -/
theorem step_cases {s t : State} (h : step s = .next t) :
    (s.checkPending = true ∧ t = configCheck s)
      ∨ (s.checkPending = false ∧ s.mode = .run ∧
        ((s.program[s.cp]? = none ∧ t = raiseFault .endOfProgram 0 s)
          ∨ (∃ (w : Word) (e : Illegal), s.program[s.cp]? = some w ∧ decode w = .error e ∧
              t = raiseFault .illegalCmd w s)
          ∨ ∃ (w : Word) (i : Instr), s.program[s.cp]? = some w ∧ decode w = .ok i ∧ exec i s = .next t)) := by
  unfold step at h
  split at h
  · rename_i hp
    cases h
    exact .inl ⟨hp, rfl⟩
  · rename_i hp
    right
    refine ⟨by simpa using hp, ?_⟩
    split at h
    · cases h
    · cases h
    · cases h
    · rename_i hm
      refine ⟨hm, ?_⟩
      unfold fetch at h
      split at h
      · cases h; exact .inl ⟨‹_›, rfl⟩
      · rename_i w hw
        split at h
        · cases h; exact .inr (.inl ⟨w, _, hw, ‹_›, rfl⟩)
        · exact .inr (.inr ⟨w, _, hw, ‹_›, h⟩)

/-- Everything a step can do, as a run of chunks. -/
theorem step_runs {s t : State} (h : step s = .next t) : ∃ es, Runs s t es := by
  rcases step_cases h with ⟨-, rfl⟩ | ⟨-, -, ⟨-, rfl⟩ | ⟨w, e, -, -, rfl⟩ | ⟨w, i, -, -, hx⟩⟩
  · rcases configCheck_cases s with ⟨-, -, hc⟩ | ⟨-, hc⟩ <;> rw [hc]
    · exact ⟨[.halt .panic], .halted rfl rfl rfl rfl rfl rfl rfl rfl rfl⟩
    · exact ⟨_, .still rfl rfl rfl rfl rfl rfl rfl rfl rfl⟩
  · exact ⟨_, runs_raiseFault _ _ s⟩
  · exact ⟨_, runs_raiseFault _ w s⟩
  · exact exec_runs hx

end Sys2Proof.Machine
end

