-- ==== Sys2Proof/Laws/Protocol.lean ====
section
/-! SUPPORT. What writing a blob does (42_protocol.md R71), said once: what it leaves alone, its events, the cycles a
bus recorder sees, and where the bytes land in the reference target. -/

namespace Sys2Proof.Machine

/-! ## The target along any events -/

/-- Any event keeps the canonical form of the target's memory. -/
theorem Target.observe_wf (p : Pins) {t : Target} (e : Event) (h : Memory.wf t.fill t.tram = true) :
    Memory.wf (Target.observe p t e).fill (Target.observe p t e).tram = true := by
  cases e with
  | set l v =>
    cases l <;> try exact h
    simp only [Target.observe]
    split
    · unfold Target.latch
      split <;> [exact Target.store_wf h; exact h; exact h; exact h]
    · exact h
  | drive => exact h
  | dir => exact h
  | delay => exact h
  | sample => exact h
  | halt => exact h

/-- Any events keep the canonical form of the target's memory. -/
theorem Target.observeAll_wf (p : Pins) {t : Target} (es : List Event) (h : Memory.wf t.fill t.tram = true) :
    Memory.wf (Target.observeAll p t es).fill (Target.observeAll p t es).tram = true := by
  induction es generalizing p t with
  | nil => exact h
  | cons e es ih => exact ih _ (Target.observe_wf p e h)

/-- Any event keeps the byte that fills unlisted cells. -/
theorem Target.observe_fill (p : Pins) (t : Target) (e : Event) : (Target.observe p t e).fill = t.fill := by
  cases e with
  | set l v =>
    cases l <;> try rfl
    simp only [Target.observe]
    split
    · unfold Target.latch
      split <;> [exact Target.store_fill _ _ _ _; rfl; rfl; rfl]
    · rfl
  | drive => rfl
  | dir => rfl
  | delay => rfl
  | sample => rfl
  | halt => rfl

theorem Target.observeAll_fill (p : Pins) (t : Target) (es : List Event) :
    (Target.observeAll p t es).fill = t.fill := by
  induction es generalizing p t with
  | nil => rfl
  | cons e es ih => rw [Target.observeAll_cons, ih, Target.observe_fill]

/-- Any event keeps the number of the run. -/
theorem Target.observe_run (p : Pins) (t : Target) (e : Event) : (Target.observe p t e).run = t.run := by
  cases e with
  | set l v =>
    cases l <;> try rfl
    simp only [Target.observe]
    split
    · unfold Target.latch
      split <;> [exact Target.store_run _ _ _ _; rfl; rfl; rfl]
    · rfl
  | drive => rfl
  | dir => rfl
  | delay => rfl
  | sample => rfl
  | halt => rfl

theorem Target.observeAll_run (p : Pins) (t : Target) (es : List Event) :
    (Target.observeAll p t es).run = t.run := by
  induction es generalizing p t with
  | nil => rfl
  | cons e es ih => rw [Target.observeAll_cons, ih, Target.observe_run]

/-- What a write cycle's end does to the target's latches. -/
theorem Target.store_latches (t : Target) (csN : Bool) (a : Addr) (d : Byte) :
    (t.store csN a d).ten = (if a = Config.ctrlRamen then some d else t.ten)
      ∧ (t.store csN a d).tbank = (if a = Config.ctrlBank then some d else t.tbank) := by
  have hne : ¬ Config.ctrlBank = Config.ctrlRamen := by decide
  unfold Target.store
  split
  · rename_i h
    exact ⟨rfl, by rw [if_neg (fun h' => hne (h'.symm.trans h))]⟩
  · split
    · exact ⟨rfl, rfl⟩
    · split <;> exact ⟨rfl, rfl⟩

/-- A shadow that agrees with its latch still agrees after any events, when it follows the writes a bus recorder
sees (R44, R66). -/
theorem Target.observeAll_latches (p : Pins) (t : Target) (x y : Option Byte) (es : List Event)
    (hx : ∀ d, x = some d → t.ten = some d) (hy : ∀ d, y = some d → t.tbank = some d) :
    (∀ d, lastWriteTo Config.ctrlRamen x (recordBus p es) = some d → (Target.observeAll p t es).ten = some d)
      ∧ (∀ d, lastWriteTo Config.ctrlBank y (recordBus p es) = some d →
          (Target.observeAll p t es).tbank = some d) := by
  induction es generalizing p t x y with
  | nil => exact ⟨hx, hy⟩
  | cons e es ih =>
    rw [Target.observeAll_cons, recordBus_cons, lastWriteTo_append, lastWriteTo_append]
    have hstill : Target.observe p t e = t → lastWriteTo Config.ctrlRamen x (recordEvent p e) = x →
        lastWriteTo Config.ctrlBank y (recordEvent p e) = y →
        (∀ d, lastWriteTo Config.ctrlRamen x (recordEvent p e) = some d → (Target.observe p t e).ten = some d)
          ∧ (∀ d, lastWriteTo Config.ctrlBank y (recordEvent p e) = some d →
              (Target.observe p t e).tbank = some d) := by
      intro h1 h2 h3
      rw [h1, h2, h3]
      exact ⟨hx, hy⟩
    suffices h : (∀ d, lastWriteTo Config.ctrlRamen x (recordEvent p e) = some d →
          (Target.observe p t e).ten = some d)
        ∧ (∀ d, lastWriteTo Config.ctrlBank y (recordEvent p e) = some d → (Target.observe p t e).tbank = some d) from
      ih _ _ _ _ h.1 h.2
    cases e with
    | set l v =>
      cases l <;> try exact hstill rfl rfl rfl
      simp only [Target.observe, recordEvent]
      split
      · unfold Target.latch
        rcases ha : p.addr with _ | a <;> rcases hd : p.driven with _ | d <;>
          simp only [lastWriteTo, reduceCtorEq, if_false, Option.some.injEq]
        · exact ⟨hx, hy⟩
        · exact ⟨hx, hy⟩
        · exact ⟨fun d h => by split at h <;> [cases h; exact hx d h],
            fun d h => by split at h <;> [cases h; exact hy d h]⟩
        · have hl := Target.store_latches t p.csN a d
          rw [hl.1, hl.2]
          constructor
          · by_cases hc : a = Config.ctrlRamen
            · simp only [if_pos hc]; exact fun _ h => h
            · simp only [if_neg hc]; exact hx
          · by_cases hc : a = Config.ctrlBank
            · simp only [if_pos hc]; exact fun _ h => h
            · simp only [if_neg hc]; exact hy
      · exact ⟨hx, hy⟩
    | drive => exact hstill rfl rfl rfl
    | dir => exact hstill rfl rfl rfl
    | delay => exact hstill rfl rfl rfl
    | sample => exact hstill rfl rfl rfl
    | halt => exact hstill rfl rfl rfl

/-! ## A write cycle and what it leaves alone -/

/-- What a write cycle leaves alone, whatever the lines. -/
theorem busWrite_frame (a : Addr) (d : Byte) (s : State) :
    busWrite a d s = { s with
      pins := (busWrite a d s).pins
      trace := (busWrite a d s).trace
      target := (busWrite a d s).target
      pv := (busWrite a d s).pv
      ramenSh := (busWrite a d s).ramenSh
      bankSh := (busWrite a d s).bankSh } := by
  unfold busWrite
  generalize writeEvents s.cfg a d = es
  rw [emitAll_eq]
  rfl

/-- What a write cycle inside an existing bank does to the target's RAM (20_memory.md R44), RAM enabled and bank `b`
latched. -/
theorem busWrite_ramRelative {s : State} (hc : HasHardwareConstants s.cfg) (h : LinesAtRest s) (ho : s.pins.dir = .output) {b : Byte} {o : Nat}
    (d : Byte) (hl : o < 8192) (hb : b.toNat < 4) (ht : s.target.ten = some Config.enableCode) (htb : s.target.tbank = some b) :
    (busWrite (ramRelative s.cfg o) d s).target
      = { s.target with tram := Memory.write s.target.fill s.target.tram (b.toNat * 8192 + o) d } := by
  rw [busWrite_target hc h ho, Target.store_ramRelative hc hl hb ht htb]

/-- A write cycle inside the bank window leaves both shadows alone. -/
theorem busWrite_ramRelative_shadows {s : State} (hc : HasHardwareConstants s.cfg) {o : Nat} (d : Byte)
    (hl : o < 8192) :
    (busWrite (ramRelative s.cfg o) d s).ramenSh = s.ramenSh ∧ (busWrite (ramRelative s.cfg o) d s).bankSh = s.bankSh := by
  have hn := not_control_of_inTargetWindow (inTargetWindow_ramRelative hc hl)
  rw [busWrite_ramenSh, busWrite_bankSh, hc.ctrlRamen, hc.ctrlBank, if_neg hn.1, if_neg hn.2]
  exact ⟨rfl, rfl⟩

/-! ## Writing a blob -/

/-- The events of a blob's bytes from byte `j` on. -/
def blobEvents (c : Cfg) (off : Addr) (j : Nat) (bytes : List Byte) : List Event :=
  (bytes.zipIdx j).flatMap (fun x => writeEvents c (blobAddr c off x.2) x.1)

/-- What writing a blob leaves alone, whatever the lines. -/
theorem writeBlob_frame (off : Addr) (j : Nat) (bytes : List Byte) (s : State) :
    writeBlob off j bytes s = { s with
      pins := (writeBlob off j bytes s).pins
      trace := (writeBlob off j bytes s).trace
      target := (writeBlob off j bytes s).target
      pv := (writeBlob off j bytes s).pv
      ramenSh := (writeBlob off j bytes s).ramenSh
      bankSh := (writeBlob off j bytes s).bankSh } := by
  induction bytes generalizing j s with
  | nil => rfl
  | cons v rest ih =>
    rw [writeBlob, ih]
    generalize writeBlob off (j + 1) rest (busWrite (blobAddr s.cfg off j) v s) = t
    rw [busWrite_frame]

/-- A blob keeps the direction and the LED, whatever the lines. -/
theorem writeBlob_dir_led (off : Addr) (j : Nat) (bytes : List Byte) (s : State) :
    (writeBlob off j bytes s).pins.dir = s.pins.dir ∧ (writeBlob off j bytes s).pins.led = s.pins.led := by
  induction bytes generalizing j s with
  | nil => exact ⟨rfl, rfl⟩
  | cons v rest ih =>
    have h := ih (j + 1) (busWrite (blobAddr s.cfg off j) v s)
    rw [busWrite_dir, busWrite_led] at h
    exact h

theorem writeBlob_trace (off : Addr) (j : Nat) (bytes : List Byte) (s : State) :
    (writeBlob off j bytes s).trace = (blobEvents s.cfg off j bytes).reverse ++ s.trace := by
  induction bytes generalizing j s with
  | nil => rfl
  | cons v rest ih =>
    rw [writeBlob, ih, busWrite_cfg, busWrite_trace]
    simp [blobEvents, List.zipIdx_cons]

/-- The lines after a blob, from lines at rest. -/
theorem writeBlob_lines (off : Addr) (j : Nat) (bytes : List Byte) {s : State} (h : LinesAtRest s) :
    LinesAtRest (writeBlob off j bytes s) ∧ (writeBlob off j bytes s).pins.dir = s.pins.dir
      ∧ (writeBlob off j bytes s).pins.led = s.pins.led
      ∧ (writeBlob off j bytes s).pins.dOut = bytes.getLastD s.pins.dOut := by
  induction bytes generalizing j s with
  | nil => exact ⟨h, rfl, rfl, rfl⟩
  | cons v rest ih =>
    have h1 := ih (j + 1) (busWrite_rest h (blobAddr s.cfg off j) v)
    have hd : (busWrite (blobAddr s.cfg off j) v s).pins.dOut = v := by
      simp only [busWrite, monitor_pins, emitAll_pins]
      rw [Pins.applyAll_writeEvents_cfg h]
    rw [busWrite_dir, busWrite_led, hd] at h1
    exact ⟨h1.1, h1.2.1, h1.2.2.1, by rw [writeBlob, h1.2.2.2, List.getLastD_cons]⟩

/-- The cycles a bus recorder sees in a blob's events. -/
theorem recordBus_blobEvents {c : Cfg} (hc : HasHardwareConstants c) (off : Addr) (j : Nat) (bytes : List Byte)
    {p : Pins} (h : p.AtRest) (ho : p.dir = .output) : recordBus p (blobEvents c off j bytes)
      = (bytes.zipIdx j).map (fun x => .write (some (blobAddr c off x.2)) (some x.1)) := by
  induction bytes generalizing j p with
  | nil => rfl
  | cons v rest ih =>
    have h1 := ih (j + 1) (p := p.applyAll (writeEvents c (blobAddr c off j) v))
      (by rw [Pins.applyAll_writeEvents hc h]; exact h) (by rw [Pins.applyAll_writeEvents hc h]; exact ho)
    simp only [blobEvents, List.zipIdx_cons, List.flatMap_cons, List.map_cons] at h1 ⊢
    rw [recordBus_append, recordBus_writeEvents hc h, ho, h1]
    rfl

/-- The bus writes of a blob's bytes from byte `j` on. -/
def blobWrites (c : Cfg) (off : Addr) (j : Nat) (bytes : List Byte) : List (Addr × Byte) :=
  (bytes.zipIdx j).map (fun x => (c.ramBase + off + BitVec.ofNat 16 x.2, x.1))

theorem blobWrites_cons (c : Cfg) (off : Addr) (j : Nat) (v : Byte) (rest : List Byte) :
    blobWrites c off j (v :: rest) = (blobAddr c off j, v) :: blobWrites c off (j + 1) rest := rfl

/-- The shadows and `PV` after a blob: exactly what its writes, one after another, make of them (R66, R67). -/
theorem writeBlob_monitor (off : Addr) (j : Nat) (bytes : List Byte) (s : State) :
    (writeBlob off j bytes s).ramenSh
        = shadowAfterWrites s.cfg.ctrlRamen s.ramenSh (blobWrites s.cfg off j bytes)
      ∧ (writeBlob off j bytes s).bankSh
        = shadowAfterWrites s.cfg.ctrlBank s.bankSh (blobWrites s.cfg off j bytes)
      ∧ (writeBlob off j bytes s).pv
        = (s.pv || writesViolate s.cfg s.ramenSh s.bankSh (blobWrites s.cfg off j bytes)) := by
  induction bytes generalizing j s with
  | nil => exact ⟨rfl, rfl, (Bool.or_false _).symm⟩
  | cons v rest ih =>
    have h1 := ih (j + 1) (busWrite (blobAddr s.cfg off j) v s)
    rw [busWrite_cfg, busWrite_ramenSh, busWrite_bankSh, busWrite_pv, Bool.or_assoc] at h1
    exact h1

/-- The shadows after writes to no control address. -/
theorem shadowAfterWrites_other {ctrl : Addr} (old : Option Byte) {ws : List (Addr × Byte)}
    (h : ∀ w ∈ ws, w.1 ≠ ctrl) : shadowAfterWrites ctrl old ws = old := by
  induction ws with
  | nil => rfl
  | cons w ws ih =>
    rw [shadowAfterWrites, if_neg (h w (by simp))]
    exact ih fun w' hw' => h w' (by simp [hw'])

/-- The bytes of a blob that stays in its bank window are written inside it. -/
theorem mem_blobWrites {c : Cfg} {off : Addr} {j : Nat} {bytes : List Byte}
    (hl : off.toNat + j + bytes.length ≤ 8192) {w : Addr × Byte} (hw : w ∈ blobWrites c off j bytes) :
    ∃ o : Nat, o < 8192 ∧ w.1 = ramRelative c o := by
  induction bytes generalizing j with
  | nil => simp [blobWrites] at hw
  | cons v rest ih =>
    rw [List.length_cons] at hl
    rw [blobWrites_cons, List.mem_cons] at hw
    rcases hw with rfl | hw
    · exact ⟨off.toNat + j, by omega, blobAddr_eq_ramRelative c off j⟩
    · exact ih (by omega) hw

/-- A write that is a violation whatever the shadows makes the whole list one. -/
theorem writesViolate_of_mem {c : Cfg} {rs bs : Option Byte} {ws : List (Addr × Byte)} {w : Addr × Byte} (hw : w ∈ ws)
    (h : ∀ rs bs : Option Byte, violates c (.write w.2) w.1 rs bs = true) : writesViolate c rs bs ws = true := by
  induction ws generalizing rs bs with
  | nil => cases hw
  | cons v ws ih =>
    rw [writesViolate]
    rcases List.mem_cons.1 hw with rfl | hw
    · rw [h]; rfl
    · rw [ih hw, Bool.or_true]

/-- Writes inside the bank window are no violation while RAM is open (R67). -/
theorem writesViolate_ramRelative {c : Cfg} (hc : HasHardwareConstants c) {rs bs : Option Byte}
    {ws : List (Addr × Byte)} (h : ∀ w ∈ ws, ∃ o : Nat, o < 8192 ∧ w.1 = ramRelative c o)
    (hr : ramOpen c rs bs = true) : writesViolate c rs bs ws = false := by
  induction ws with
  | nil => rfl
  | cons w ws ih =>
    obtain ⟨o, ho, hw⟩ := h w (by simp)
    have hn := not_control_of_inTargetWindow (inTargetWindow_ramRelative hc ho)
    rw [writesViolate, hw, violates_ramRelative hc ho hr, hc.ctrlRamen, hc.ctrlBank, if_neg hn.1, if_neg hn.2,
      Bool.false_or]
    exact ih fun w' hw' => h w' (by simp [hw'])

/-- A blob that stays in its bank window leaves the shadows alone, and while RAM is open `PV` too. -/
theorem writeBlob_protocol (off : Addr) (j : Nat) (bytes : List Byte) {s : State} (hc : HasHardwareConstants s.cfg)
    (hl : off.toNat + j + bytes.length ≤ 8192) :
    (writeBlob off j bytes s).ramenSh = s.ramenSh ∧ (writeBlob off j bytes s).bankSh = s.bankSh
      ∧ (ramOpen s.cfg s.ramenSh s.bankSh = true → (writeBlob off j bytes s).pv = s.pv) := by
  have hw : ∀ w ∈ blobWrites s.cfg off j bytes, ∃ o : Nat, o < 8192 ∧ w.1 = ramRelative s.cfg o :=
    fun w hw => mem_blobWrites hl hw
  have hn : ∀ w ∈ blobWrites s.cfg off j bytes, w.1 ≠ s.cfg.ctrlRamen ∧ w.1 ≠ s.cfg.ctrlBank := by
    intro w hm
    obtain ⟨o, ho, he⟩ := hw w hm
    rw [he, hc.ctrlRamen, hc.ctrlBank]
    exact not_control_of_inTargetWindow (inTargetWindow_ramRelative hc ho)
  obtain ⟨h1, h2, h3⟩ := writeBlob_monitor off j bytes s
  refine ⟨h1.trans (shadowAfterWrites_other _ fun w hm => (hn w hm).1),
    h2.trans (shadowAfterWrites_other _ fun w hm => (hn w hm).2), fun hr => ?_⟩
  rw [h3, writesViolate_ramRelative hc hw hr, Bool.or_false]

/-- The bus writes of `PROG` for a blob, in order (42_protocol.md R71): the bank select, then every byte. -/
def programWrites (c : Cfg) (b : Blob) : List (Addr × Byte) :=
  (c.ctrlBank, b.bank) :: b.bytes.zipIdx.map (fun x => (c.ramBase + b.offset + BitVec.ofNat 16 x.2, x.1))

/-- The shadows and `PV` after `PROG`'s bank select and bytes. -/
theorem programBlob_monitor (b : Blob) (s : State) :
    (programBlob b s).ramenSh = shadowAfterWrites s.cfg.ctrlRamen s.ramenSh (programWrites s.cfg b)
      ∧ (programBlob b s).bankSh = shadowAfterWrites s.cfg.ctrlBank s.bankSh (programWrites s.cfg b)
      ∧ (programBlob b s).pv
        = (s.pv || writesViolate s.cfg s.ramenSh s.bankSh (programWrites s.cfg b)) := by
  have h1 := writeBlob_monitor b.offset 0 b.bytes (busWrite s.cfg.ctrlBank b.bank s)
  rw [busWrite_cfg, busWrite_ramenSh, busWrite_bankSh, busWrite_pv, Bool.or_assoc] at h1
  exact h1

/-- What writing a blob does to the target: one store for each byte, in order (R44, R71). -/
theorem writeBlob_stores (off : Addr) (j : Nat) (bytes : List Byte) {s : State} (hc : HasHardwareConstants s.cfg)
    (h : LinesAtRest s) (ho : s.pins.dir = .output) : (writeBlob off j bytes s).target = (bytes.zipIdx j).foldl
      (fun t x => t.store (!extended s.cfg (blobAddr s.cfg off x.2)) (blobAddr s.cfg off x.2) x.1) s.target := by
  induction bytes generalizing j s with
  | nil => rfl
  | cons v rest ih =>
    have h1 := ih (j + 1) (s := busWrite (blobAddr s.cfg off j) v s) (by rw [busWrite_cfg]; exact hc)
      (busWrite_rest h _ v) ((busWrite_dir _ v s).trans ho)
    rw [busWrite_target hc h ho, busWrite_cfg] at h1
    exact h1

/-- Where a blob's bytes land, RAM enabled and bank `b` latched at the target. -/
theorem writeBlob_target (off : Addr) (j : Nat) (bytes : List Byte) {s : State} {b : Byte}
    (hc : HasHardwareConstants s.cfg) (h : LinesAtRest s) (ho : s.pins.dir = .output) (hm : MemoryCanonical s) (hl : off.toNat + j + bytes.length ≤ 8192)
    (hb : b.toNat < 4) (ht : s.target.ten = some Config.enableCode) (htb : s.target.tbank = some b) :
    (∀ (i : Nat) (v : Byte), bytes[i]? = some v →
        (writeBlob off j bytes s).target.byteAt (b.toNat * 8192 + (off.toNat + (j + i))) = v)
      ∧ (∀ loc : Nat,
          (∀ i : Nat, i < bytes.length → loc ≠ b.toNat * 8192 + (off.toNat + (j + i))) →
          (writeBlob off j bytes s).target.byteAt loc = s.target.byteAt loc)
      ∧ (writeBlob off j bytes s).target.ten = some Config.enableCode
      ∧ (writeBlob off j bytes s).target.tbank = some b := by
  induction bytes generalizing j s with
  | nil => exact ⟨fun i v hv => by simp at hv, fun _ _ => rfl, ht, htb⟩
  | cons v rest ih =>
    rw [List.length_cons] at hl
    have hj : off.toNat + j < 8192 := by omega
    have hw := busWrite_ramRelative hc h ho v hj hb ht htb
    have hm' : MemoryCanonical (busWrite (ramRelative s.cfg (off.toNat + j)) v s) := by
      unfold MemoryCanonical
      rw [busWrite_target hc h ho]
      exact Target.store_wf hm
    have h1 := ih (j + 1) (s := busWrite (ramRelative s.cfg (off.toNat + j)) v s) (by rw [busWrite_cfg]; exact hc)
      (busWrite_rest h _ v) ((busWrite_dir _ v s).trans ho) hm' (by omega) (by rw [hw]; exact ht)
      (by rw [hw]; exact htb)
    rw [writeBlob, blobAddr_eq_ramRelative]
    obtain ⟨h2, h3, h4, h5⟩ := h1
    refine ⟨fun i w hi => ?_, fun loc hloc => ?_, h4, h5⟩
    · cases i with
      | zero =>
        rw [List.getElem?_cons_zero, Option.some.injEq] at hi
        rw [h3 _ (fun i _ => by omega), hw, Nat.add_zero, Target.byteAt_write_same hm, hi]
      | succ i =>
        rw [List.getElem?_cons_succ] at hi
        have := h2 i w hi
        rwa [show j + 1 + i = j + (i + 1) by omega] at this
    · rw [h3 loc (fun i hi => by
        have := hloc (i + 1) (by rw [List.length_cons]; omega)
        rwa [show j + (i + 1) = j + 1 + i by omega] at this), hw, Target.byteAt_write_other]
      have := hloc 0 (by rw [List.length_cons]; omega)
      rwa [Nat.add_zero] at this

end Sys2Proof.Machine
end

