-- ==== Sys2Proof/Laws/Checksum.lean ====
section
/-! SUPPORT. What the range reads of the checksum do (43_checksum.md R76, R77), said once: the bytes they take, what
they leave alone, the accumulator they end with, and that no part of them depends on `CP`. -/

namespace Sys2Proof.Machine

/-! ## A read cycle -/

/-- What a read cycle leaves alone, whatever the lines. -/
theorem busRead_frame (a : Addr) (s : State) :
    (busRead a s).2 = { s with
      pins := (busRead a s).2.pins
      trace := (busRead a s).2.trace
      target := (busRead a s).2.target
      pv := (busRead a s).2.pv
      inputs := (busRead a s).2.inputs
      draws := (busRead a s).2.draws } := by
  have h1 := busRead_ramenSh a s
  have h2 := busRead_bankSh a s
  have h3 := busRead_rdata a s
  have h4 := busRead_acc a s
  have h5 := busRead_cp a s
  have h6 := busRead_mode a s
  have h7 := busRead_fcode a s
  have h8 := busRead_fcp a s
  have h9 := busRead_fword a s
  have h10 := busRead_cfg a s
  have h11 := busRead_program a s
  have h12 := busRead_checkPending a s
  have h13 := busRead_oracle a s
  generalize (busRead a s).2 = t at *
  cases t
  simp_all

theorem emit_setCp (e : Event) (s : State) (n : Nat) : emit e { s with cp := n } = { emit e s with cp := n } := rfl

theorem emitAll_setCp (es : List Event) (s : State) (n : Nat) :
    emitAll es { s with cp := n } = { emitAll es s with cp := n } := by
  rw [emitAll_eq, emitAll_eq]

/-- A read cycle does not depend on `CP`. -/
theorem busRead_setCp (a : Addr) (s : State) (n : Nat) :
    busRead a { s with cp := n } = ((busRead a s).1, { (busRead a s).2 with cp := n }) := by
  have ho : ∀ u : State, oracleByte { u with cp := n } = ((oracleByte u).1, { (oracleByte u).2 with cp := n }) := by
    intro u
    unfold oracleByte draw
    have ht : targetAnswer { u with cp := n } = targetAnswer u := rfl
    rw [ht]
    split
    · rfl
    · dsimp only
      split <;> rfl
  unfold busRead sample
  generalize readTail s.cfg a = f
  dsimp only
  generalize readHead s.cfg a = g
  rw [emitAll_setCp g s n, ho (emitAll g s)]
  generalize oracleByte (emitAll g s) = r
  dsimp only
  rw [emit_setCp _ r.2 n, emitAll_setCp f (emit (.sample r.1) r.2) n]
  rfl

/-- A write cycle does not depend on `CP`. -/
theorem busWrite_setCp (a : Addr) (d : Byte) (s : State) (n : Nat) :
    busWrite a d { s with cp := n } = { busWrite a d s with cp := n } := by
  unfold busWrite
  dsimp only
  generalize writeEvents s.cfg a d = es
  rw [emitAll_setCp es s n]
  rfl

/-! ## The range reads -/

theorem subtractRange_setCp (as : List Addr) (c : Byte) (s : State) (n : Nat) :
    subtractRange as c { s with cp := n }
      = ((subtractRange as c s).1, { (subtractRange as c s).2 with cp := n }) := by
  induction as generalizing c s with
  | nil => rfl
  | cons a rest ih =>
    simp only [subtractRange]
    rw [busRead_setCp a s n]
    generalize busRead a s = r
    exact ih (accMinus c r.1) { r.2 with acc := some (accMinus c r.1) }

/-- What the range reads leave alone, whatever the lines. -/
theorem subtractRange_frame (as : List Addr) (c : Byte) (s : State) :
    (subtractRange as c s).2 = { s with
      pins := (subtractRange as c s).2.pins
      trace := (subtractRange as c s).2.trace
      target := (subtractRange as c s).2.target
      acc := (subtractRange as c s).2.acc
      pv := (subtractRange as c s).2.pv
      inputs := (subtractRange as c s).2.inputs
      draws := (subtractRange as c s).2.draws } := by
  induction as generalizing c s with
  | nil => rfl
  | cons a rest ih =>
    simp only [subtractRange]
    have h1 := busRead_frame a s
    generalize busRead a s = r at h1 ⊢
    have h2 := ih (accMinus c r.1) { r.2 with acc := some (accMinus c r.1) }
    generalize subtractRange rest (accMinus c r.1) { r.2 with acc := some (accMinus c r.1) } = q at h2 ⊢
    rw [h2]
    generalize r.2 = t at h1 ⊢
    rw [h1]

/-- The range reads keep the LED, whatever the lines. -/
theorem subtractRange_led (as : List Addr) (c : Byte) (s : State) :
    (subtractRange as c s).2.pins.led = s.pins.led := by
  induction as generalizing c s with
  | nil => rfl
  | cons a rest ih =>
    have h := busRead_led a s
    simp only [subtractRange]
    generalize busRead a s = r at h ⊢
    rw [ih]
    exact h

/-- The range reads set `PV` exactly when one of them is a violation; they leave the shadows alone. -/
theorem subtractRange_pv (as : List Addr) (c : Byte) (s : State) :
    (subtractRange as c s).2.pv = (s.pv || as.any (fun a => violates s.cfg .read a s.ramenSh s.bankSh)) := by
  induction as generalizing c s with
  | nil => exact (Bool.or_false _).symm
  | cons a rest ih =>
    have h1 := busRead_pv a s
    have h2 := busRead_ramenSh a s
    have h3 := busRead_bankSh a s
    have h4 := busRead_cfg a s
    simp only [subtractRange]
    generalize busRead a s = r at h1 h2 h3 h4 ⊢
    rw [ih]
    dsimp only
    rw [h1, h2, h3, h4, List.any_cons, Bool.or_assoc]

theorem subtractRange_acc (as : List Addr) (c : Byte) {s : State} (h : s.acc = some c) :
    (subtractRange as c s).2.acc = some (subtractRange as c s).1 := by
  induction as generalizing c s with
  | nil => exact h
  | cons a rest ih =>
    rw [subtractRange]
    exact ih _ rfl

theorem accMinus_byteSum (c v : Byte) (vs : List Byte) : accMinus c v - byteSum vs = c - byteSum (v :: vs) := by
  have : byteSum (v :: vs) = v + byteSum vs := rfl
  rw [this, accMinus]
  bv_omega

/-- The range reads, whatever the lines: one byte for each address, in order, and what is on the trace. -/
theorem subtractRange_trace (as : List Addr) (c : Byte) (s : State) :
    ∃ vs : List Byte, vs.length = as.length ∧ (subtractRange as c s).1 = c - byteSum vs
      ∧ (subtractRange as c s).2.trace
          = ((as.zip vs).flatMap (fun x => readEvents s.cfg x.1 x.2)).reverse ++ s.trace := by
  induction as generalizing c s with
  | nil => exact ⟨[], rfl, by simp [subtractRange, byteSum], rfl⟩
  | cons a rest ih =>
    have htr := busRead_trace a s
    have hc := busRead_cfg a s
    simp only [subtractRange]
    generalize busRead a s = r at *
    obtain ⟨vs, h1, h2, h3⟩ := ih (accMinus c r.1) { r.2 with acc := some (accMinus c r.1) }
    refine ⟨r.1 :: vs, by simp [h1], by rw [h2, accMinus_byteSum], ?_⟩
    rw [h3]
    dsimp only
    rw [htr, hc]
    simp

/-- From lines at rest the range reads leave the lines but `SER` and `SR`, and the target, as they were. -/
theorem subtractRange_lines (as : List Addr) (c : Byte) {s : State} (h : LinesAtRest s) :
    (∃ (ser : Bool) (sr : Addr), (subtractRange as c s).2.pins = { s.pins with ser := ser, sr := sr })
      ∧ (subtractRange as c s).2.target = s.target := by
  induction as generalizing c s with
  | nil => exact ⟨⟨_, _, rfl⟩, rfl⟩
  | cons a rest ih =>
    have hr := busRead_rest h a
    have hp := (busRead_pins_eq a s).trans (Pins.applyAll_readEvents_cfg h s.cfg a _)
    have ht := busRead_target h a
    simp only [subtractRange]
    generalize busRead a s = r at *
    obtain ⟨⟨x, y, h4⟩, h5⟩ := ih (accMinus c r.1) (s := { r.2 with acc := some (accMinus c r.1) }) hr
    exact ⟨⟨x, y, by rw [h4]; dsimp only; rw [hp]⟩, h5.trans ht⟩

/-- The range reads under a free oracle, or of addresses that reach nothing in the target's RAM: they use the
environment's answers in order as far as these go, then free values, each counted (R26). -/
theorem subtractRange_env (as : List Addr) (c : Byte) {s : State} (hc : HasHardwareConstants s.cfg)
    (h : LinesAtRest s) (hi : s.pins.dir = .input)
    (hf : ∀ a ∈ as, s.oracle = .free ∨ s.target.location (!extended s.cfg a) a = none) :
    ∃ vs : List Byte, vs.length = as.length ∧ vs.take s.inputs.length = s.inputs.take as.length
      ∧ (subtractRange as c s).1 = c - byteSum vs
      ∧ (subtractRange as c s).2.inputs = s.inputs.drop as.length
      ∧ (subtractRange as c s).2.draws = s.draws + (as.length - s.inputs.length) := by
  induction as generalizing c s with
  | nil => exact ⟨[], rfl, by simp, by simp [subtractRange, byteSum], rfl, by simp [subtractRange]⟩
  | cons a as ih =>
    have hr := busRead_rest h a
    have hd := (busRead_dir a s).trans hi
    have hor := busRead_oracle a s
    have htg := busRead_target h a
    have hcf := busRead_cfg a s
    have hin : (∃ v rest, s.inputs = v :: rest ∧ (busRead a s).1 = v ∧ (busRead a s).2.inputs = rest
          ∧ (busRead a s).2.draws = s.draws)
        ∨ (s.inputs = [] ∧ (busRead a s).2.inputs = [] ∧ (busRead a s).2.draws = s.draws + 1) := by
      cases hs : s.inputs with
      | nil => exact .inr ⟨rfl, (busRead_value_free hc h hi (hf a (by simp)) hs).2⟩
      | cons v rest => exact .inl ⟨v, rest, rfl, busRead_value_input hc h hi (hf a (by simp)) hs⟩
    simp only [subtractRange]
    generalize busRead a s = r at *
    obtain ⟨vs, h1, h2, h3, h4, h5⟩ := ih (accMinus c r.1) (s := { r.2 with acc := some (accMinus c r.1) })
      (by dsimp only; rw [hcf]; exact hc) hr hd
      (fun b hb => by dsimp only; rw [hor, htg, hcf]; exact hf b (by simp [hb]))
    refine ⟨r.1 :: vs, by simp [h1], ?_, by rw [h3, accMinus_byteSum], ?_, ?_⟩
    all_goals
      dsimp only at h2 h4 h5
      rcases hin with ⟨v, rest, e1, e2, e3, e4⟩ | ⟨e1, e3, e4⟩
    · rw [e1, e2]; rw [e3] at h2; simp [h2]
    · rw [e1]; simp
    · rw [h4, e1, e3]; simp
    · rw [h4, e1, e3]; simp
    · rw [h5, e1, e3, e4]; simp
    · rw [h5, e1, e3, e4]; simp; omega

/-- Under the reference target, RAM enabled and an existing bank latched, the range reads subtract the bytes of that
bank, and violate nothing while RAM is open. -/
theorem subtractRange_target (os : List Nat) (c : Byte) {s : State} {b : Byte} {k : Cfg} (hk : s.cfg = k)
    (hc : HasHardwareConstants k) (h : LinesAtRest s)
    (hi : s.pins.dir = .input) (hor : s.oracle = .target) (hos : ∀ o ∈ os, o < 8192) (hb : b.toNat < 4)
    (ht : s.target.ten = some Config.enableCode) (htb : s.target.tbank = some b) :
    (subtractRange (os.map (ramRelative k)) c s).1
        = c - byteSum (os.map (fun o => s.target.byteAt (b.toNat * 8192 + o)))
      ∧ (ramOpen k s.ramenSh s.bankSh = true → (subtractRange (os.map (ramRelative k)) c s).2.pv = s.pv)
      ∧ (subtractRange (os.map (ramRelative k)) c s).2.inputs = s.inputs
      ∧ (subtractRange (os.map (ramRelative k)) c s).2.draws = s.draws := by
  induction os generalizing c s with
  | nil => exact ⟨by simp [subtractRange, byteSum], fun _ => rfl, rfl, rfl⟩
  | cons o rest ih =>
    have ho := hos o (by simp)
    have hc' : HasHardwareConstants s.cfg := hk ▸ hc
    have hl := Target.location_ramRelative hc ho hb ht htb
    rw [← hk] at hl
    obtain ⟨hv, hin, hdr⟩ := busRead_value_target hc' h hi hor hl
    have hr := busRead_rest h (ramRelative s.cfg o)
    have hd := (busRead_dir (ramRelative s.cfg o) s).trans hi
    have hor' := (busRead_oracle (ramRelative s.cfg o) s).trans hor
    have htg := busRead_target h (ramRelative s.cfg o)
    have hpv := busRead_pv (ramRelative s.cfg o) s
    have hs1 := busRead_ramenSh (ramRelative s.cfg o) s
    have hs2 := busRead_bankSh (ramRelative s.cfg o) s
    have hcf := busRead_cfg (ramRelative s.cfg o) s
    simp only [List.map_cons, subtractRange]
    rw [hk] at *
    generalize busRead (ramRelative k o) s = r at *
    have h1 := ih (accMinus c r.1) (s := { r.2 with acc := some (accMinus c r.1) }) hcf hr hd hor'
      (fun o' ho' => hos o' (by simp [ho'])) (by dsimp only; rw [htg]; exact ht) (by dsimp only; rw [htg]; exact htb)
    have htg' : ({ r.2 with acc := some (accMinus c r.1) } : State).target = s.target := htg
    rw [htg'] at h1
    refine ⟨by rw [h1.1, hv, accMinus_byteSum], fun hro => ?_, h1.2.2.1.trans hin, h1.2.2.2.trans hdr⟩
    rw [h1.2.1 (by rw [hs1, hs2]; exact hro), hpv, violates_ramRelative hc ho hro, Bool.or_false]

/-! ## The whole of `CHKSUM` past its check -/

/-- The state after steps 1 and 2 of `CHKSUM` (R76): `DIR = IN`, `ACC` at `CHK_INIT`. -/
def checksumStart (s : State) : State := { emit (.dir .input) s with acc := some s.cfg.chkInit }

@[simp] theorem checksumStart_cfg (s : State) : (checksumStart s).cfg = s.cfg := rfl
@[simp] theorem checksumStart_dir (s : State) : (checksumStart s).pins.dir = .input := rfl
@[simp] theorem checksumStart_acc (s : State) : (checksumStart s).acc = some s.cfg.chkInit := rfl
@[simp] theorem checksumStart_target (s : State) : (checksumStart s).target = s.target := rfl
@[simp] theorem checksumStart_oracle (s : State) : (checksumStart s).oracle = s.oracle := rfl
@[simp] theorem checksumStart_inputs (s : State) : (checksumStart s).inputs = s.inputs := rfl
@[simp] theorem checksumStart_draws (s : State) : (checksumStart s).draws = s.draws := rfl
@[simp] theorem checksumStart_pv (s : State) : (checksumStart s).pv = s.pv := rfl
@[simp] theorem checksumStart_ramenSh (s : State) : (checksumStart s).ramenSh = s.ramenSh := rfl
@[simp] theorem checksumStart_bankSh (s : State) : (checksumStart s).bankSh = s.bankSh := rfl
theorem checksumStart_rest {s : State} (h : LinesAtRest s) : LinesAtRest (checksumStart s) := h

/-- The outcome of step 3 of `CHKSUM`: the value `ACC` ends with, and the state. -/
def checksumReads (s : State) : Byte × State := subtractRange (chkRange s.cfg) s.cfg.chkInit (checksumStart s)

/-- The five steps of `CHKSUM` in terms of its range reads. -/
theorem checksumBody_eq (s : State) : checksumBody s
    = busWrite (chkWriteAddr s.cfg) (checksumReads s).1 (emit (.dir .output) (checksumReads s).2) := rfl

/-- What the range reads leave alone. -/
theorem checksumReads_frame (s : State) : (checksumReads s).2 = { s with
      pins := (checksumReads s).2.pins
      trace := (checksumReads s).2.trace
      target := (checksumReads s).2.target
      acc := (checksumReads s).2.acc
      pv := (checksumReads s).2.pv
      inputs := (checksumReads s).2.inputs
      draws := (checksumReads s).2.draws } := subtractRange_frame (chkRange s.cfg) s.cfg.chkInit (checksumStart s)

@[simp] theorem checksumReads_cfg (s : State) : (checksumReads s).2.cfg = s.cfg := by rw [checksumReads_frame]
@[simp] theorem checksumReads_ramenSh (s : State) : (checksumReads s).2.ramenSh = s.ramenSh := by
  rw [checksumReads_frame]
@[simp] theorem checksumReads_bankSh (s : State) : (checksumReads s).2.bankSh = s.bankSh := by
  rw [checksumReads_frame]
@[simp] theorem checksumReads_rdata (s : State) : (checksumReads s).2.rdata = s.rdata := by rw [checksumReads_frame]
@[simp] theorem checksumReads_cp (s : State) : (checksumReads s).2.cp = s.cp := by rw [checksumReads_frame]
@[simp] theorem checksumReads_mode (s : State) : (checksumReads s).2.mode = s.mode := by rw [checksumReads_frame]
@[simp] theorem checksumReads_fcode (s : State) : (checksumReads s).2.fcode = s.fcode := by rw [checksumReads_frame]
@[simp] theorem checksumReads_fcp (s : State) : (checksumReads s).2.fcp = s.fcp := by rw [checksumReads_frame]
@[simp] theorem checksumReads_fword (s : State) : (checksumReads s).2.fword = s.fword := by rw [checksumReads_frame]
@[simp] theorem checksumReads_acc (s : State) : (checksumReads s).2.acc = some (checksumReads s).1 :=
  subtractRange_acc (chkRange s.cfg) s.cfg.chkInit (s := checksumStart s) rfl
@[simp] theorem checksumReads_led (s : State) : (checksumReads s).2.pins.led = s.pins.led :=
  subtractRange_led (chkRange s.cfg) s.cfg.chkInit (checksumStart s)

/-- The lines and the target before the write of step 5, from lines at rest. -/
theorem checksumReads_lines {s : State} (h : LinesAtRest s) :
    (∃ (ser : Bool) (sr : Addr), (checksumReads s).2.pins = { s.pins with ser := ser, sr := sr, dir := .input })
      ∧ (checksumReads s).2.target = s.target ∧ LinesAtRest (emit (.dir .output) (checksumReads s).2) := by
  obtain ⟨⟨x, y, h1⟩, h2⟩ := subtractRange_lines (chkRange s.cfg) s.cfg.chkInit (checksumStart_rest h)
  have h3 : (checksumReads s).2.pins = { s.pins with ser := x, sr := y, dir := .input } := h1
  refine ⟨⟨x, y, h3⟩, h2, ?_⟩
  unfold LinesAtRest
  rw [emit_pins, h3]
  exact h

/-- `PV` after the range reads. -/
theorem checksumReads_pv (s : State) : (checksumReads s).2.pv
    = (s.pv || (chkRange s.cfg).any (fun a => violates s.cfg .read a s.ramenSh s.bankSh)) :=
  subtractRange_pv (chkRange s.cfg) s.cfg.chkInit (checksumStart s)

/-- The range reads as bytes and events. -/
theorem checksumReads_trace (s : State) : ∃ vs : List Byte, vs.length = s.cfg.chkEnd - s.cfg.chkStart
    ∧ (checksumReads s).1 = s.cfg.chkInit - byteSum vs
    ∧ (checksumReads s).2.trace = ((chkRange s.cfg).zip vs |>.flatMap (fun x => readEvents s.cfg x.1 x.2)).reverse
        ++ .dir .input :: s.trace := by
  obtain ⟨vs, h1, h2, h3⟩ := subtractRange_trace (chkRange s.cfg) s.cfg.chkInit (checksumStart s)
  exact ⟨vs, by simpa [chkRange] using h1, h2, h3⟩

/-- The range reads under a free oracle, or where no address of the range reaches the target's RAM (R26). -/
theorem checksumReads_free {s : State} (hc : HasHardwareConstants s.cfg) (h : LinesAtRest s)
    (hf : ∀ a ∈ chkRange s.cfg, s.oracle = .free ∨ s.target.location (!extended s.cfg a) a = none) :
    ∃ vs : List Byte, vs.length = s.cfg.chkEnd - s.cfg.chkStart
      ∧ vs.take s.inputs.length = s.inputs.take (s.cfg.chkEnd - s.cfg.chkStart)
      ∧ (checksumReads s).1 = s.cfg.chkInit - byteSum vs
      ∧ (checksumReads s).2.inputs = s.inputs.drop (s.cfg.chkEnd - s.cfg.chkStart)
      ∧ (checksumReads s).2.draws = s.draws + (s.cfg.chkEnd - s.cfg.chkStart - s.inputs.length) := by
  have hl : (chkRange s.cfg).length = s.cfg.chkEnd - s.cfg.chkStart := by simp [chkRange]
  have h1 := subtractRange_env (chkRange s.cfg) s.cfg.chkInit (s := checksumStart s) hc (checksumStart_rest h) rfl hf
  rwa [hl] at h1

/-- The range reads under the reference target, RAM enabled and an existing bank latched (R45, R77). -/
theorem checksumReads_bank {s : State} {b : Byte} (hc : HasHardwareConstants s.cfg) (h : LinesAtRest s)
    (hor : s.oracle = .target) (he : s.cfg.chkEnd ≤ 8192) (hb : b.toNat < 4) (ht : s.target.ten = some Config.enableCode)
    (htb : s.target.tbank = some b) :
    (checksumReads s).1 = s.cfg.chkInit - byteSum ((List.range' s.cfg.chkStart (s.cfg.chkEnd - s.cfg.chkStart)).map
        (fun o => s.target.byteAt (b.toNat * 8192 + o)))
      ∧ (ramOpen s.cfg s.ramenSh s.bankSh = true → (checksumReads s).2.pv = s.pv)
      ∧ (checksumReads s).2.inputs = s.inputs ∧ (checksumReads s).2.draws = s.draws :=
  subtractRange_target _ s.cfg.chkInit (s := checksumStart s) rfl hc (checksumStart_rest h) rfl hor
    (fun o ho => by rw [List.mem_range'_1] at ho; omega) hb ht htb

/-- What the write of step 5 leaves of `ACC` and of the environment's answers. -/
theorem checksumBody_env (s : State) : (checksumBody s).acc = some (checksumReads s).1
    ∧ (checksumBody s).inputs = (checksumReads s).2.inputs ∧ (checksumBody s).draws = (checksumReads s).2.draws := by
  rw [checksumBody_eq]
  generalize hr : checksumReads s = r
  have h := checksumReads_acc s
  rw [hr] at h
  simpa using h

/-! ## Lists of commands -/

/-- `ACCST` past its checks (R75). -/
theorem exec_accst {a : Addr} {c : Byte} {s : State} (hd : s.pins.dir = .output) (ha : s.acc = some c) :
    exec (.accst a) s = .next (advance (busWrite a c s)) := by
  simp [exec, execAccst, hd, ha]

/-- `ACCSUB` past its checks (R74). -/
theorem exec_accsub {a : Addr} {c : Byte} {s : State} (hd : s.pins.dir = .input) (ha : s.acc = some c) :
    exec (.accsub a) s = .next (advance (subtractRead a c s)) := by
  simp [exec, execAccsub, hd, ha]

/-- A command that leaves the sequencer running goes on to the rest. -/
theorem runCommands_next {i : Instr} {rest : List Instr} {s t : State} (h : exec i s = .next t) (hm : t.mode = .run) :
    runCommands (i :: rest) s = runCommands rest t := by
  simp [runCommands, h, hm]

/-- The last command of a list. -/
theorem runCommands_last {i : Instr} {s t : State} (h : exec i s = .next t) : runCommands [i] s = t := by
  simp [runCommands, h]

/-- `ACCSUB` for each address of a list is the range reads, `CP` counted on. -/
theorem runCommands_accsubs (as : List Addr) (c : Byte) (tail : List Instr) {s : State} (hi : s.pins.dir = .input)
    (hm : s.mode = .run) (ha : s.acc = some c) :
    runCommands (as.map .accsub ++ tail) s
      = runCommands tail { (subtractRange as c s).2 with cp := s.cp + as.length } := by
  induction as generalizing c s with
  | nil => rfl
  | cons a rest ih =>
    have hx : exec (.accsub a) s = .next (advance (subtractRead a c s)) := exec_accsub hi ha
    have hmode : (advance (subtractRead a c s)).mode = .run := by simp [subtractRead, hm]
    have hcp : (subtractRead a c s).cp = s.cp := by simp [subtractRead]
    have hd : (subtractRead a c s).pins.dir = .input := by simp [subtractRead, hi]
    have hs : subtractRange (a :: rest) c s = subtractRange rest (accMinus c (busRead a s).1) (subtractRead a c s) := rfl
    have hacc : (subtractRead a c s).acc = some (accMinus c (busRead a s).1) := rfl
    rw [List.map_cons, List.cons_append, runCommands_next hx hmode, hs]
    clear hs hx
    generalize subtractRead a c s = t at hmode hcp hd hacc ⊢
    rw [ih (accMinus c (busRead a s).1) (s := advance t) hd hmode hacc]
    have hk : (advance t).cp + rest.length = s.cp + (a :: rest).length := by
      rw [advance_cp, hcp, List.length_cons]; omega
    rw [hk, advance, subtractRange_setCp _ _ t]

end Sys2Proof.Machine
end

