-- ==== Sys2Proof/Laws/Commands.lean ====
section
/-! SUPPORT. A command is its first failing check, else its effect (60_exceptions.md R87): said once for all
commands, with what no effect writes and which halts are on the trace. -/

namespace Sys2Proof.Machine

/-- What a command does once its checks are past. -/
def effect (i : Instr) (s : State) : State :=
  match i with
  | .shift a => advance (emitAll (shiftEvents s.cfg a) s)
  | .bwr a d => advance (busWrite a d s)
  | .brd a => advance { (busRead a s).2 with rdata := some (busRead a s).1 }
  | .dirin => advance (emit (.dir .input) s)
  | .dirout => advance (emit (.dir .output) s)
  | .accinit c => advance { s with acc := some c }
  | .accsub a => advance (subtractRead a (s.acc.getD 0) s)
  | .accst a => advance (busWrite a (s.acc.getD 0) s)
  | .prog k => advance (programBlob (s.cfg.blobs.getD k.toNat ⟨0, 0, []⟩) s)
  | .chksum => advance (checksumBody s)
  | .done => emit (.halt .done) { emit (.set .led true) s with mode := .done }
  | .panic => enterPanic s
  | .ramen => advance (busWrite s.cfg.ctrlRamen s.cfg.enableCode s)
  | .ramdis => advance (busWrite s.cfg.ctrlRamen s.cfg.disableCode s)
  | .selbank n => advance (busWrite s.cfg.ctrlBank n s)

/-- Every command: its first failing check raised, else its effect. -/
theorem exec_eq (i : Instr) (s : State) : exec i s = .next
    (match commandFault i s with
      | some f => raiseFault f (encode i) s
      | none => effect i s) := by
  cases i with
  | shift a => rfl
  | bwr a d =>
    cases h : s.pins.dir <;>
      simp [exec, execBwr, writeCommand, h, commandFault, commandChecks, badBlob, startsWrite, startsRead, readsAcc, effect]
  | brd a =>
    cases h : s.pins.dir <;>
      simp [exec, execBrd, h, commandFault, commandChecks, badBlob, startsWrite, startsRead, readsAcc, effect]
  | dirin => rfl
  | dirout => rfl
  | accinit c => rfl
  | accsub a =>
    cases h : s.pins.dir <;> cases ha : s.acc <;>
      simp [exec, execAccsub, h, ha, commandFault, commandChecks, badBlob, startsWrite, startsRead, readsAcc, effect]
  | accst a =>
    cases h : s.pins.dir <;> cases ha : s.acc <;>
      simp [exec, execAccst, h, ha, commandFault, commandChecks, badBlob, startsWrite, startsRead, readsAcc, effect]
  | prog k =>
    cases hb : s.cfg.blobs[k.toNat]? with
    | none =>
      have hl := List.getElem?_eq_none_iff.1 hb
      simp [exec, execProg, hl, commandFault, commandChecks, badBlob]
    | some b =>
      obtain ⟨hl, -⟩ := List.getElem?_eq_some_iff.1 hb
      have hn : ¬ s.cfg.blobs.length ≤ k.toNat := by omega
      cases h : s.pins.dir <;>
        simp [exec, execProg, hb, h, hn, commandFault, commandChecks, badBlob, startsWrite, startsRead, readsAcc, effect]
  | chksum =>
    by_cases h : s.bankSh = some s.cfg.chkBank <;>
      simp [exec, execChksum, h, commandFault, commandChecks, badBlob, startsWrite, startsRead, readsAcc, effect]
  | done => rfl
  | panic => rfl
  | ramen =>
    cases h : s.pins.dir <;>
      simp [exec, execRamen, writeCommand, h, commandFault, commandChecks, badBlob, startsWrite, startsRead, readsAcc, effect]
  | ramdis =>
    cases h : s.pins.dir <;>
      simp [exec, execRamdis, writeCommand, h, commandFault, commandChecks, badBlob, startsWrite, startsRead, readsAcc, effect]
  | selbank n =>
    cases h : s.pins.dir <;>
      simp [exec, execSelbank, writeCommand, h, commandFault, commandChecks, badBlob, startsWrite, startsRead, readsAcc, effect]

/-- A next state is a fault entry or the effect. -/
theorem exec_cases {i : Instr} {s t : State} (h : exec i s = .next t) :
    (∃ f, commandFault i s = some f ∧ t = raiseFault f (encode i) s) ∨ (commandFault i s = none ∧ t = effect i s) := by
  rw [exec_eq] at h
  split at h
  · cases h; exact .inl ⟨_, ‹_›, rfl⟩
  · cases h; exact .inr ⟨‹_›, rfl⟩

/-- The fault a command raises belongs to a check of its list that fails. -/
theorem mem_of_commandFault {i : Instr} {s : State} {f : FaultCode} (h : commandFault i s = some f) :
    (f, true) ∈ commandChecks i s := by
  obtain ⟨⟨g, b⟩, hc, rfl⟩ := Option.map_eq_some_iff.1 h
  have hb : b = true := List.find?_some hc
  subst hb
  exact List.mem_of_find?_eq_some hc

/-- `BAD_BLOB_INDEX` is raised only for a blob that does not exist (R86). -/
theorem badBlob_of_commandFault {i : Instr} {s : State} (h : commandFault i s = some .badBlobIndex) :
    badBlob i s = true := by
  simpa [commandChecks] using mem_of_commandFault h

/-! ## The halts on the trace -/

/-- The mode an event halts with. -/
def haltOf (e : Event) : Option Mode :=
  match e with
  | .halt m => some m
  | .set _ _ => none
  | .drive _ => none
  | .dir _ => none
  | .delay _ => none
  | .sample _ => none

/-- The modes a list of events halts with. -/
def halts (es : List Event) : List Mode := es.filterMap haltOf

theorem mem_halts {m : Mode} {es : List Event} : m ∈ halts es ↔ Event.halt m ∈ es := by
  rw [halts, List.mem_filterMap]
  constructor
  · rintro ⟨e, he, hm⟩
    cases e <;> simp_all [haltOf]
  · exact fun h => ⟨_, h, rfl⟩

@[simp] theorem halts_append (xs ys : List Event) : halts (xs ++ ys) = halts xs ++ halts ys := List.filterMap_append

@[simp] theorem halts_reverse (xs : List Event) : halts xs.reverse = (halts xs).reverse := by
  rw [halts, List.filterMap_reverse, ← halts]

theorem halts_nil_of_all {es : List Event} (h : es.all (fun e => (haltOf e).isNone) = true) : halts es = [] := by
  rw [halts, List.filterMap_eq_nil_iff]
  intro e he
  simpa using List.all_eq_true.1 h e he

@[simp] theorem halts_shiftEvents (c : Cfg) (a : Addr) : halts (shiftEvents c a) = [] :=
  halts_nil_of_all (by simp [shiftEvents, shiftBit, haltOf, List.all_flatMap])

@[simp] theorem halts_selectEvents (c : Cfg) (a : Addr) (v : Bool) : halts (selectEvents c a v) = [] := by
  unfold selectEvents; split <;> rfl

@[simp] theorem halts_writeEvents (c : Cfg) (a : Addr) (d : Byte) : halts (writeEvents c a d) = [] := by
  simp only [writeEvents, halts_append, halts_shiftEvents, halts_selectEvents]; rfl

@[simp] theorem halts_readEvents (c : Cfg) (a : Addr) (v : Byte) : halts (readEvents c a v) = [] := by
  simp only [readEvents, readHead, readTail, halts_append, halts_shiftEvents, halts_selectEvents]; rfl

@[simp] theorem halts_busWrite (a : Addr) (d : Byte) (s : State) : halts (busWrite a d s).trace = halts s.trace := by
  rw [busWrite_trace]; simp

@[simp] theorem halts_busRead (a : Addr) (s : State) : halts (busRead a s).2.trace = halts s.trace := by
  rw [busRead_trace]; simp

theorem halts_writeBlob (off : Addr) (j : Nat) (bytes : List Byte) (s : State) :
    halts (writeBlob off j bytes s).trace = halts s.trace := by
  induction bytes generalizing j s with
  | nil => rfl
  | cons v rest ih => rw [writeBlob, ih, halts_busWrite]

theorem halts_subtractRange (as : List Addr) (c : Byte) (s : State) :
    halts (subtractRange as c s).2.trace = halts s.trace := by
  induction as generalizing c s with
  | nil => rfl
  | cons a rest ih =>
    have h1 := halts_busRead a s
    simp only [subtractRange]
    generalize busRead a s = r at h1 ⊢
    rw [ih]
    exact h1

/-! ## What no effect writes -/

/-- The parts of the state that no command's effect writes: the fault record, the parameters, the pending check and
the choice of oracle. -/
structure Kept (s t : State) : Prop where
  fcode : t.fcode = s.fcode
  fcp : t.fcp = s.fcp
  fword : t.fword = s.fword
  cfg : t.cfg = s.cfg
  program : t.program = s.program
  checkPending : t.checkPending = s.checkPending
  oracle : t.oracle = s.oracle

/-- An operation that keeps the sequencer's own registers too. -/
structure KeptSeq (s t : State) : Prop extends Kept s t where
  cp : t.cp = s.cp
  mode : t.mode = s.mode
  halts : halts t.trace = halts s.trace

theorem KeptSeq.trans {s t u : State} (h : KeptSeq s t) (k : KeptSeq t u) : KeptSeq s u where
  fcode := k.fcode.trans h.fcode
  fcp := k.fcp.trans h.fcp
  fword := k.fword.trans h.fword
  cfg := k.cfg.trans h.cfg
  program := k.program.trans h.program
  checkPending := k.checkPending.trans h.checkPending
  oracle := k.oracle.trans h.oracle
  cp := k.cp.trans h.cp
  mode := k.mode.trans h.mode
  halts := k.halts.trans h.halts

/-- An operation followed by a new value of `ACC` or `RDATA`. -/
theorem KeptSeq.setData {s t : State} (h : KeptSeq s t) (v w : Option Byte) :
    KeptSeq s { t with acc := v, rdata := w } where
  fcode := h.fcode
  fcp := h.fcp
  fword := h.fword
  cfg := h.cfg
  program := h.program
  checkPending := h.checkPending
  oracle := h.oracle
  cp := h.cp
  mode := h.mode
  halts := h.halts

theorem kept_emit {e : Event} (h : haltOf e = none) (s : State) : KeptSeq s (emit e s) :=
  ⟨⟨rfl, rfl, rfl, rfl, rfl, rfl, rfl⟩, rfl, rfl, by simp [Machine.halts, h]⟩

theorem kept_busWrite (a : Addr) (d : Byte) (s : State) : KeptSeq s (busWrite a d s) :=
  ⟨⟨by simp, by simp, by simp, by simp, by simp, by simp, by simp⟩, by simp, by simp, halts_busWrite a d s⟩

theorem kept_busRead (a : Addr) (s : State) : KeptSeq s (busRead a s).2 :=
  ⟨⟨by simp, by simp, by simp, by simp, by simp, by simp, by simp⟩, by simp, by simp, halts_busRead a s⟩

theorem kept_writeBlob (off : Addr) (j : Nat) (bytes : List Byte) (s : State) :
    KeptSeq s (writeBlob off j bytes s) := by
  have h := writeBlob_frame off j bytes s
  have hh := halts_writeBlob off j bytes s
  generalize writeBlob off j bytes s = t at h hh
  rw [h]
  exact ⟨⟨rfl, rfl, rfl, rfl, rfl, rfl, rfl⟩, rfl, rfl, hh⟩

theorem kept_subtractRange (as : List Addr) (c : Byte) (s : State) : KeptSeq s (subtractRange as c s).2 := by
  have h := subtractRange_frame as c s
  have hh := halts_subtractRange as c s
  generalize (subtractRange as c s).2 = t at h hh
  rw [h]
  exact ⟨⟨rfl, rfl, rfl, rfl, rfl, rfl, rfl⟩, rfl, rfl, hh⟩

theorem kept_programBlob (b : Blob) (s : State) : KeptSeq s (programBlob b s) :=
  (kept_busWrite s.cfg.ctrlBank b.bank s).trans (kept_writeBlob b.offset 0 b.bytes _)

theorem kept_checksumBody (s : State) : KeptSeq s (checksumBody s) := by
  have h1 : KeptSeq s { emit (.dir .input) s with acc := some s.cfg.chkInit } :=
    (kept_emit rfl s).setData _ (emit (.dir .input) s).rdata
  have h2 := h1.trans (kept_subtractRange (chkRange s.cfg) s.cfg.chkInit _)
  unfold checksumBody
  generalize subtractRange (chkRange s.cfg) s.cfg.chkInit { emit (.dir .input) s with acc := some s.cfg.chkInit } = r
    at h2 ⊢
  exact (h2.trans (kept_emit rfl r.2)).trans (kept_busWrite (chkWriteAddr s.cfg) r.1 _)

/-- The command is one of the two that end a run. -/
def isTerminal (i : Instr) : Bool :=
  match i with
  | .done | .panic => true
  | .shift _ | .bwr _ _ | .brd _ | .dirin | .dirout | .accinit _ | .accsub _ | .accst _ | .prog _ | .chksum
  | .ramen | .ramdis | .selbank _ => false

/-- The effect of a command that does not end the run is such an operation and one step of `CP` (10_state.md R21). -/
theorem effect_advance {i : Instr} (s : State) (h : isTerminal i = false) :
    ∃ t, effect i s = advance t ∧ KeptSeq s t := by
  cases i with
  | shift a =>
    refine ⟨_, rfl, ?_⟩
    exact ⟨⟨by simp, by simp, by simp, by simp, by simp, by simp, by simp⟩, by simp, by simp, by simp⟩
  | bwr a d => exact ⟨_, rfl, kept_busWrite a d s⟩
  | brd a => exact ⟨_, rfl, (kept_busRead a s).setData (busRead a s).2.acc _⟩
  | dirin => exact ⟨_, rfl, kept_emit rfl s⟩
  | dirout => exact ⟨_, rfl, kept_emit rfl s⟩
  | accinit c => exact ⟨_, rfl, ⟨⟨rfl, rfl, rfl, rfl, rfl, rfl, rfl⟩, rfl, rfl, rfl⟩⟩
  | accsub a =>
    refine ⟨_, rfl, ?_⟩
    unfold subtractRead
    have h1 := kept_busRead a s
    generalize busRead a s = r at h1 ⊢
    exact h1.setData _ r.2.rdata
  | accst a => exact ⟨_, rfl, kept_busWrite a _ s⟩
  | prog k => exact ⟨_, rfl, kept_programBlob _ s⟩
  | chksum => exact ⟨_, rfl, kept_checksumBody s⟩
  | done => cases h
  | panic => cases h
  | ramen => exact ⟨_, rfl, kept_busWrite _ _ s⟩
  | ramdis => exact ⟨_, rfl, kept_busWrite _ _ s⟩
  | selbank n => exact ⟨_, rfl, kept_busWrite _ n s⟩

end Sys2Proof.Machine
end

