-- ==== Sys2Proof/Laws/Decode.lean ====
section
/-! SUPPORT. A word and its four fields, each determining the other, and what the decoder accepts: what every
encoding claim rests on. -/

namespace Sys2Proof

/-- A word put together from its four fields, `RSV` included (R46). -/
def joinWord (op rsv : BitVec 4) (a : Addr) (d : Byte) : Word := op ++ rsv ++ a ++ d

theorem packWord_eq_joinWord (op : BitVec 4) (a : Addr) (d : Byte) : packWord op a d = joinWord op 0 a d := rfl

@[simp] theorem opField_joinWord (op rsv : BitVec 4) (a : Addr) (d : Byte) : opField (joinWord op rsv a d) = op := by
  ext i hi
  simp only [opField, joinWord, BitVec.getElem_extractLsb', BitVec.getLsbD_append]
  simp [hi, show ¬ (28 + i < 8) by omega, show ¬ (28 + i - 8 < 16) by omega,
    show ¬ (28 + i - 8 - 16 < 4) by omega, show 28 + i - 8 - 16 - 4 = i by omega, BitVec.getLsbD_eq_getElem]

@[simp] theorem rsvField_joinWord (op rsv : BitVec 4) (a : Addr) (d : Byte) :
    rsvField (joinWord op rsv a d) = rsv := by
  ext i hi
  simp only [rsvField, joinWord, BitVec.getElem_extractLsb', BitVec.getLsbD_append]
  simp [show ¬ (24 + i < 8) by omega, show ¬ (24 + i - 8 < 16) by omega, show 24 + i - 8 - 16 = i by omega, hi,
    BitVec.getLsbD_eq_getElem]

@[simp] theorem addrField_joinWord (op rsv : BitVec 4) (a : Addr) (d : Byte) :
    addrField (joinWord op rsv a d) = a := by
  ext i hi
  simp only [addrField, joinWord, BitVec.getElem_extractLsb', BitVec.getLsbD_append]
  simp [hi, show ¬ (8 + i < 8) by omega, BitVec.getLsbD_eq_getElem]

@[simp] theorem byteField_joinWord (op rsv : BitVec 4) (a : Addr) (d : Byte) :
    byteField (joinWord op rsv a d) = d := by
  ext i hi
  simp only [byteField, joinWord, BitVec.getElem_extractLsb', BitVec.getLsbD_append]
  simp [hi, BitVec.getLsbD_eq_getElem]

/-- A word is put together from its fields. -/
theorem joinWord_fields (w : Word) : joinWord (opField w) (rsvField w) (addrField w) (byteField w) = w := by
  ext i hi
  simp only [joinWord, ← BitVec.getLsbD_eq_getElem, BitVec.getLsbD_append, opField, rsvField, addrField, byteField,
    BitVec.getLsbD_extractLsb']
  by_cases h8 : i < 8
  · simp [h8]
  by_cases h24 : i - 8 < 16
  · simp [h8, h24, show 8 + (i - 8) = i by omega]
  by_cases h28 : i - 8 - 16 < 4
  · simp [h8, h24, h28, show 24 + (i - 8 - 16) = i by omega]
  · simp [h8, h24, h28, show i - 8 - 16 - 4 < 4 by omega, show 28 + (i - 8 - 16 - 4) = i by omega]

/-- Words are equal exactly when their fields are. -/
theorem joinWord_inj {op op' rsv rsv' : BitVec 4} {a a' : Addr} {d d' : Byte} :
    joinWord op rsv a d = joinWord op' rsv' a' d' ↔ op = op' ∧ rsv = rsv' ∧ a = a' ∧ d = d' := by
  constructor
  · intro h
    refine ⟨?_, ?_, ?_, ?_⟩
    · simpa using congrArg opField h
    · simpa using congrArg rsvField h
    · simpa using congrArg addrField h
    · simpa using congrArg byteField h
  · rintro ⟨rfl, rfl, rfl, rfl⟩; rfl

/-- A mask acts on each field. -/
theorem joinWord_and (op op' rsv rsv' : BitVec 4) (a a' : Addr) (d d' : Byte) :
    joinWord op rsv a d &&& joinWord op' rsv' a' d'
      = joinWord (op &&& op') (rsv &&& rsv') (a &&& a') (d &&& d') := by
  have h : (op ++ rsv ++ a ++ d) &&& (op' ++ rsv' ++ a' ++ d')
      = (op &&& op') ++ (rsv &&& rsv') ++ (a &&& a') ++ (d &&& d') := by
    rw [BitVec.and_append, BitVec.and_append, BitVec.and_append]
  simpa [joinWord] using h

@[simp] theorem opField_packWord (op : BitVec 4) (a : Addr) (d : Byte) : opField (packWord op a d) = op :=
  opField_joinWord op 0 a d

@[simp] theorem rsvField_packWord (op : BitVec 4) (a : Addr) (d : Byte) : rsvField (packWord op a d) = 0 :=
  rsvField_joinWord op 0 a d

@[simp] theorem addrField_packWord (op : BitVec 4) (a : Addr) (d : Byte) : addrField (packWord op a d) = a :=
  addrField_joinWord op 0 a d

@[simp] theorem byteField_packWord (op : BitVec 4) (a : Addr) (d : Byte) : byteField (packWord op a d) = d :=
  byteField_joinWord op 0 a d

/-- Decoding a packed word is the case split on its fields. -/
@[simp] theorem decode_packWord (op : BitVec 4) (a : Addr) (d : Byte) :
    decode (packWord op a d) = decodeFields op a d := by simp [decode]

/-- A word with `RSV` zero is packed from its fields. -/
theorem packWord_fields (w : Word) (h : rsvField w = 0) :
    packWord (opField w) (addrField w) (byteField w) = w := by
  rw [packWord_eq_joinWord, ← h, joinWord_fields]

/-- What the decoder accepts: `RSV` zero and an accepting case of the split. -/
theorem decode_ok {w : Word} {i : Instr} : decode w = .ok i ↔
    rsvField w = 0 ∧ decodeFields (opField w) (addrField w) (byteField w) = .ok i := by
  unfold decode
  split
  · exact ⟨fun h => ⟨‹_›, h⟩, fun h => h.2⟩
  · exact ⟨fun h => (by cases h), fun h => absurd h.1 ‹_›⟩

/-- What accepting a case of the split says: the unused fields are zero. -/
@[simp] theorem needByteZero_ok {d : Byte} {i j : Instr} : needByteZero d i = .ok j ↔ d = 0 ∧ i = j := by
  unfold needByteZero; split <;> simp_all

@[simp] theorem needAddrZero_ok {a : Addr} {i j : Instr} : needAddrZero a i = .ok j ↔ a = 0 ∧ i = j := by
  unfold needAddrZero; split <;> simp_all

@[simp] theorem needBothZero_ok {a : Addr} {d : Byte} {i j : Instr} :
    needBothZero a d i = .ok j ↔ (a = 0 ∧ d = 0) ∧ i = j := by
  unfold needBothZero; split <;> simp_all

/-- The sixteen opcodes. -/
theorem opcode_cases (op : BitVec 4) :
    op = 0x0 ∨ op = 0x1 ∨ op = 0x2 ∨ op = 0x3 ∨ op = 0x4 ∨ op = 0x5 ∨ op = 0x6 ∨ op = 0x7 ∨ op = 0x8 ∨ op = 0x9
      ∨ op = 0xA ∨ op = 0xB ∨ op = 0xC ∨ op = 0xD ∨ op = 0xE ∨ op = 0xF := by
  revert op; decide

/-- Every case of the split that accepts, at once: the opcode, the zero fields, the command. -/
theorem decodeFields_ok {op : BitVec 4} {a : Addr} {d : Byte} {i : Instr} : decodeFields op a d = .ok i ↔
    (op = 0x1 ∧ d = 0 ∧ .shift a = i) ∨ (op = 0x2 ∧ .bwr a d = i) ∨ (op = 0x3 ∧ d = 0 ∧ .brd a = i)
      ∨ (op = 0x4 ∧ (a = 0 ∧ d = 0) ∧ .dirin = i) ∨ (op = 0x5 ∧ (a = 0 ∧ d = 0) ∧ .dirout = i)
      ∨ (op = 0x6 ∧ a = 0 ∧ .accinit d = i) ∨ (op = 0x7 ∧ d = 0 ∧ .accsub a = i)
      ∨ (op = 0x8 ∧ d = 0 ∧ .accst a = i) ∨ (op = 0x9 ∧ a = 0 ∧ .prog d = i)
      ∨ (op = 0xA ∧ (a = 0 ∧ d = 0) ∧ .chksum = i) ∨ (op = 0xB ∧ (a = 0 ∧ d = 0) ∧ .done = i)
      ∨ (op = 0xC ∧ (a = 0 ∧ d = 0) ∧ .panic = i) := by
  rcases opcode_cases op with rfl | rfl | rfl | rfl | rfl | rfl | rfl | rfl | rfl | rfl | rfl | rfl | rfl | rfl
    | rfl | rfl <;> simp [decodeFields]

/-- Bits 23:0 are zero exactly when both fields are. -/
theorem low24_eq_zero {w : Word} : w.extractLsb' 0 24 = (0 : BitVec 24) ↔ addrField w = 0 ∧ byteField w = 0 := by
  have h24 : w.extractLsb' 0 24 = (addrField w ++ byteField w : BitVec 24) := by
    ext i hi
    simp only [addrField, byteField, ← BitVec.getLsbD_eq_getElem, BitVec.getLsbD_append, BitVec.getLsbD_extractLsb']
    by_cases h8 : i < 8
    · simp [h8, hi]
    · simp [h8, hi, show i - 8 < 16 by omega, show 8 + (i - 8) = i by omega]
  rw [h24]
  constructor
  · intro h
    exact ⟨BitVec.extractLsb'_append_eq_left.symm.trans (congrArg (fun v => v.extractLsb' 8 16) h),
      BitVec.extractLsb'_append_eq_right.symm.trans (congrArg (fun v => v.extractLsb' 0 8) h)⟩
  · rintro ⟨h1, h2⟩; rw [h1, h2]; rfl

/-- Whether a row given by its fields covers a word: `OP` equal, `RSV` zero, the masked fields equal. -/
theorem covers_joinWord {m : Mnemonic} {op op' rsv : BitVec 4} {a ma pa : Addr} {d md pd : Byte} :
    (OpcodeRow.mk m (joinWord op' 0 pa pd) (joinWord 0xF 0xF ma md)).covers (joinWord op rsv a d) = true ↔
      op = op' ∧ rsv = 0 ∧ a &&& ma = pa ∧ d &&& md = pd := by
  have h : ∀ x : BitVec 4, x &&& 0xF = x := fun _ => BitVec.and_allOnes
  rw [OpcodeRow.covers, beq_iff_eq, joinWord_and, h, h, joinWord_inj]

/-- The word of `SELBANK n` as R52 writes it. -/
theorem encode_selbank (n : Byte) : encode (.selbank n) = 0x20400000 ||| n.setWidth 32 := by
  have hw : (0x20400000#32 ||| n.setWidth 32) = packWord 0x2 0x4000 n := by
    ext i hi
    simp only [packWord, ← BitVec.getLsbD_eq_getElem, BitVec.getLsbD_append, BitVec.getLsbD_or, BitVec.getLsbD_setWidth]
    by_cases h8 : i < 8
    · have : i < 32 := by omega
      interval_cases i <;> simp
    · have : i < 32 := hi
      have : n.getLsbD i = false := BitVec.getLsbD_of_ge _ _ (by omega)
      rw [this]
      interval_cases i <;> simp_all
  exact hw.symm

end Sys2Proof
end

