-- ==== Sys2Proof/Laws/PerInstr.lean ====
section
/-! SUPPORT. Per-instruction family `TableRow`: the word of an instruction lies in its row of the opcode table. -/

namespace Sys2Proof.Laws.TableRow

open Sys2Proof

/-- The encoding of the instruction lies in every row its mnemonic has in the table, and there is one. -/
def Statement (i : Instr) : Prop :=
  rowsOf i.mnemonic ≠ [] ∧ ∀ r ∈ rowsOf i.mnemonic, r.covers (encode i) = true

theorem rowsOf_ne_nil (m : Mnemonic) : rowsOf m ≠ [] := by cases m <;> decide

theorem addr_and_zero (a : Addr) : a &&& 0 = 0 := BitVec.and_zero

theorem byte_and_zero (d : Byte) : d &&& 0 = 0 := BitVec.and_zero

/-- A row whose mask compares `OP`, `RSV` and the fields `ma`, `md`, and whose pattern is packed. -/
theorem covers_packWord (op : BitVec 4) (a : Addr) (d : Byte) (ma : Addr) (md : Byte) (m : Mnemonic) (pat : Word)
    (h : packWord op (a &&& ma) (d &&& md) = pat) :
    (OpcodeRow.mk m pat (joinWord 0xF 0xF ma md)).covers (packWord op a d) = true := by
  subst h
  exact covers_joinWord.2 ⟨rfl, rfl, rfl, rfl⟩

theorem shift (a : Addr) : Statement (.shift a) := by
  refine ⟨rowsOf_ne_nil .shift, fun r hr => ?_⟩
  obtain rfl : r = ⟨.shift, 0x10000000, 0xFF0000FF⟩ := List.mem_singleton.1 hr
  exact covers_packWord 0x1 a 0 0 0xFF .shift _ (by rw [addr_and_zero]; rfl)

theorem bwr (a : Addr) (d : Byte) : Statement (.bwr a d) := by
  refine ⟨rowsOf_ne_nil .bwr, fun r hr => ?_⟩
  obtain rfl : r = ⟨.bwr, 0x20000000, 0xFF000000⟩ := List.mem_singleton.1 hr
  exact covers_packWord 0x2 a d 0 0 .bwr _ (by rw [addr_and_zero, byte_and_zero]; rfl)

theorem brd (a : Addr) : Statement (.brd a) := by
  refine ⟨rowsOf_ne_nil .brd, fun r hr => ?_⟩
  obtain rfl : r = ⟨.brd, 0x30000000, 0xFF0000FF⟩ := List.mem_singleton.1 hr
  exact covers_packWord 0x3 a 0 0 0xFF .brd _ (by rw [addr_and_zero]; rfl)

theorem dirin : Statement .dirin := by
  unfold Statement
  decide

theorem dirout : Statement .dirout := by
  unfold Statement
  decide

theorem accinit (c : Byte) : Statement (.accinit c) := by
  refine ⟨rowsOf_ne_nil .accinit, fun r hr => ?_⟩
  obtain rfl : r = ⟨.accinit, 0x60000000, 0xFFFFFF00⟩ := List.mem_singleton.1 hr
  exact covers_packWord 0x6 0 c 0xFFFF 0 .accinit _ (by rw [byte_and_zero]; rfl)

theorem accsub (a : Addr) : Statement (.accsub a) := by
  refine ⟨rowsOf_ne_nil .accsub, fun r hr => ?_⟩
  obtain rfl : r = ⟨.accsub, 0x70000000, 0xFF0000FF⟩ := List.mem_singleton.1 hr
  exact covers_packWord 0x7 a 0 0 0xFF .accsub _ (by rw [addr_and_zero]; rfl)

theorem accst (a : Addr) : Statement (.accst a) := by
  refine ⟨rowsOf_ne_nil .accst, fun r hr => ?_⟩
  obtain rfl : r = ⟨.accst, 0x80000000, 0xFF0000FF⟩ := List.mem_singleton.1 hr
  exact covers_packWord 0x8 a 0 0 0xFF .accst _ (by rw [addr_and_zero]; rfl)

theorem prog (k : Byte) : Statement (.prog k) := by
  refine ⟨rowsOf_ne_nil .prog, fun r hr => ?_⟩
  obtain rfl : r = ⟨.prog, 0x90000000, 0xFFFFFF00⟩ := List.mem_singleton.1 hr
  exact covers_packWord 0x9 0 k 0xFFFF 0 .prog _ (by rw [byte_and_zero]; rfl)

theorem chksum : Statement .chksum := by
  unfold Statement
  decide

theorem done : Statement .done := by
  unfold Statement
  decide

theorem panic : Statement .panic := by
  unfold Statement
  decide

theorem ramen : Statement .ramen := by
  unfold Statement
  decide

theorem ramdis : Statement .ramdis := by
  unfold Statement
  decide

theorem selbank (n : Byte) : Statement (.selbank n) := by
  refine ⟨rowsOf_ne_nil .selbank, fun r hr => ?_⟩
  obtain rfl : r = ⟨.selbank, 0x20400000, 0xFFFFFF00⟩ := List.mem_singleton.1 hr
  exact covers_packWord 0x2 0x4000 n 0xFFFF 0 .selbank _ (by rw [byte_and_zero]; rfl)

end Sys2Proof.Laws.TableRow
end

