-- ==== Sys2Proof/Tests/Slice0.lean ====
section
/-! SUPPORT. The model's own tests: what well-formedness refuses, words written out from 30_encoding.md, one-step tests
whose expected results are the vectors of 95_test_vectors.md, and a witness for the hypotheses of every statement. -/

namespace Sys2Proof.Machine.Test

/-! ## Small states -/

/-- The test configuration of 95_test_vectors.md with a checksum range of one byte, 0xA598. -/
def cfg : Cfg where
  addrW := 16
  dataW := 8
  shiftBits := 16
  extBase := 0x8000
  ctrlRamen := 0x0000
  ctrlBank := 0x4000
  enableCode := 0x0A
  disableCode := 0x00
  nbanks := 4
  bankSize := 0x2000
  ramBase := 0xA000
  ramLimit := 0xC000
  settle := 20
  timeUnit := 1
  blinkOn := 250
  blinkOff := 500
  chkStart := 0x598
  chkEnd := 0x599
  chkWrite := 0x59A
  chkInit := 0xFF
  chkBank := 1
  blobs := [⟨0, 0x20, [0xAA, 0xBB, 0xCC]⟩, ⟨1, 0x10C0, [0x11, 0x22]⟩]
  patchOff := (0x5C9, 0x5CA)
  patchVal := (0x01, 0x63)
  cfgValidate := true

/-- The lines after reset, the two draws of R27 at zero. -/
def pins : Pins where
  ser := false
  sclk := false
  oe := true
  wrN := true
  rdN := true
  csN := true
  led := false
  dir := .output
  dOut := 0
  sr := 0

/-- After reset and the configuration check, a zero target answering (95_test_vectors.md). -/
def zero : State where
  pins := pins
  rdata := none
  acc := none
  ramenSh := none
  bankSh := none
  pv := false
  cp := 0
  mode := .run
  fcode := 0
  fcp := 0
  fword := 0
  trace := []
  cfg := cfg
  program := [0x40000000]
  checkPending := false
  target := ⟨none, none, [], some 0, 0⟩
  oracle := .target
  inputs := []
  draws := 0

/-- `zero` with `DIR = IN`. -/
def zeroIn : State := { zero with pins := { pins with dir := .input } }

/-- `zero` with RAM enabled and bank 1 selected, in the block's shadows and at the target. -/
def openBank1 : State :=
  { zero with ramenSh := some 0x0A, bankSh := some 1, target := ⟨some 0x0A, some 1, [], some 0, 0⟩ }

/-- A fixed value of what a next state holds. -/
def nextIs {α : Type} [DecidableEq α] (o : Host.Outcome State Fault Refusal) (f : State → α) (v : α) : Bool :=
  match o with
  | .next t => decide (f t = v)
  | .fault _ => false
  | .refused _ => false

/-! ## What well-formedness refuses -/

theorem test_wf_ramen_refused : Instr.wellFormed .ramen = false := rfl
theorem test_wf_ramdis_refused : Instr.wellFormed .ramdis = false := rfl
theorem test_wf_selbank_refused : Instr.wellFormed (.selbank 3) = false := rfl
theorem test_wf_asm_address_too_big : AsmCmd.wellFormed ⟨.shift, [0x10000]⟩ = false := by decide
theorem test_wf_asm_byte_too_big : AsmCmd.wellFormed ⟨.bwr, [0xA000, 0x100]⟩ = false := by decide
theorem test_wf_asm_operand_missing : AsmCmd.wellFormed ⟨.bwr, [0xA000]⟩ = false := by decide
theorem test_wf_asm_operand_too_many : AsmCmd.wellFormed ⟨.done, [0]⟩ = false := by decide

/-! ## Words (30_encoding.md R46-R53, V-ENC) -/

theorem test_decode_shift : decode 0x10A59800 = .ok (.shift 0xA598) := by decide
theorem test_decode_bwr : decode 0x20FFFFFF = .ok (.bwr 0xFFFF 0xFF) := by decide
theorem test_decode_brd : decode 0x30FFFF00 = .ok (.brd 0xFFFF) := by decide
theorem test_decode_dirin : decode 0x40000000 = .ok .dirin := by decide
theorem test_decode_dirout : decode 0x50000000 = .ok .dirout := by decide
theorem test_decode_accinit : decode 0x600000FF = .ok (.accinit 0xFF) := by decide
theorem test_decode_accsub : decode 0x70A59800 = .ok (.accsub 0xA598) := by decide
theorem test_decode_accst : decode 0x80B52300 = .ok (.accst 0xB523) := by decide
theorem test_decode_prog : decode 0x90000001 = .ok (.prog 1) := by decide
theorem test_decode_chksum : decode 0xA0000000 = .ok .chksum := by decide
theorem test_decode_done : decode 0xB0000000 = .ok .done := by decide
theorem test_decode_panic : decode 0xC0000000 = .ok .panic := by decide
theorem test_decode_ramen : decode 0x2000000A = .ok (.bwr 0x0000 0x0A) := by decide
theorem test_decode_ramdis : decode 0x20000000 = .ok (.bwr 0x0000 0x00) := by decide
theorem test_decode_selbank : decode 0x20400003 = .ok (.bwr 0x4000 0x03) := by decide

/-- The ten illegal words of V-ENC. -/
theorem test_decode_illegal : ([0x00000000, 0xD0000000, 0xF0000000, 0x2100000A, 0x10A59801, 0x1FFFF000, 0x40000001,
    0x600100FF, 0x90000100, 0xA0000001] : List Word).all (fun w => (decodeTableWord 32 w.toNat).isNone) = true := by
  decide

theorem test_encode_full_program : Config.fullProgram = [encode .ramen, encode (.prog 0), encode (.prog 1),
    encode (.bwr 0xA5C9 0x01), encode (.bwr 0xA5CA 0x63), encode .chksum, encode .ramdis, encode .done] := by decide

theorem test_encode_verify_example : Config.verifyProgramExample = [encode .ramen, encode (.selbank 1),
    encode (.bwr 0xA5C9 0x9C), encode (.bwr 0xA5CA 0x63), encode .chksum, encode .ramdis, encode .done] := by decide

/-! ## The assembler (30_encoding.md R51) -/

theorem test_asm_bwr : assembleLine "BWR 0xA020, 0xAA ; patch".toList = .ok (some 0x20A020AA) := by decide
theorem test_asm_decimal : assembleLine "SELBANK 3".toList = .ok (some 0x20400003) := by decide
theorem test_asm_comment : assembleLine "; nothing".toList = .ok none := by decide
theorem test_asm_out_of_range : assembleLine "ACCINIT 256".toList = .error .badOperands := by decide

/-! ## One step each (95_test_vectors.md) -/

/-- V-SHIFT: `SHIFT 0xA598`. -/
theorem test_shift_register : nextIs (exec (.shift 0xA598) zero) (fun t => (t.pins.sr, t.pins.ser, t.trace.length))
    (0xA598, true, 50) = true := by decide
/-- V-SHIFT: the 16 `SER` values of `SHIFT 0xA020`, bit 0 first. -/
theorem test_shift_bits : serAtEdges pins (shiftEvents cfg 0xA020) = [false, false, false, false, false, true, false, false,
    false, false, false, false, false, true, false, true] := by decide

/-- V-BUS: events 54 to 59 of `BWR 0xA020, 0xAA`; `PV = 1` from reset. -/
theorem test_bwr_tail : nextIs (exec (.bwr 0xA020 0xAA) zero)
    (fun t => (t.trace.take 6, t.trace.length, t.pv, t.pins.dOut))
    ([.set .csN true, .set .wrN true, .delay 20, .set .wrN false, .drive 0xAA, .set .csN false], 59, true, 0xAA)
    = true := by decide
/-- B4: `BWR` with `DIR = IN`. -/
theorem test_bwr_fault : nextIs (exec (.bwr 0xA020 0xAA) zeroIn) (fun t => (t.fcode, t.fword, t.trace))
    (0x03, 0x20A020AA, [.halt .fault]) = true := by decide

/-- B8, second read: the oracle answers 0x38; a read of a control address sets `PV`. -/
theorem test_brd_answer : nextIs (exec (.brd 0x0000) { zeroIn with inputs := [0x38] })
    (fun t => (t.rdata, t.pv, t.trace.length)) (some 0x38, true, 57) = true := by decide
/-- B5: `BRD` with `DIR = OUT`. -/
theorem test_brd_fault : nextIs (exec (.brd 0xA5C9) zero) (fun t => (t.fcode, t.fword, t.rdata))
    (0x04, 0x30A5C900, none) = true := by decide

/-- B7: `DIRIN` keeps `D_OUT`. -/
theorem test_dirin : nextIs (exec .dirin { zero with pins := { pins with dOut := 0x63 } })
    (fun t => (t.pins.dir, t.pins.dOut, t.trace)) (.input, 0x63, [.dir .input]) = true := by decide
/-- B6: `DIROUT`. -/
theorem test_dirout : nextIs (exec .dirout zeroIn) (fun t => (t.pins.dir, t.trace)) (.output, [.dir .output])
    = true := by decide

/-- V-ACC: `ACCINIT` emits nothing. -/
theorem test_accinit : nextIs (exec (.accinit 0xFF) zero) (fun t => (t.acc, t.trace, t.cp)) (some 0xFF, [], 1)
    = true := by decide
/-- A-3: 0x10 less 0x20 wraps to 0xF0. -/
theorem test_accsub_wrap : nextIs (exec (.accsub 0xA598) { zeroIn with acc := some 0x10, inputs := [0x20] })
    (fun t => (t.acc, t.rdata)) (some 0xF0, none) = true := by decide
/-- A-9: the direction is checked before `ACC`. -/
theorem test_accsub_priority : nextIs (exec (.accsub 0xA598) zero) (fun t => (t.fcode, t.fword)) (0x04, 0x70A59800)
    = true := by decide
/-- A-7: `ACCST 0xB523` in bank 1. -/
theorem test_accst : nextIs (exec (.accst 0xB523) { openBank1 with acc := some 0xFF })
    (fun t => (t.pins.dOut, t.acc, t.trace.length, t.pv, t.target.byteAt 0x3523)) (0xFF, some 0xFF, 59, false, 0xFF)
    = true := by decide
/-- A-8: `ACCST` with `ACC` invalid. -/
theorem test_accst_uninit : nextIs (exec (.accst 0xB523) zero) (fun t => (t.fcode, t.fword)) (0x05, 0x80B52300)
    = true := by decide

/-- P-11: `PROG 0`, 234 events, and E4: the bytes land in bank 0. -/
theorem test_prog : nextIs (exec (.prog 0) { zero with ramenSh := some 0x0A, target := ⟨some 0x0A, none, [], some 0, 0⟩ })
    (fun t => (t.trace.length, t.pins.dOut, t.pv, t.bankSh, t.target.byteAt 0x20, t.target.byteAt 0x22))
    (234, 0xCC, false, some 0, 0xAA, 0xCC) = true := by decide +kernel
/-- P-14: the index is checked before the direction. -/
theorem test_prog_priority : nextIs (exec (.prog 5) zeroIn) (fun t => (t.fcode, t.fword)) (0x06, 0x90000005)
    = true := by decide

/-- A-17 and R76 over the range of one byte: the byte at 0x597 is not summed. -/
theorem test_chksum : nextIs (exec .chksum { openBank1 with target := ⟨some 0x0A, some 1, [(0x2597, 1), (0x2598, 1)], some 0, 0⟩ })
    (fun t => (t.acc, t.trace.length, t.pins.dir, t.pv, t.target.byteAt 0x259A))
    (some 0xFE, 120, .output, false, 0xFE) = true := by decide +kernel
/-- A-11: no bank selected. -/
theorem test_chksum_mismatch : nextIs (exec .chksum zero) (fun t => (t.fcode, t.fword, t.trace))
    (0x07, 0xA0000000, [.halt .fault]) = true := by decide

/-- C-6: `DONE`. -/
theorem test_done : nextIs (exec .done zero) (fun t => (t.mode, t.cp, t.pins.led, t.trace))
    (.done, 0, true, [.halt .done, .set .led true]) = true := by decide
/-- C-5: `PANIC`; the blink starts with 1. -/
theorem test_panic : nextIs (exec .panic zero) (fun t => (t.mode, t.pins.led, t.trace, panicLed t.cfg 0, panicLed t.cfg 250))
    (.panic, false, [.halt .panic], true, false) = true := by decide

/-- V-BUS: events 54 to 57 of `RAMEN`. -/
theorem test_ramen : nextIs (exec .ramen zero) (fun t => (t.trace.take 4, t.trace.length, t.ramenSh, t.target.ten, t.pv))
    ([.set .wrN true, .delay 20, .set .wrN false, .drive 0x0A], 57, some 0x0A, some 0x0A, false) = true := by decide
/-- E3: `RAMDIS`. -/
theorem test_ramdis : nextIs (exec .ramdis openBank1) (fun t => (t.ramenSh, t.target.ten, t.pv)) (some 0, some 0, false)
    = true := by decide
/-- P-3: `SELBANK 4` goes out and sets `PV`. -/
theorem test_selbank : nextIs (exec (.selbank 4) zero) (fun t => (t.bankSh, t.pv, t.trace.length)) (some 4, true, 57)
    = true := by decide

/-- C-1: past the end of `PROGRAM`. -/
theorem test_end_of_program : nextIs (step { zero with program := [] }) (fun t => (t.fcode, t.fcp, t.fword, t.trace))
    (0x02, 0, 0, [.halt .fault]) = true := by decide
/-- V-ENC: the all-zero word at index 0. -/
theorem test_illegal : nextIs (step { zero with program := [0] }) (fun t => (t.fcode, t.fcp, t.fword, t.trace))
    (0x01, 0, 0, [.halt .fault]) = true := by decide
/-- C-3: `SELBANK 4` in a checked program. -/
theorem test_config_panic : nextIs
    (step { zero with checkPending := true, program := [0x2000000A, 0x20400004, 0xB0000000] })
    (fun t => (t.mode, t.cp, t.trace)) (.panic, 0, [.halt .panic]) = true := by decide
/-- C-7: a blob one byte past its bank; C-8: `SETTLE = 0`; and a blob that just fits. -/
theorem test_config_bounds : cfgOk { cfg with blobs := [⟨0, 0x1FFF, [1, 2]⟩] } [] = false
    ∧ cfgOk { cfg with settle := 0 } [] = false
    ∧ cfgOk { cfg with settle := 1, blobs := [⟨3, 0x1FFE, [1, 2]⟩], chkEnd := 0x2000, chkWrite := 0x1FFF } [] = true := by
  decide

/-- Cases of R67 at the edges of the RAM window, RAM open in bank 3 (P-6, P-7). -/
theorem test_violates_edges : violates cfg .read 0x9FFF (some 0x0A) (some 3) = true
    ∧ violates cfg .read 0xA000 (some 0x0A) (some 3) = false ∧ violates cfg .read 0xBFFF (some 0x0A) (some 3) = false
    ∧ violates cfg .read 0xC000 (some 0x0A) (some 3) = true
    ∧ violates cfg .read 0xA000 (some 0x0A) (some 4) = true := by decide

/-- R57 and R66 with other constants than this hardware's (R8): chip select from 0x4000 on, three clock pulses, and
`RAMEN` writing 0x55 to 0x4001. -/
theorem test_other_constants : nextIs (exec .ramen { zero with
      cfg := { cfg with extBase := 0x4000, shiftBits := 3, ctrlRamen := 0x4001, enableCode := 0x55 } })
    (fun t => (t.trace.length, t.ramenSh, t.pv, t.trace.take 2)) (20, some 0x55, false, [.set .csN true, .set .wrN true])
    = true := by decide

/-- R67 case 4: a blob byte with RAM not enabled; R71: a byte past 0xBFFF. -/
theorem test_prog_violations : nextIs (exec (.prog 1) zero) (fun t => (t.pv, t.bankSh)) (true, some 1) = true
    ∧ nextIs (exec (.prog 0) { openBank1 with cfg := { cfg with blobs := [⟨1, 0x2000, [7]⟩] } })
        (fun t => (t.pv, t.ramenSh, t.bankSh)) (true, some 0x0A, some 1) = true := by
  constructor <;> decide +kernel

/-! ## Witnesses for the hypotheses of the statements -/

theorem zero_rest : LinesAtRest zero := ⟨rfl, rfl, rfl, rfl, rfl⟩
theorem zeroIn_rest : LinesAtRest zeroIn := ⟨rfl, rfl, rfl, rfl, rfl⟩
theorem openBank1_rest : LinesAtRest openBank1 := ⟨rfl, rfl, rfl, rfl, rfl⟩
/-- The test configuration has the constants of this hardware. -/
theorem cfg_hardware : HasHardwareConstants cfg := ⟨rfl, rfl, rfl, rfl, rfl, rfl, rfl, rfl, rfl, rfl, rfl, rfl⟩
/-- Other blobs leave them as they are. -/
theorem cfg_hardware_blobs (bs : List Blob) : HasHardwareConstants { cfg with blobs := bs } :=
  ⟨rfl, rfl, rfl, rfl, rfl, rfl, rfl, rfl, rfl, rfl, rfl, rfl⟩
theorem zero_canonical : MemoryCanonical zero := rfl

/-- `zero` steps: its program is `DIRIN`. -/
theorem zero_steps : ∃ t, step zero = .next t := ⟨_, rfl⟩

theorem zero_sequencer : SequencerAgrees zero := by
  refine ⟨fun m => ?_, by decide, by decide⟩
  cases m <;> decide

theorem witness_DecodeEncodeRoundTrip : Instr.wellFormed (.bwr 0xFFFF 0xFF) = true := rfl
theorem witness_EncodeDecodeRoundTrip : decode 0x30FFFF00 = .ok (.brd 0xFFFF) := by decide
theorem witness_DecodeAgreesWithOpcodeTable : ⟨.prog, 0x90000000, 0xFFFFFF00⟩ ∈ commandRows := by decide
theorem witness_IllegalWordsFault : ∃ s : State, s.checkPending = false ∧ s.mode = .run
    ∧ s.program[s.cp]? = some 0x00000000 ∧ ∀ i : Instr, decode 0x00000000 ≠ .ok i :=
  ⟨{ zero with program := [0] }, rfl, rfl, rfl, fun _ h => nomatch h⟩
/-- Operands that fit exactly, and one that does not; a line for each clause; a program with a line that holds no
command, and one with a refused line. -/
theorem witness_AssemblerNeverTruncates : toInstr ⟨.bwr, [0xFFFF, 0xFF]⟩ = some (.bwr 0xFFFF 0xFF)
    ∧ AsmCmd.wellFormed ⟨.bwr, [0xFFFF, 0xFF]⟩ = true ∧ AsmCmd.wellFormed ⟨.bwr, [0x10000, 0xFF]⟩ = false
    ∧ readCommand "BWR 0xFFFF,255".toList = .ok ⟨.bwr, [0xFFFF, 0xFF]⟩
    ∧ assembleLine " BWR 0xFFFF,255; x".toList = .ok (some 0x20FFFFFF)
    ∧ readCommand "BWR 65536, 1".toList = .ok ⟨.bwr, [0x10000, 1]⟩
    ∧ assembleLine "BWR 65536, 1".toList = .error .badOperands
    ∧ assemble ["DIRIN".toList, ";".toList, "DONE".toList] = .ok [0x40000000, 0xB0000000]
    ∧ assemble ["DIRIN".toList, "PROG 256".toList] = .error .badOperands := by decide

/-- Each clause of `StepRunsDecodedCommand`: a legal word, the first index past the end, an illegal word, each
terminal mode. -/
theorem witness_StepRunsDecodedCommand :
    (zero.checkPending = false ∧ zero.mode = .run ∧ zero.program[zero.cp]? = some 0x40000000
        ∧ decode 0x40000000 = .ok .dirin)
      ∧ ({ zero with cp := 1 } : State).program.length ≤ ({ zero with cp := 1 } : State).cp
      ∧ decode 0x00000000 = .error .opcode
      ∧ ({ zero with mode := .done } : State).mode = .done ∧ ({ zero with mode := .panic } : State).mode = .panic
      ∧ ({ zero with mode := .fault } : State).mode = .fault := by decide

theorem witness_CommandPointerOnlyAdvances : zero.mode = .run ∧ (∃ t, exec .dirin zero = .next t ∧ t.mode = .run)
    ∧ (∃ t, exec .done zero = .next t ∧ t.mode ≠ .run) := ⟨rfl, ⟨_, rfl, rfl⟩, ⟨_, rfl, by decide⟩⟩

/-- The check fails, passes, and is skipped. -/
theorem witness_ConfigurationCheck : ∃ s t u : State,
    (s.checkPending = true ∧ s.cfg.cfgValidate = true ∧ cfgOk s.cfg s.program = false)
      ∧ (t.checkPending = true ∧ (t.cfg.cfgValidate = true → cfgOk t.cfg t.program = true))
      ∧ (u.checkPending = true ∧ u.cfg.cfgValidate = false) :=
  ⟨{ zero with checkPending := true, program := [0x20400004] }, { zero with checkPending := true },
    { zero with checkPending := true, cfg := { cfg with cfgValidate := false } },
    by decide, by decide, by decide⟩

theorem witness_DoneResult : zero.checkPending = false ∧ ∃ t, exec .done zero = .next t := ⟨rfl, _, rfl⟩
/-- The last time unit of each half of the blink, and a `PANIC`. -/
theorem witness_PanicResult : 249 < Config.reference.blinkOn ∧ 499 < Config.reference.blinkOff
    ∧ zero.checkPending = false ∧ ∃ t, exec .panic zero = .next t := ⟨by decide, by decide, rfl, _, rfl⟩

theorem witness_ShiftRegisterClocksOnRisingEdge : HasHardwareConstants cfg ∧ pins.sclk = false ∧ pins.oe = true
    ∧ ({ pins with sclk := true } : Pins).sclk = true ∧ ({ pins with oe := false } : Pins).oe = false
    ∧ Event.set .sclk false ≠ .set .sclk true := ⟨cfg_hardware, by decide⟩

theorem witness_ShiftResult : HasHardwareConstants zero.cfg ∧ zero.pins.sclk = false := ⟨cfg_hardware, rfl⟩

theorem witness_PseudoCommandsAreBusWrites : HasHardwareConstants zero.cfg := cfg_hardware

/-- The whole cycle, the first event, and a step of the command. -/
theorem witness_ShifterProperties : HasHardwareConstants cfg ∧ pins.sclk = false ∧ shiftEvents cfg 0xA598 = shiftEvents cfg 0xA598 ++ []
    ∧ shiftEvents cfg 0xA598 ≠ [] ∧ ∃ t, exec (.shift 0xA598) zero = .next t :=
  ⟨cfg_hardware, rfl, (List.append_nil _).symm, by decide, ⟨_, rfl⟩⟩

theorem witness_BusWriteResult : HasHardwareConstants zero.cfg ∧ zeroIn.pins.dir = .input ∧ LinesAtRest zero ∧ zero.pins.dir = .output
    ∧ (0x8000 : Addr) ≤ 0x8000 ∧ ¬ (0x8000 : Addr) ≤ 0x7FFF :=
  ⟨cfg_hardware, rfl, zero_rest, rfl, by decide, by decide⟩
theorem witness_BusReadResult : HasHardwareConstants zeroIn.cfg ∧ zero.pins.dir = .output ∧ LinesAtRest zeroIn ∧ zeroIn.pins.dir = .input :=
  ⟨cfg_hardware, rfl, zeroIn_rest, rfl⟩

/-- `openBank1` reading. -/
def openBank1In : State := { openBank1 with pins := { pins with dir := .input } }

/-- The target answers at the last byte of the window; the next answer is used past it; a draw where there is none; and
`ACCSUB` has a value to subtract from. -/
theorem witness_OracleAnswersReads : HasHardwareConstants openBank1In.cfg ∧ LinesAtRest openBank1In
    ∧ openBank1In.pins.dir = .input
    ∧ (openBank1In.oracle = .target
        ∧ openBank1In.target.location (decide ((0xBFFF : Addr) < 0x8000)) 0xBFFF = some 0x3FFF)
    ∧ (openBank1In.target.location (decide ((0xC000 : Addr) < 0x8000)) 0xC000 = none
        ∧ ({ openBank1In with inputs := [7] } : State).inputs = 7 :: [])
    ∧ openBank1In.inputs = [] ∧ ({ openBank1In with acc := some 3 } : State).acc = some 3 :=
  ⟨cfg_hardware, ⟨rfl, rfl, rfl, rfl, rfl⟩, rfl, by decide, by decide, rfl, rfl⟩
/-- `CHKSUM` with a free oracle and an answer more than it uses; and with the target's RAM disabled. -/
theorem witness_OracleAnswersReads_chksum : ∃ s u : State,
    (HasHardwareConstants s.cfg ∧ LinesAtRest s ∧ s.bankSh = some s.cfg.chkBank ∧ s.oracle = .free
        ∧ s.inputs.length = (s.cfg.chkEnd - s.cfg.chkStart) + 1)
      ∧ u.bankSh = some u.cfg.chkBank
      ∧ ∀ o ∈ List.range' u.cfg.chkStart (u.cfg.chkEnd - u.cfg.chkStart), u.target.location
          (decide ((0xA000 + BitVec.ofNat 16 o : Addr) < 0x8000)) (0xA000 + BitVec.ofNat 16 o) = none :=
  ⟨{ openBank1 with oracle := .free, inputs := [1, 2] }, { openBank1 with target := ⟨some 0, some 1, [], some 0, 0⟩ },
    ⟨cfg_hardware, openBank1_rest, rfl, rfl, rfl⟩, rfl, by decide⟩
/-- R26: the answers are subtracted in order and the one left over stays. -/
theorem test_chksum_answers : nextIs (exec .chksum { openBank1 with oracle := .free, inputs := [3, 9] })
    (fun t => (t.acc, t.inputs, t.draws)) (some 0xFC, [9], 0) = true := by decide +kernel

/-- Lines at rest; moments of both cycles with the strobe low, below and in the extended window. -/
theorem witness_CycleProperties : HasHardwareConstants cfg ∧ pins.AtRest
    ∧ (pins.applyAll ((writeEvents cfg 0x7FFF 1).take 55)).wrN = false
    ∧ (pins.applyAll ((writeEvents cfg 0x8000 1).take 56)).wrN = false
    ∧ (pins.applyAll ((readEvents cfg 0x7FFF 1).take 54)).rdN = false
    ∧ (pins.applyAll ((readEvents cfg 0x8000 1).take 55)).rdN = false :=
  ⟨cfg_hardware, ⟨rfl, rfl, rfl, rfl, rfl⟩, by decide, by decide, by decide, by decide⟩

/-- Each case of R67 and no case. -/
theorem witness_ViolationCases : HasHardwareConstants cfg ∧ violates cfg (.write 0x0B) 0x0000 none none = true
    ∧ violates cfg (.write 4) 0x4000 none none = true ∧ violates cfg .read 0x4000 none none = true
    ∧ violates cfg (.write 0) 0xBFFF (some 0x0A) none = true ∧ violates cfg (.write 0) 0xC000 (some 0x0A) (some 3) = true
    ∧ violates cfg (.write 0) 0xBFFF (some 0x0A) (some 3) = false :=
  ⟨cfg_hardware, by decide⟩
theorem witness_MonitorUpdatesShadows : HasHardwareConstants zero.cfg := cfg_hardware

theorem witness_ViolationCases_sticky : ∃ s : State, s.pv = true ∧ (∃ t, step s = .next t)
    ∧ ∃ t, exec .dirin s = .next t := ⟨{ zero with pv := true }, rfl, ⟨_, rfl⟩, ⟨_, rfl⟩⟩
theorem witness_ProtocolCommandResults : HasHardwareConstants zero.cfg ∧ zeroIn.pins.dir = .input ∧ LinesAtRest zero ∧ zero.pins.dir = .output
    ∧ 4 ≤ (4 : Byte).toNat ∧ ¬ 4 ≤ (3 : Byte).toNat :=
  ⟨cfg_hardware, rfl, zero_rest, rfl, by decide, by decide⟩

/-- No such blob; the direction fault; a blob that just fits in the highest bank. -/
theorem witness_ProgResult : zero.cfg.blobs[(2 : Byte).toNat]? = none
    ∧ (zeroIn.cfg.blobs[(1 : Byte).toNat]? = some ⟨1, 0x10C0, [0x11, 0x22]⟩ ∧ zeroIn.pins.dir = .input)
    ∧ ∃ (s : State) (b : Blob), s.cfg.blobs[(0 : Byte).toNat]? = some b ∧ HasHardwareConstants s.cfg ∧ LinesAtRest s
        ∧ s.pins.dir = .output
        ∧ b.offset.toNat + b.bytes.length ≤ 0x2000 ∧ s.ramenSh = some 0x0A ∧ b.bank.toNat < 4 :=
  ⟨rfl, ⟨rfl, rfl⟩, { openBank1 with cfg := { cfg with blobs := [⟨3, 0x1FFF, [1]⟩] } }, ⟨3, 0x1FFF, [1]⟩, rfl,
    cfg_hardware_blobs _, openBank1_rest, rfl, by decide, rfl, by decide⟩

/-- A bank just past the last; RAM not enabled and a byte at the window's end; the byte just past it. -/
theorem witness_ProgSetsViolation : ∃ (s : State) (b : Blob), HasHardwareConstants s.cfg ∧ s.pins.dir = .output
    ∧ s.cfg.blobs[(0 : Byte).toNat]? = some b ∧ 4 ≤ b.bank.toNat ∧ s.ramenSh ≠ some 0x0A ∧ b.bytes ≠ []
    ∧ b.offset.toNat < 0x2000 ∧ 1 < b.bytes.length
    ∧ (0xA000 + b.offset + BitVec.ofNat 16 1 : Addr) ≠ 0x0000 ∧ (0xA000 + b.offset + BitVec.ofNat 16 1 : Addr) ≠ 0x4000
    ∧ ¬ (0xA000 ≤ (0xA000 + b.offset + BitVec.ofNat 16 1 : Addr).toNat
          ∧ (0xA000 + b.offset + BitVec.ofNat 16 1 : Addr).toNat ≤ 0xBFFF) :=
  ⟨{ zero with cfg := { cfg with blobs := [⟨4, 0x1FFF, [1, 2]⟩] } }, ⟨4, 0x1FFF, [1, 2]⟩, cfg_hardware_blobs _, rfl, rfl,
    by decide, by decide, by decide, by decide, by decide, by decide, by decide, by decide⟩

theorem witness_ProgLandsInItsBank : ∃ (s : State) (b : Blob), HasHardwareConstants s.cfg ∧ LinesAtRest s ∧ s.pins.dir = .output
    ∧ MemoryCanonical s ∧ s.cfg.blobs[(0 : Byte).toNat]? = some b ∧ b.bank.toNat < 4
    ∧ b.offset.toNat + b.bytes.length ≤ 0x2000 ∧ s.target.ten = some 0x0A ∧ b.bytes[0]? = some 1 :=
  ⟨{ openBank1 with cfg := { cfg with blobs := [⟨3, 0x1FFF, [1]⟩] } }, ⟨3, 0x1FFF, [1]⟩, cfg_hardware_blobs _,
    openBank1_rest, rfl, rfl, rfl,
    by decide, by decide, rfl, rfl⟩

theorem witness_AccSubResult : zero.pins.dir = .output ∧ (zeroIn.pins.dir = .input ∧ zeroIn.acc = none)
    ∧ ∃ s : State, s.pins.dir = .input ∧ s.acc = some 0 ∧ HasHardwareConstants s.cfg ∧ LinesAtRest s :=
  ⟨rfl, ⟨rfl, rfl⟩, { zeroIn with acc := some 0 }, rfl, rfl, cfg_hardware, zeroIn_rest⟩
theorem witness_AccStResult : zeroIn.pins.dir = .input ∧ (zero.pins.dir = .output ∧ zero.acc = none)
    ∧ ∃ s : State, s.pins.dir = .output ∧ s.acc = some 0xFF ∧ HasHardwareConstants s.cfg ∧ LinesAtRest s :=
  ⟨rfl, ⟨rfl, rfl⟩, { zero with acc := some 0xFF }, rfl, rfl, cfg_hardware, zero_rest⟩

theorem witness_ChksumEqualsItsCommands : openBank1.mode = .run ∧ openBank1.bankSh = some openBank1.cfg.chkBank :=
  ⟨rfl, rfl⟩
theorem witness_ChksumResult : zero.bankSh ≠ some zero.cfg.chkBank
    ∧ openBank1.bankSh = some openBank1.cfg.chkBank ∧ HasHardwareConstants openBank1.cfg ∧ LinesAtRest openBank1 :=
  ⟨by decide, rfl, cfg_hardware, openBank1_rest⟩

/-- A range that ends at the bank's end, written to its last byte. -/
theorem witness_ChksumStoresComplementOfSum : ∃ s : State, HasHardwareConstants s.cfg ∧ LinesAtRest s ∧ MemoryCanonical s
    ∧ s.oracle = .target
    ∧ s.bankSh = some s.cfg.chkBank ∧ s.cfg.chkBank.toNat < 4 ∧ s.cfg.chkEnd ≤ 0x2000 ∧ s.cfg.chkWrite < 0x2000
    ∧ s.target.ten = some 0x0A ∧ s.target.tbank = some s.cfg.chkBank ∧ s.ramenSh = some 0x0A
    ∧ s.cfg.chkEnd = 0x2000 ∧ s.cfg.chkWrite = 0x1FFF :=
  ⟨{ openBank1 with cfg := { cfg with chkEnd := 0x2000, chkWrite := 0x1FFF } },
    ⟨rfl, rfl, rfl, rfl, rfl, rfl, rfl, rfl, rfl, rfl, rfl, rfl⟩, openBank1_rest, rfl, rfl, rfl,
    by decide, by decide, by decide, rfl, rfl, rfl, rfl, rfl⟩

/-- The moment before a write strobe ends, with an address, in the extended window selected. -/
def strobing (a : Addr) : Pins := { pins with wrN := false, csN := !extended cfg a, sr := a, dOut := 0x5A }

/-- Each clause of the write rule: both control addresses, the two ends of the window, one past it; and what is no end
of a write cycle. -/
theorem witness_TargetWriteRule :
    (∀ a : Addr, (strobing a).wrN = false ∧ (strobing a).addr = some a ∧ (strobing a).dir = .output)
      ∧ (strobing 0xA000).csN = false ∧ (strobing 0xBFFF).csN = false
      ∧ openBank1.target.ten = some 0x0A ∧ openBank1.target.tbank = some 1 ∧ (1 : Byte).toNat < 4
      ∧ (0xC000 : Addr) ≠ 0x0000 ∧ (0xC000 : Addr) ≠ 0x4000 ∧ ¬ (0xC000 : Addr).toNat ≤ 0xBFFF
      ∧ Event.set .wrN false ≠ .set .wrN true ∧ pins.wrN = true ∧ ({ pins with oe := false } : Pins).addr = none
      ∧ zeroIn.pins.dir = .input :=
  ⟨fun _ => ⟨rfl, rfl, rfl⟩, by decide, by decide, rfl, rfl, by decide, by decide, by decide, by decide, by decide, rfl,
    rfl, rfl⟩

theorem witness_TargetMemoryReadsBack : Memory.wf openBank1.target.fill openBank1.target.tram = true
    ∧ openBank1.target.fill = some 0 ∧ openBank1.target.tram = [] := ⟨rfl, rfl, rfl⟩

/-- A bus write, a pseudo-command, and `ACCST`; an address that reaches a location and one that does not. -/
theorem witness_WriteCommandsStoreOneByte : ∃ s : State, HasHardwareConstants s.cfg ∧ LinesAtRest s ∧ MemoryCanonical s ∧ s.pins.dir = .output
    ∧ Instr.expand (.bwr 0xBFFF 7) = .bwr 0xBFFF 7 ∧ Instr.expand .ramen = .bwr 0x0000 0x0A ∧ s.acc = some 7
    ∧ (∃ t, exec (.bwr 0xBFFF 7) s = .next t) ∧ (∃ t, exec (.accst 0xBFFF) s = .next t)
    ∧ s.target.location (decide ((0xBFFF : Addr) < 0x8000)) 0xBFFF = some 0x3FFF
    ∧ s.target.location (decide ((0xC000 : Addr) < 0x8000)) 0xC000 = none :=
  ⟨{ openBank1 with acc := some 7 }, cfg_hardware, openBank1_rest, rfl, rfl, rfl, rfl, rfl, ⟨_, rfl⟩, ⟨_, rfl⟩, by decide, by decide⟩

theorem witness_OtherCommandsStoreNothing : LinesAtRest zero ∧ (∃ t, exec .dirin zero = .next t)
    ∧ startsWrite .dirin = false ∧ Instr.dirin ≠ .chksum ∧ commandFault .chksum zero ≠ none :=
  ⟨zero_rest, ⟨_, rfl⟩, rfl, by decide, by decide⟩

theorem witness_FaultEntry : ∃ s : State, s.checkPending = false ∧ s.mode = .run ∧ s.program.length ≤ s.cp :=
  ⟨{ zero with cp := 1 }, rfl, rfl, by decide⟩

/-- Every fault of a command, and none. -/
theorem witness_FaultsAreFirstFailingCheckAndPrecise : commandFault (.prog 5) zeroIn = some .badBlobIndex
    ∧ commandFault .chksum zero = some .chkBankMismatch ∧ commandFault (.accst 0) zeroIn = some .dirWriteWhileIn
    ∧ commandFault (.accsub 0) zero = some .dirReadWhileOut ∧ commandFault (.accsub 0) zeroIn = some .accUninit
    ∧ commandFault (.bwr 0 0) zero = none := by decide

theorem witness_OnlyResetLeavesTerminalModes : ∃ s : State, s.checkPending = false ∧ s.mode ≠ .run :=
  ⟨{ zero with mode := .done }, rfl, by decide⟩

theorem witness_ResetValues : State.reset = State.reset ∨ State.reset = hardReset zero := .inl rfl

/-- Each register changed by a command named for it. -/
theorem witness_RegisterWriters : nextIs (exec (.brd 0) zeroIn) (fun t => t.rdata.isSome) true = true
    ∧ nextIs (exec (.accinit 1) zero) (fun t => t.acc) (some 1) = true
    ∧ nextIs (exec (.selbank 1) zero) (fun t => t.bankSh) (some 1) = true
    ∧ nextIs (exec .chksum zero) (fun t => t.fcode) 7 = true
    ∧ nextIs (exec .done zero) (fun t => t.pins.led) true = true
    ∧ nextIs (exec .dirin zero) (fun t => t.pins.dir) .input = true := by
  refine ⟨?_, by decide, by decide, by decide, by decide, by decide⟩
  rfl

theorem witness_StepKeepsConfiguration : HasHardwareConstants zero.cfg ∧ ∃ t, step zero = .next t :=
  ⟨cfg_hardware, zero_steps⟩
theorem witness_RulesReadTheConfiguration : pins.sclk = false ∧ zero.pins.dir = .output
    ∧ zero.cfg.blobs[(1 : Byte).toNat]? = some ⟨1, 0x10C0, [0x11, 0x22]⟩
    ∧ openBank1.bankSh = some openBank1.cfg.chkBank := ⟨rfl, rfl, rfl, rfl⟩
theorem witness_StateFollowsTrace : ∃ t, step zero = .next t := zero_steps
theorem witness_StepKeepsLinesAtRest : LinesAtRest zero ∧ ∃ t, step zero = .next t := ⟨zero_rest, zero_steps⟩
/-- The step is a `BWR`, so that there is a strobe. -/
theorem witness_NoStepHasABusHazard : ∃ s : State, HasHardwareConstants s.cfg ∧ LinesAtRest s ∧ ∃ t, step s = .next t ∧ t.trace.length = 59 :=
  ⟨{ zero with program := [0x20A020AA] }, cfg_hardware, zero_rest, _, rfl, by decide⟩
/-- The step is `RAMEN`, so that a shadow is written. -/
theorem witness_ShadowsAreLastControlWrites : ∃ s : State, HasHardwareConstants s.cfg ∧ LinesAtRest s
    ∧ ∃ t, step s = .next t ∧ t.ramenSh = some 0x0A :=
  ⟨{ zero with program := [0x2000000A] }, cfg_hardware, zero_rest, _, rfl, by decide⟩
theorem witness_StepKeepsShadowsAgreeing : ∃ s : State, HasHardwareConstants s.cfg ∧ LinesAtRest s ∧ ShadowsAgree s ∧ ∃ t, step s = .next t :=
  ⟨openBank1, cfg_hardware, openBank1_rest, ⟨fun _ h => h, fun _ h => h⟩, ⟨_, rfl⟩⟩
theorem witness_StepKeepsMemoryCanonical : MemoryCanonical zero ∧ ∃ t, step zero = .next t :=
  ⟨zero_canonical, zero_steps⟩
theorem witness_StepKeepsSequencerAgreeing : SequencerAgrees zero ∧ ∃ t, step zero = .next t :=
  ⟨zero_sequencer, zero_steps⟩
theorem witness_CheckedConfigurationNeverBadBlob : ConfigChecked zero ∧ (zero.cfg.cfgValidate = true → zero.fcode ≠ 0x06)
    ∧ ∃ t, step zero = .next t := ⟨fun _ _ _ => by decide, fun _ => by decide, zero_steps⟩
theorem witness_EndsWellExactlyInDone : SequencerAgrees zero := zero_sequencer
/-- The first and last addresses of each window. -/
theorem witness_AddressWindows : HasHardwareConstants cfg ∧ extended cfg 0x7FFF = false ∧ extended cfg 0x8000 = true
    ∧ inRamWindow cfg 0x9FFF = false ∧ inRamWindow cfg 0xA000 = true ∧ inRamWindow cfg 0xBFFF = true
    ∧ inRamWindow cfg 0xC000 = false ∧ isControl cfg 0x4000 = true := ⟨cfg_hardware, by decide⟩

/-- Two states that differ in a latch and a byte of the target, with the same parameters; and a step. -/
theorem witness_NothingPersistsAcrossReset : ∃ u : State, u ≠ zero ∧ u.cfg = zero.cfg ∧ u.program = zero.program
    ∧ u.oracle = zero.oracle ∧ u.inputs = zero.inputs ∧ u.draws = zero.draws ∧ u.target.run = zero.target.run
    ∧ ∃ t, step u = .next t :=
  ⟨{ zero with target := ⟨some 0x0A, none, [(0x20, 1)], some 0, 0⟩ }, by decide, rfl, rfl, rfl, rfl, rfl, rfl, _, rfl⟩
theorem witness_InvariantsHoldAfterAnyReset : HasHardwareConstants zero.cfg := cfg_hardware

/-- R98: RAM written in the run before is not listed after a reset, and the start state a test fixed is gone. -/
theorem test_reset_forgets_target : (hardReset { zero with target := ⟨some 0x0A, some 1, [(0x20, 1)], some 0, 0⟩ }).target
    = Target.atStart 1 := rfl

end Sys2Proof.Machine.Test
end

section
/-! PROOFS, 00_scope.md: the configuration is a parameter of the step relation (R8, R9, 10_state.md R16), and the rules
of the block read their constants there, whatever the values. -/

namespace Sys2Proof.Machine

/-! ## No step changes a parameter -/

/-- Settles O45: a step is a run of chunks, which leaves both parameters alone. -/
theorem stepKeepsConfiguration : Obligations.StepKeepsConfiguration := by
  intro s t h
  obtain ⟨es, hr⟩ := step_runs h
  exact ⟨hr.cfg, hr.program, fun hc => hr.cfg ▸ hc⟩

/-! ## The bits on `SER` at the clock's rising edges (40_address_shifter.md R54) -/

theorem serAtEdges_cons (p : Pins) (e : Event) (es : List Event) :
    serAtEdges p (e :: es) = serAtEdges p [e] ++ serAtEdges (p.apply e) es := by
  cases e with
  | set l v => cases l <;> simp [serAtEdges]
  | drive => rfl
  | dir => rfl
  | delay => rfl
  | sample => rfl
  | halt => rfl

theorem serAtEdges_append (p : Pins) (xs ys : List Event) :
    serAtEdges p (xs ++ ys) = serAtEdges p xs ++ serAtEdges (p.applyAll xs) ys := by
  induction xs generalizing p with
  | nil => rfl
  | cons e xs ih =>
    rw [List.cons_append, serAtEdges_cons, ih, serAtEdges_cons p e xs, List.append_assoc, Pins.applyAll_cons]

/-- One bit gives one rising edge, with the bit on `SER`, the clock low before it. -/
theorem serAtEdges_shiftBit {p : Pins} (h : p.sclk = false) (a : Addr) (i : Nat) :
    serAtEdges p (shiftBit a i) = [a.getLsbD i] := by
  simp [shiftBit, serAtEdges, h]

theorem serAtEdges_shiftBits {p : Pins} (h : p.sclk = false) (a : Addr) (is : List Nat) :
    serAtEdges p (is.flatMap (shiftBit a)) = is.map (fun i => a.getLsbD i) := by
  induction is generalizing p with
  | nil => rfl
  | cons i is ih =>
    have hi : (p.applyAll (shiftBit a i)).sclk = false := by rw [Pins.applyAll_shiftBit h]; exact h
    rw [List.flatMap_cons, serAtEdges_append, serAtEdges_shiftBit h, ih hi]
    rfl

/-- `ShiftOut(a)` clocks out bits 0 to `SHIFT_BITS - 1` of the address, least significant first. -/
theorem serAtEdges_shiftEvents {p : Pins} (h : p.sclk = false) (c : Cfg) (a : Addr) :
    serAtEdges p (shiftEvents c a) = (List.range c.shiftBits).map (fun k => a.getLsbD k) := by
  have hbits : serAtEdges (p.applyAll [.set .oe false]) ((List.range c.shiftBits).flatMap (shiftBit a))
      = (List.range c.shiftBits).map (fun k => a.getLsbD k) :=
    serAtEdges_shiftBits (p := p.applyAll [.set .oe false]) h a _
  have hoe (q : Pins) (v : Bool) : serAtEdges q [.set .oe v] = [] := rfl
  rw [shiftEvents, serAtEdges_append, serAtEdges_append, hoe, hoe, hbits, List.nil_append, List.append_nil]

/-! ## Chip select (41_bus_cycle.md R57, R58) -/

theorem extended_eq_true_iff {c : Cfg} {a : Addr} : extended c a = true ↔ c.extBase ≤ a := decide_eq_true_iff

theorem csN_notMem_shiftEvents (c : Cfg) (a : Addr) (v : Bool) : Event.set .csN v ∉ shiftEvents c a := by
  simp [shiftEvents, shiftBit]

theorem csN_mem_selectEvents {c : Cfg} {a : Addr} {v w : Bool} :
    Event.set .csN v ∈ selectEvents c a w ↔ v = w ∧ c.extBase ≤ a := by
  rw [← extended_eq_true_iff, selectEvents]
  split <;> simp [*]

/-- A write cycle asserts chip select exactly from `EXT_BASE` on. -/
theorem csN_low_mem_writeEvents {c : Cfg} {a : Addr} {d : Byte} :
    Event.set .csN false ∈ writeEvents c a d ↔ c.extBase ≤ a := by
  simp [writeEvents, idleEvents, csN_notMem_shiftEvents, csN_mem_selectEvents]

/-- A read cycle asserts chip select exactly from `EXT_BASE` on. -/
theorem csN_low_mem_readEvents {c : Cfg} {a : Addr} {v : Byte} :
    Event.set .csN false ∈ readEvents c a v ↔ c.extBase ≤ a := by
  simp [readEvents, readHead, readTail, idleEvents, csN_notMem_shiftEvents, csN_mem_selectEvents]

/-! ## The violation cases (42_protocol.md R67), whatever the constants -/

theorem isControl_eq_true_iff {c : Cfg} {a : Addr} : isControl c a = true ↔ a = c.ctrlRamen ∨ a = c.ctrlBank := by
  simp [isControl]

theorem inRamWindow_eq_true_iff {c : Cfg} {a : Addr} : inRamWindow c a = true ↔ c.ramBase ≤ a ∧ a < c.ramLimit := by
  simp [inRamWindow]

theorem ramOpen_eq_true_iff {c : Cfg} {ramenSh bankSh : Option Byte} : ramOpen c ramenSh bankSh = true ↔
    ramenSh = some c.enableCode ∧ ∃ n : Byte, bankSh = some n ∧ n.toNat < c.nbanks := by
  cases ramenSh with
  | none => cases bankSh <;> simp [ramOpen]
  | some e => cases bankSh <;> simp [ramOpen]

/-- Cases 1 to 3 of R67: a code that is neither of the two, a bank that does not exist, a read of a control address. -/
theorem violatesControl_iff {c : Cfg} {k : Access} {a : Addr} : violatesControl c k a = true ↔
    (∃ d : Byte, k = .write d ∧ a = c.ctrlRamen ∧ d ≠ c.enableCode ∧ d ≠ c.disableCode)
      ∨ (∃ d : Byte, k = .write d ∧ a = c.ctrlBank ∧ c.nbanks ≤ d.toNat)
      ∨ (k = .read ∧ (a = c.ctrlRamen ∨ a = c.ctrlBank)) := by
  cases k with
  | read => simp [violatesControl, isControl_eq_true_iff]
  | write d => simp [violatesControl, and_assoc]

/-- The five cases of R67. -/
theorem violates_iff_five_cases {c : Cfg} {k : Access} {a : Addr} {ramenSh bankSh : Option Byte} :
    violates c k a ramenSh bankSh = true ↔
      (∃ d : Byte, k = .write d ∧ a = c.ctrlRamen ∧ d ≠ c.enableCode ∧ d ≠ c.disableCode)
        ∨ (∃ d : Byte, k = .write d ∧ a = c.ctrlBank ∧ c.nbanks ≤ d.toNat)
        ∨ (k = .read ∧ (a = c.ctrlRamen ∨ a = c.ctrlBank))
        ∨ ((c.ramBase ≤ a ∧ a < c.ramLimit)
            ∧ ¬ (ramenSh = some c.enableCode ∧ ∃ n : Byte, bankSh = some n ∧ n.toNat < c.nbanks))
        ∨ (a ≠ c.ctrlRamen ∧ a ≠ c.ctrlBank ∧ ¬ (c.ramBase ≤ a ∧ a < c.ramLimit)) := by
  simp only [violates_iff, violatesControl_iff, inRamWindow_eq_true_iff, ramOpen_eq_true_iff, isControl_eq_true_iff,
    not_or, or_assoc, and_assoc, ne_eq]

/-! ## The events of the commands that write (R57, R68-R71, 43_checksum.md R76) -/

/-- Advancing `CP` emits nothing. -/
theorem EmittedBetween.advance {s t : State} {es : List Event} (h : EmittedBetween s t es) :
    EmittedBetween s (advance t) es := h

/-- A command that is one bus write, past its check (R60, R61). -/
theorem writeCommand_of_output {w : Word} {a : Addr} {d : Byte} {s : State} (ho : s.pins.dir = .output) :
    writeCommand w a d s = advance (busWrite a d s) := if_pos ho

theorem busWrite_emits (a : Addr) (d : Byte) (s : State) :
    EmittedBetween s (busWrite a d s) (writeEvents s.cfg a d) := busWrite_trace a d s

/-- A write of `d` to `CTRL_RAMEN` leaves `d` in its shadow. -/
theorem writeCommand_ctrlRamen {w : Word} {d : Byte} {s : State} (ho : s.pins.dir = .output) :
    (writeCommand w s.cfg.ctrlRamen d s).ramenSh = some d
      ∧ EmittedBetween s (writeCommand w s.cfg.ctrlRamen d s) (writeEvents s.cfg s.cfg.ctrlRamen d) := by
  rw [writeCommand_of_output ho]
  exact ⟨by simp, (busWrite_emits _ d s).advance⟩

/-- A write of `d` to `CTRL_BANK` leaves `d` in its shadow. -/
theorem writeCommand_ctrlBank {w : Word} {d : Byte} {s : State} (ho : s.pins.dir = .output) :
    (writeCommand w s.cfg.ctrlBank d s).bankSh = some d
      ∧ EmittedBetween s (writeCommand w s.cfg.ctrlBank d s) (writeEvents s.cfg s.cfg.ctrlBank d) := by
  rw [writeCommand_of_output ho]
  exact ⟨by simp, (busWrite_emits _ d s).advance⟩

/-- `programBlob` writes the bank select, then every byte at its address. -/
theorem programBlob_emits (b : Blob) (s : State) : EmittedBetween s (programBlob b s)
    (writeEvents s.cfg s.cfg.ctrlBank b.bank ++ blobEvents s.cfg b.offset 0 b.bytes) := by
  rw [EmittedBetween, programBlob, writeBlob_trace, busWrite_cfg, busWrite_trace, List.reverse_append,
    List.append_assoc]

/-- `PROG` past its checks (R71). -/
theorem exec_prog {k : Byte} {b : Blob} {s : State} (ho : s.pins.dir = .output)
    (hb : s.cfg.blobs[k.toNat]? = some b) : exec (.prog k) s = .next (advance (programBlob b s)) := by
  simp [exec, execProg, hb, ho]

/-- `CHKSUM` past its check (R76). -/
theorem exec_chksum {s : State} (hb : s.bankSh = some s.cfg.chkBank) :
    exec .chksum s = .next (advance (checksumBody s)) := by
  simp [exec, execChksum, hb]

/-- The events of reading the checksum range, by the offsets of its addresses past `RAM_BASE`. -/
theorem chkRange_readEvents (c : Cfg) (vs : List Byte) :
    ((chkRange c).zip vs).flatMap (fun x => readEvents c x.1 x.2)
      = ((List.range' c.chkStart (c.chkEnd - c.chkStart)).zip vs).flatMap
          (fun x => readEvents c (ramRelative c x.1) x.2) := by
  rw [chkRange, List.zip_map_left, List.flatMap_map]
  rfl

/-- The five steps of `CHKSUM` as events: the range read with the bus turned in, then the difference written with the
bus turned out. -/
theorem checksumBody_emits (s : State) : ∃ vs : List Byte, vs.length = s.cfg.chkEnd - s.cfg.chkStart
    ∧ EmittedBetween s (checksumBody s) ([.dir .input]
        ++ ((List.range' s.cfg.chkStart (s.cfg.chkEnd - s.cfg.chkStart)).zip vs).flatMap
            (fun x => readEvents s.cfg (ramRelative s.cfg x.1) x.2)
        ++ [.dir .output] ++ writeEvents s.cfg (chkWriteAddr s.cfg) (s.cfg.chkInit - byteSum vs)) := by
  obtain ⟨vs, hlen, hacc, htrace⟩ := checksumReads_trace s
  refine ⟨vs, hlen, ?_⟩
  rw [EmittedBetween, checksumBody_eq, busWrite_trace, emit_cfg, emit_trace, checksumReads_cfg, htrace, hacc,
    chkRange_readEvents]
  simp

/-! ## The rules over the configuration's constants -/

/-- Settles O46: one lemma above for each clause, none of which knows a value of a constant. -/
theorem rulesReadTheConfiguration : Obligations.RulesReadTheConfiguration := by
  refine ⟨fun c p a h => serAtEdges_shiftEvents h c a,
    fun c a d v => ⟨csN_low_mem_writeEvents, csN_low_mem_readEvents⟩,
    fun c k a ramenSh bankSh => violates_iff_five_cases, ?pseudo, ?prog, ?chksum⟩
  case pseudo =>
    intro s n ho
    exact ⟨⟨_, rfl, writeCommand_ctrlRamen ho⟩, ⟨_, rfl, writeCommand_ctrlRamen ho⟩,
      ⟨_, rfl, writeCommand_ctrlBank ho⟩⟩
  case prog =>
    intro s k b ho hb
    exact ⟨_, exec_prog ho hb, (programBlob_emits b s).advance⟩
  case chksum =>
    intro s hb
    obtain ⟨vs, hlen, hevents⟩ := checksumBody_emits s
    exact ⟨_, vs, exec_chksum hb, hlen, hevents.advance⟩

end Sys2Proof.Machine
end

section
/-! PROOFS, 10_state.md: what the sequencer's mode and its halts say of each other, which command writes which register,
the external shift register, the oracle's answers, and the state as what its trace makes it. -/

namespace Sys2Proof.Machine

/-! ## What an effect writes (R19) -/

/-- A command's effect keeps the sequencer and is one step of `CP`, or the command is one of the two that end a run. -/
theorem effect_cases (i : Instr) (s : State) :
    (∃ t, effect i s = advance t ∧ KeptSeq s t) ∨ i = .done ∨ i = .panic := by
  cases h : isTerminal i with
  | false => exact .inl (effect_advance s h)
  | true =>
    cases i with
    | done => exact .inr (.inl rfl)
    | panic => exact .inr (.inr rfl)
    | _ => cases h

/-- No command's effect writes the fault record, the parameters or the pending check. -/
theorem effect_kept (i : Instr) (s : State) : Kept s (effect i s) := by
  rcases effect_cases i s with ⟨t, he, hk⟩ | rfl | rfl
  · rw [he]
    exact ⟨hk.fcode, hk.fcp, hk.fword, hk.cfg, hk.program, hk.checkPending, hk.oracle⟩
  · exact ⟨rfl, rfl, rfl, rfl, rfl, rfl, rfl⟩
  · exact ⟨rfl, rfl, rfl, rfl, rfl, rfl, rfl⟩

@[simp] theorem programBlob_rdata (b : Blob) (s : State) : (programBlob b s).rdata = s.rdata := by
  rw [programBlob, writeBlob_frame, busWrite_rdata]

@[simp] theorem programBlob_acc (b : Blob) (s : State) : (programBlob b s).acc = s.acc := by
  rw [programBlob, writeBlob_frame, busWrite_acc]

@[simp] theorem programBlob_led (b : Blob) (s : State) : (programBlob b s).pins.led = s.pins.led := by
  rw [programBlob, (writeBlob_dir_led _ _ _ _).2, busWrite_led]

@[simp] theorem programBlob_dir (b : Blob) (s : State) : (programBlob b s).pins.dir = s.pins.dir := by
  rw [programBlob, (writeBlob_dir_led _ _ _ _).1, busWrite_dir]

@[simp] theorem checksumBody_rdata (s : State) : (checksumBody s).rdata = s.rdata := by
  rw [checksumBody_eq, busWrite_rdata, emit_rdata, checksumReads_rdata]

@[simp] theorem checksumBody_led (s : State) : (checksumBody s).pins.led = s.pins.led := by
  rw [checksumBody_eq, busWrite_led]
  exact checksumReads_led s

theorem emitAll_shiftEvents_led (c : Cfg) (a : Addr) (s : State) :
    (emitAll (shiftEvents c a) s).pins.led = s.pins.led := by
  rw [emitAll_pins, Pins.applyAll_led _ (shiftEvents_keepsLed c a)]

theorem emitAll_shiftEvents_dir (c : Cfg) (a : Addr) (s : State) :
    (emitAll (shiftEvents c a) s).pins.dir = s.pins.dir := by
  rw [emitAll_pins, Pins.applyAll_dir _ (shiftEvents_keepsDir c a)]

theorem effect_rdata {i : Instr} (s : State) (h : ∀ a : Addr, i ≠ .brd a) : (effect i s).rdata = s.rdata := by
  cases i with
  | brd a => exact absurd rfl (h a)
  | _ => simp [effect, subtractRead]

theorem effect_acc {i : Instr} (s : State) (hinit : ∀ c : Byte, i ≠ .accinit c) (hsub : ∀ a : Addr, i ≠ .accsub a)
    (hsum : i ≠ .chksum) : (effect i s).acc = s.acc := by
  cases i with
  | accinit c => exact absurd rfl (hinit c)
  | accsub a => exact absurd rfl (hsub a)
  | chksum => exact absurd rfl hsum
  | _ => simp [effect]

theorem effect_shadows {i : Instr} (s : State) (hw : startsWrite i = false) (hsum : i ≠ .chksum) :
    (effect i s).ramenSh = s.ramenSh ∧ (effect i s).bankSh = s.bankSh := by
  cases i with
  | chksum => exact absurd rfl hsum
  | bwr | accst | prog | ramen | ramdis | selbank => cases hw
  | _ => simp [effect, subtractRead]

theorem effect_led {i : Instr} (s : State) (h : i ≠ .done) : (effect i s).pins.led = s.pins.led := by
  cases i with
  | done => exact absurd rfl h
  | shift a => exact emitAll_shiftEvents_led _ a s
  | _ => simp [effect, subtractRead]

theorem effect_dir {i : Instr} (s : State) (hin : i ≠ .dirin) (hout : i ≠ .dirout) (hsum : i ≠ .chksum) :
    (effect i s).pins.dir = s.pins.dir := by
  cases i with
  | dirin => exact absurd rfl hin
  | dirout => exact absurd rfl hout
  | chksum => exact absurd rfl hsum
  | shift a => exact emitAll_shiftEvents_dir _ a s
  | _ => simp [effect, subtractRead]

/-- A part of the state that fault entry leaves alone: where a command changes it, its effect does. -/
theorem effect_changes {α : Type} (f : State → α) {i : Instr} {s t : State}
    (hf : ∀ (c : FaultCode) (w : Word), f (raiseFault c w s) = f s) (h : exec i s = .next t) (hne : f t ≠ f s) :
    f (effect i s) ≠ f s := by
  rcases exec_cases h with ⟨c, -, rfl⟩ | ⟨-, rfl⟩
  · exact absurd (hf c _) hne
  · exact hne

/-- Settles O42: fault entry writes none of the data registers, and one lemma above for each says which effects do. -/
theorem registerWriters : Obligations.RegisterWriters := by
  intro i s t h
  refine ⟨fun hne => ?rdata, fun hne => ?acc, fun hne => ?shadows, fun hne => ?record, fun hne => ?led,
    fun hne => ?dir, ?parameters⟩
  case rdata =>
    have he := effect_changes State.rdata (fun _ _ => rfl) h hne
    by_contra! hi
    exact he (effect_rdata s hi)
  case acc =>
    have he := effect_changes State.acc (fun _ _ => rfl) h hne
    by_contra! ⟨hinit, hsub, hsum⟩
    exact he (effect_acc s hinit hsub hsum)
  case shadows =>
    have he := effect_changes (fun u => (u.ramenSh, u.bankSh)) (fun _ _ => rfl) h (by
      simpa only [ne_eq, Prod.mk.injEq, not_and_or] using hne)
    by_contra! ⟨hw, hsum⟩
    obtain ⟨hr, hb⟩ := effect_shadows s (Bool.eq_false_iff.2 hw) hsum
    exact he (Prod.ext hr hb)
  case record =>
    rcases exec_cases h with ⟨c, -, rfl⟩ | ⟨-, rfl⟩
    · rfl
    · have hk := effect_kept i s
      simp [hk.fcode, hk.fcp, hk.fword] at hne
  case led =>
    have he := effect_changes (fun u => u.pins.led) (fun _ _ => rfl) h hne
    by_contra hi
    exact he (effect_led s hi)
  case dir =>
    have he := effect_changes (fun u => u.pins.dir) (fun _ _ => rfl) h hne
    by_contra! ⟨hin, hout, hsum⟩
    exact he (effect_dir s hin hout hsum)
  case parameters =>
    obtain ⟨es, hr⟩ := exec_runs h
    have hp : t.checkPending = s.checkPending := by
      rcases exec_cases h with ⟨c, -, rfl⟩ | ⟨-, rfl⟩
      · rfl
      · exact (effect_kept i s).checkPending
    exact ⟨hr.cfg, hr.program, hp, hr.oracle, by rw [hr.target, Target.observeAll_fill]⟩

/-! ## The command pointer (R21) -/

/-- Settles O10: a command that ends no run is one step of `CP`; the two that end it and fault entry keep it. -/
theorem commandPointerOnlyAdvances : Obligations.CommandPointerOnlyAdvances := by
  intro i s t hm h
  rcases exec_cases h with ⟨f, -, rfl⟩ | ⟨-, rfl⟩
  · exact .inr ⟨nofun, rfl⟩
  · rcases effect_cases i s with ⟨u, he, hk⟩ | rfl | rfl
    · rw [he, advance_mode, advance_cp, hk.mode, hk.cp]
      exact .inl ⟨hm, rfl⟩
    · exact .inr ⟨nofun, rfl⟩
    · exact .inr ⟨nofun, rfl⟩

/-! ## Mode, halts and fault record (R25, 60_exceptions.md R88) -/

/-- A running sequencer agrees exactly when it has not halted and holds no fault record. -/
theorem sequencerAgrees_iff_of_run {s : State} (hm : s.mode = .run) :
    SequencerAgrees s ↔ halts s.trace = [] ∧ s.fcode = 0 := by
  simp only [SequencerAgrees, hm, ← mem_halts, List.eq_nil_iff_forall_not_mem]
  constructor
  · rintro ⟨hh, hf, -⟩
    exact ⟨fun m hmem => ((hh m).1 hmem).2 ((hh m).1 hmem).1.symm, by simpa using hf⟩
  · rintro ⟨hh, hf⟩
    exact ⟨fun m => ⟨fun hmem => absurd hmem (hh m), fun ⟨he, hne⟩ => absurd he.symm hne⟩, by simp [hf],
      fun _ => trivial⟩

/-- A sequencer that has just halted, once, in its terminal mode agrees. -/
theorem sequencerAgrees_of_halted {s : State} (hne : s.mode ≠ .run) (hh : halts s.trace = [s.mode])
    (hf : s.fcode ≠ 0 ↔ s.mode = .fault) (hp : s.checkPending = false) : SequencerAgrees s := by
  refine ⟨fun m => ?_, hf, fun h => by rw [hp] at h; cases h⟩
  rw [← mem_halts, hh, List.mem_singleton]
  constructor
  · rintro rfl
    exact ⟨rfl, hne⟩
  · exact fun h => h.1.symm

theorem FaultCode.code_ne_zero (f : FaultCode) : f.code ≠ 0 := by cases f <;> decide

/-- Fault entry from a running sequencer. -/
theorem raiseFault_sequencer {s : State} (hm : s.mode = .run) (hs : SequencerAgrees s) (hp : s.checkPending = false)
    (f : FaultCode) (w : Word) : SequencerAgrees (raiseFault f w s) := by
  have hh := ((sequencerAgrees_iff_of_run hm).1 hs).1
  exact sequencerAgrees_of_halted nofun (congrArg (Mode.fault :: ·) hh) ⟨fun _ => rfl, fun _ => f.code_ne_zero⟩ hp

/-- PANIC entry from a running sequencer. -/
theorem enterPanic_sequencer {s : State} (hm : s.mode = .run) (hs : SequencerAgrees s) (hp : s.checkPending = false) :
    SequencerAgrees (enterPanic s) := by
  obtain ⟨hh, hf⟩ := (sequencerAgrees_iff_of_run hm).1 hs
  exact sequencerAgrees_of_halted nofun (congrArg (Mode.panic :: ·) hh) (by simp [hf]) hp

/-- A command's effect from a running sequencer. -/
theorem effect_sequencer {s : State} (hm : s.mode = .run) (hs : SequencerAgrees s) (hp : s.checkPending = false)
    (i : Instr) : SequencerAgrees (effect i s) := by
  obtain ⟨hh, hf⟩ := (sequencerAgrees_iff_of_run hm).1 hs
  rcases effect_cases i s with ⟨t, he, hk⟩ | rfl | rfl
  · rw [he]
    exact (sequencerAgrees_iff_of_run (hk.mode.trans hm)).2 ⟨hk.halts.trans hh, hk.fcode.trans hf⟩
  · exact sequencerAgrees_of_halted nofun (congrArg (Mode.done :: ·) hh) (by simp [effect, hf]) hp
  · exact enterPanic_sequencer hm hs hp

/-- The configuration check, which finds the mode at RUN. -/
theorem configCheck_sequencer {s : State} (hm : s.mode = .run) (hs : SequencerAgrees s) :
    SequencerAgrees (configCheck s) := by
  have hquiet := (sequencerAgrees_iff_of_run hm).1 hs
  rcases configCheck_cases s with ⟨-, -, hc⟩ | ⟨-, hc⟩ <;> rw [hc]
  · have hs' := (sequencerAgrees_iff_of_run (s := { s with checkPending := false }) hm).2 hquiet
    exact enterPanic_sequencer hm hs' rfl
  · exact (sequencerAgrees_iff_of_run rfl).2 hquiet

/-- Settles O52: whatever a step does, it starts from a running sequencer, with no halt and no fault record yet. -/
theorem stepKeepsSequencerAgreeing : Obligations.StepKeepsSequencerAgreeing := by
  intro s t hs h
  have ⟨_, _, hrun⟩ := hs
  rcases step_cases h with ⟨hp, rfl⟩ | ⟨hp, hm, ⟨-, rfl⟩ | ⟨w, e, -, -, rfl⟩ | ⟨w, i, -, -, hx⟩⟩
  · exact configCheck_sequencer (hrun hp) hs
  · exact raiseFault_sequencer hm hs hp _ _
  · exact raiseFault_sequencer hm hs hp _ w
  · rcases exec_cases hx with ⟨f, -, rfl⟩ | ⟨-, rfl⟩
    · exact raiseFault_sequencer hm hs hp f _
    · exact effect_sequencer hm hs hp i

/-! ## Lines, target and shadows follow the trace (R17, R25) -/

/-- Settles O43: a step is a run of chunks, whose delays are all of `SETTLE`. -/
theorem stateFollowsTrace : Obligations.StateFollowsTrace := by
  intro s t h
  obtain ⟨es, hr⟩ := step_runs h
  exact ⟨es, hr.trace, hr.pins, hr.target, fun n hn => hr.chunks.delay hn⟩

/-- Settles O49: a step is a run of chunks, whose recorded writes the shadows follow. -/
theorem shadowsAreLastControlWrites : Obligations.ShadowsAreLastControlWrites := by
  intro s t hc hs h
  obtain ⟨es, hr⟩ := step_runs h
  have hsh := hr.shadows hc hs
  rw [hc.ctrlRamen, hc.ctrlBank] at hsh
  exact ⟨es, hr.trace, hsh⟩

/-! ## Redundant sets (R25) -/

theorem Pins.apply_set_level (p : Pins) (l : Line) : p.apply (.set l (p.level l)) = p := by
  cases l with
  | sclk => simp [Pins.setLine, Pins.level]
  | _ => rfl

/-- A redundant event is the `Set` of a line to the level it has. -/
theorem isRedundant_iff {p : Pins} {e : Event} : isRedundant p e = true ↔ ∃ l : Line, e = .set l (p.level l) := by
  cases e with
  | set l v => simp [isRedundant, eq_comm (a := v)]
  | _ => simp [isRedundant]

theorem Target.observe_set_level (p : Pins) (t : Target) (l : Line) : Target.observe p t (.set l (p.level l)) = t := by
  cases l with
  | wrN => simp [Target.observe, Pins.level]
  | _ => rfl

theorem recordEvent_set_level (p : Pins) (l : Line) : recordEvent p (.set l (p.level l)) = [] := by
  cases l with
  | wrN => simp [recordEvent, Pins.level]
  | _ => rfl

/-- Settles O44, by induction on the events: a `Set` of a line to the level it has changes no line and shows nothing. -/
theorem redundantSetsShowNothing : Obligations.RedundantSetsShowNothing := by
  intro p t es
  induction es generalizing p t with
  | nil => exact ⟨rfl, rfl, rfl⟩
  | cons e es ih =>
    obtain ⟨hp, ht, hb⟩ := ih (p.apply e) (Target.observe p t e)
    rw [dropRedundant]
    split
    · next hr =>
      obtain ⟨l, rfl⟩ := isRedundant_iff.1 hr
      rw [Pins.applyAll_cons, Target.observeAll_cons, recordBus_cons, recordEvent_set_level, List.nil_append]
      rw [Target.observe_set_level] at ht ⊢
      rw [Pins.apply_set_level] at hp ht hb ⊢
      exact ⟨hp, ht, hb⟩
    · simp [hp, ht, hb]

/-! ## The external shift register (R23) -/

/-- Only a rising edge of `SCLK` moves `SR`. -/
theorem Pins.apply_sr {p : Pins} {e : Event} (h : e ≠ .set .sclk true ∨ p.sclk = true) : (p.apply e).sr = p.sr := by
  cases e with
  | set l v =>
    cases l with
    | sclk => cases v <;> simp_all [Pins.setLine]
    | _ => rfl
  | _ => rfl

/-- Settles O14: the clock edge by the line's own rule, the sixteen pulses by the shifter's. -/
theorem shiftRegisterClocksOnRisingEdge : Obligations.ShiftRegisterClocksOnRisingEdge := by
  refine ⟨fun p h => ?edge, fun p e h => Pins.apply_sr h, fun p => ?bus, fun c p a hc h => ?pulses⟩
  case edge => simp [Pins.setLine, shiftIn, h]
  case bus => exact ⟨fun h => if_pos h, fun h => if_neg (by simp [h])⟩
  case pulses =>
    rw [Pins.applyAll_shiftEvents hc h]
    exact ⟨rfl, rfl⟩

/-! ## Whose byte a read gives (R26, 20_memory.md R45) -/

/-- `BRD` past its check (41_bus_cycle.md R62). -/
theorem exec_brd {a : Addr} {s : State} (hd : s.pins.dir = .input) :
    exec (.brd a) s = .next (advance { (busRead a s).2 with rdata := some (busRead a s).1 }) := by
  simp [exec, execBrd, hd]

/-- `BRD` and `ACCSUB` give the byte of one read cycle and take from the environment what it takes. -/
theorem readGives_busRead {a : Addr} {s : State} (hi : s.pins.dir = .input) :
    ReadGives a s (busRead a s).1 (busRead a s).2.inputs (busRead a s).2.draws := by
  refine ⟨⟨_, exec_brd hi, ?_⟩, fun c hc => ⟨_, exec_accsub hi hc, ?_⟩⟩
  · exact ⟨rfl, rfl, rfl⟩
  · simp [subtractRead, accMinus]

/-- An address of the checksum range is that of an offset of it. -/
theorem mem_chkRange {c : Cfg} {a : Addr} :
    a ∈ chkRange c ↔ ∃ o ∈ List.range' c.chkStart (c.chkEnd - c.chkStart), ramRelative c o = a := List.mem_map

/-- Settles O19: the oracle's three cases for one read cycle, and the range reads of `CHKSUM` as many of them. -/
theorem oracleAnswersReads : Obligations.OracleAnswersReads := by
  refine ⟨fun a s hc hs hi => ?read, fun s n hc hs hb hn hf => ?chksum⟩
  case read =>
    rw [← not_extended_eq_decide hc]
    have hg := readGives_busRead (a := a) hi
    refine ⟨fun loc ht hl => ?_, fun v rest hf hin => ?_, fun hf hin => ⟨(busRead a s).1, ?_⟩⟩
    · obtain ⟨hv, hin, hdr⟩ := busRead_value_target hc hs hi ht hl
      rwa [hv, hin, hdr] at hg
    · obtain ⟨hv, hin, hdr⟩ := busRead_value_input hc hs hi hf hin
      rwa [hv, hin, hdr] at hg
    · obtain ⟨-, hin, hdr⟩ := busRead_value_free hc hs hi hf hin
      rwa [hin, hdr] at hg
  case chksum =>
    subst hn
    have hfree : ∀ a ∈ chkRange s.cfg, s.oracle = .free ∨ s.target.location (!extended s.cfg a) a = none := by
      intro a ha
      obtain ⟨o, ho, rfl⟩ := mem_chkRange.1 ha
      rw [not_extended_eq_decide hc, ramRelative, hc.ramBase]
      exact hf.imp_right fun hnone => hnone o ho
    obtain ⟨vs, hlen, htake, hacc, hin, hdr⟩ := checksumReads_free hc hs hfree
    obtain ⟨ha, hi, hd⟩ := checksumBody_env s
    exact ⟨_, vs, exec_chksum hb, hlen, htake, by rw [advance_acc, ha, hacc],
      by rw [advance_inputs, hi, hin], by rw [advance_draws, hd, hdr]⟩

/-! ## Reset (R27) -/

/-- Settles O41: both resets are written out with R27's values. -/
theorem resetValues : Obligations.ResetValues := by
  rintro s0 s (rfl | rfl)
  · simp [State.reset, Pins.afterReset]
  · simp [Pins.afterReset]

/-- Settles O54: at reset nothing has been emitted, no shadow holds a value and the check is still to come. -/
theorem invariantsHoldAtReset : Obligations.InvariantsHoldAtReset := by
  refine ⟨reference_hardware, ⟨rfl, rfl, rfl, rfl, rfl⟩, ⟨nofun, nofun⟩, rfl,
    (sequencerAgrees_iff_of_run rfl).2 ⟨rfl, rfl⟩, fun _ hp => ?checked, by decide⟩
  case checked => cases hp

end Sys2Proof.Machine
end

section
/-! PROOFS, 20_memory.md: the address windows, what the reference target does at a write strobe's end, its RAM read back,
and which command stores what in it. -/

namespace Sys2Proof.Machine

/-! ## The windows of the bus space (R30-R32) -/

/-- The target's window by its first and its last address (R32). -/
theorem inTargetWindow_iff_le {a : Addr} : inTargetWindow a = true ↔ 0xA000 ≤ a.toNat ∧ a.toNat ≤ 0xBFFF := by
  rw [inTargetWindow_iff]
  omega

/-- Settles O56: each window by its lemma in numbers; every window address is at or above 0x8000, both control
addresses are below. -/
theorem addressWindows : Obligations.AddressWindows := by
  intro c a hc
  rw [inRamWindow_eq hc]
  refine ⟨extended_iff hc, inTargetWindow_iff_le, extended_of_inTargetWindow hc, isControl_iff hc, fun hctl => ?control⟩
  case control =>
    rw [extended_eq_decide hc]
    rcases (isControl_iff hc).1 hctl with rfl | rfl <;> rfl

/-! ## What the target does at the end of a write cycle (R44) -/

/-- The rise of the write strobe, an address on the bus and the block driving: the target takes the byte. -/
theorem Target.observe_strobe_rise {p : Pins} {a : Addr} (hw : p.wrN = false) (ha : p.addr = some a)
    (hd : p.dir = .output) (t : Target) : Target.observe p t (.set .wrN true) = t.store p.csN a p.dOut := by
  simp [Target.observe, Target.latch, Pins.driven, hw, ha, hd]

/-- An event that does not raise the write strobe changes nothing in the target (log 9). -/
theorem Target.observe_of_no_rise {p : Pins} {e : Event} (h : e ≠ .set .wrN true ∨ p.wrN = true) (t : Target) :
    Target.observe p t e = t := by
  cases e with
  | set l v =>
    cases l with
    | wrN => cases v <;> simp_all [Target.observe]
    | _ => rfl
  | _ => rfl

/-- Where a strobe's end would change nothing, no event does. -/
theorem Target.observe_of_latch {p : Pins} {t : Target} (h : t.latch p = t) (e : Event) : Target.observe p t e = t := by
  cases e with
  | set l v =>
    cases l with
    | wrN => simp [Target.observe, h]
    | _ => rfl
  | _ => rfl

/-- Without an address on the bus, or with the block not driving, the target takes nothing. -/
theorem Target.latch_of_undriven {p : Pins} (h : p.addr = none ∨ p.dir = .input) (t : Target) : t.latch p = t := by
  have hn : p.addr = none ∨ p.driven = none := h.imp_right fun hd => by rw [Pins.driven, hd]
  unfold Target.latch
  split
  · next ha hd => simp [ha, hd] at hn
  · rfl
  · rfl
  · rfl

theorem Target.store_ctrlRamen (t : Target) (csN : Bool) (d : Byte) :
    t.store csN Config.ctrlRamen d = { t with ten := some d } := rfl

theorem Target.store_ctrlBank (t : Target) (csN : Bool) (d : Byte) :
    t.store csN Config.ctrlBank d = { t with tbank := some d } := rfl

/-- A store that reaches a location of the RAM writes there. -/
theorem Target.store_of_location {t : Target} {csN : Bool} {a : Addr} {loc : Nat} (h : t.location csN a = some loc)
    (d : Byte) : t.store csN a d = { t with tram := Memory.write t.fill t.tram loc d } := by
  obtain ⟨hw, -⟩ := Target.location_eq_some.1 h
  obtain ⟨hramen, hbank⟩ : a ≠ Config.ctrlRamen ∧ a ≠ Config.ctrlBank := not_control_of_inTargetWindow hw
  rw [Target.store, if_neg hramen, if_neg hbank, h]

/-- A store at no control address that reaches no location of the RAM does nothing. -/
theorem Target.store_of_no_location {t : Target} {csN : Bool} {a : Addr} (hramen : a ≠ Config.ctrlRamen)
    (hbank : a ≠ Config.ctrlBank) (h : t.location csN a = none) (d : Byte) : t.store csN a d = t := by
  rw [Target.store, if_neg hramen, if_neg hbank, h]

/-- When an access reaches RAM, and where, in the numbers of R44 and R45. -/
theorem Target.location_eq_some_iff {t : Target} {csN : Bool} {a : Addr} {loc : Nat} : t.location csN a = some loc ↔
    0xA000 ≤ a.toNat ∧ a.toNat ≤ 0xBFFF ∧ csN = false ∧ t.ten = some 0x0A
      ∧ ∃ b : Byte, t.tbank = some b ∧ b.toNat < 4 ∧ loc = b.toNat * 0x2000 + (a.toNat - 0xA000) := by
  rw [Target.location_eq_some, inTargetWindow_iff_le, and_assoc]
  rfl

/-- Settles O34: the strobe's rise is one store, and each case of R44 is one of the store's. -/
theorem targetWriteRule : Obligations.TargetWriteRule := by
  refine ⟨fun p t a hw ha hd => ?rise, fun p t e h => ?still⟩
  case rise =>
    rw [Target.observe_strobe_rise hw ha hd]
    refine ⟨?ramen, ?bank, fun b hlo hhi hcs hten htb hb => ?ram, fun hramen hbank hno => ?nowhere⟩
    case ramen => rintro rfl; exact t.store_ctrlRamen _ _
    case bank => rintro rfl; exact t.store_ctrlBank _ _
    case ram => exact Target.store_of_location (Target.location_eq_some_iff.2 ⟨hlo, hhi, hcs, hten, b, htb, hb, rfl⟩) _
    case nowhere =>
      refine Target.store_of_no_location hramen hbank (Option.eq_none_iff_forall_ne_some.2 fun loc hloc => hno ?_) _
      obtain ⟨hlo, hhi, hcs, hten, b, htb, hb, -⟩ := Target.location_eq_some_iff.1 hloc
      exact ⟨hlo, hhi, hcs, hten, b, htb, hb⟩
  case still =>
    rcases h with hne | hhigh | hundriven
    · exact Target.observe_of_no_rise (.inl hne) t
    · exact Target.observe_of_no_rise (.inr hhigh) t
    · exact Target.observe_of_latch (Target.latch_of_undriven hundriven t) e

/-! ## The RAM reads back (R43) -/

/-- A byte that nothing has written reads as what a test's start state fixes. -/
theorem Target.byteAt_of_unwritten {t : Target} {f : Byte} (hf : t.fill = some f) (hm : t.tram = []) (loc : Nat) :
    t.byteAt loc = f := by
  simp [Target.byteAt, hf, hm, Memory.get?]

/-- Settles O35: the two laws of a write, and a RAM that lists nothing. -/
theorem targetMemoryReadsBack : Obligations.TargetMemoryReadsBack :=
  fun _ loc _ hwf => ⟨Target.byteAt_write_same hwf, fun _ hne => Target.byteAt_write_other hne,
    fun _ hf hm => Target.byteAt_of_unwritten hf hm loc⟩

/-- Settles O51: a step is a run of events, and any events keep the form of the target's memory. -/
theorem stepKeepsMemoryCanonical : Obligations.StepKeepsMemoryCanonical := by
  intro s t hm h
  obtain ⟨es, hr⟩ := step_runs h
  unfold MemoryCanonical
  rw [hr.target]
  exact Target.observeAll_wf s.pins es hm

/-! ## Which command stores what (R44, 60_exceptions.md R87) -/

/-- A store that reaches a location leaves its byte there. -/
theorem Target.byteAt_store_same {t : Target} {csN : Bool} {a : Addr} {d : Byte} {loc : Nat}
    (hwf : Memory.wf t.fill t.tram = true) (h : t.location csN a = some loc) : (t.store csN a d).byteAt loc = d := by
  rw [Target.store_of_location h]
  exact Target.byteAt_write_same hwf

/-- The pseudo-commands and `BWR` are the one bus write they expand to (30_encoding.md R52). -/
theorem exec_of_expand_bwr {i : Instr} {a : Addr} {d : Byte} {s : State} (hc : HasHardwareConstants s.cfg)
    (he : i.expand = .bwr a d) (ho : s.pins.dir = .output) : exec i s = .next (advance (busWrite a d s)) := by
  cases i with
  | bwr | ramen | ramdis | selbank =>
    cases he
    simp [exec, execBwr, execRamen, execRamdis, execSelbank, writeCommand_of_output ho, hc.ctrlRamen, hc.ctrlBank,
      hc.enableCode, hc.disableCode, Config.ctrlRamen, Config.ctrlBank, Config.enableCode, Config.disableCode]
  | _ => cases he

/-- Settles O36: each storing command is one write cycle, which is one store of the target's. -/
theorem writeCommandsStoreOneByte : Obligations.WriteCommandsStoreOneByte := by
  intro i a d s t hc hs hm hi ho h
  have hx : exec i s = .next (advance (busWrite a d s)) := by
    rcases hi with he | ⟨rfl, ha⟩
    · exact exec_of_expand_bwr hc he ho
    · exact exec_accst ho ha
  obtain rfl : advance (busWrite a d s) = t := Host.Outcome.next.inj (hx.symm.trans h)
  rw [advance_target, busWrite_target hc hs ho, not_extended_eq_decide hc]
  exact ⟨fun loc hl => Target.byteAt_store_same hm hl, fun loc hl => Target.byteAt_store_other hl⟩

/-- A command with no bus write shows the target no rising write strobe. -/
theorem effect_target {i : Instr} {s : State} (hs : LinesAtRest s) (hw : startsWrite i = false) (hsum : i ≠ .chksum) :
    (effect i s).target = s.target := by
  cases i with
  | shift a => simp [effect, Target.observeAll_quiet, shiftEvents_quiet]
  | brd a => simp [effect, busRead_target hs]
  | accsub a => simp [effect, subtractRead, busRead_target hs]
  | chksum => exact absurd rfl hsum
  | dirin | dirout | accinit | done | panic => rfl
  | bwr | accst | prog | ramen | ramdis | selbank => cases hw

/-- Settles O37: fault entry leaves the target alone, and so does the effect of a command with no bus write. -/
theorem otherCommandsStoreNothing : Obligations.OtherCommandsStoreNothing := by
  intro i s t hs h hi
  rcases exec_cases h with ⟨f, -, rfl⟩ | ⟨hnone, rfl⟩
  · exact raiseFault_target f _ s
  · rcases hi with ⟨hw, hsum⟩ | hfault
    · exact effect_target hs hw hsum
    · exact absurd hnone hfault

end Sys2Proof.Machine
end

section
/-! PROOFS, 30_encoding.md: the encoder and the decoder undo each other, both agree with the opcode table, which words
are illegal and what fetching one does, and the assembler refuses what does not fit. -/

namespace Sys2Proof

/-! ## Encoding and decoding undo each other (R46, R47, R49, R52) -/

/-- Every encoding is a packed word, on whose fields the decoder's split gives the command back, a pseudo-command as
its `BWR`. -/
theorem decode_encode (i : Instr) : decode (encode i) = .ok i.expand := by
  cases i <;> exact decode_packWord _ _ _

theorem Instr.wellFormed_expand (i : Instr) : i.expand.wellFormed = true := by cases i <;> rfl

/-- A command that the decoder can give expands to itself. -/
theorem Instr.expand_of_wellFormed {i : Instr} (h : i.wellFormed = true) : i.expand = i := by
  cases i with
  | ramen | ramdis | selbank => cases h
  | _ => rfl

/-- Settles O2: the decoder's split on the fields of the encoded word. -/
theorem decodeEncodeRoundTrip : Obligations.DecodeEncodeRoundTrip :=
  fun i => ⟨decode_encode i, i.wellFormed_expand, Instr.expand_of_wellFormed⟩

/-- Settles O1: each word is the encoding R53 writes out, and decodes because it is one. -/
theorem writtenWordsDecode : Obligations.WrittenWordsDecode :=
  ⟨decode_encode (.shift 0xA598), decode_encode (.bwr 0xA020 0xAA), decode_encode (.brd 0xA5C9), decode_encode .dirin,
    decode_encode .dirout, decode_encode (.accinit 0xFF), decode_encode (.accsub 0xA598),
    decode_encode (.accst 0xB523), decode_encode (.prog 1), decode_encode .chksum, decode_encode .done,
    decode_encode .panic, rfl, rfl, rfl, rfl, rfl, rfl, rfl, rfl, rfl, rfl, rfl, rfl⟩

/-- What the decoder's split accepts is packed into the same fields, the unused ones being zero. -/
theorem encode_of_decodeFields {op : BitVec 4} {a : Addr} {d : Byte} {i : Instr} (h : decodeFields op a d = .ok i) :
    encode i = packWord op a d ∧ i.wellFormed = true := by
  rcases decodeFields_ok.1 h with ⟨rfl, rfl, rfl⟩ | ⟨rfl, rfl⟩ | ⟨rfl, rfl, rfl⟩ | ⟨rfl, ⟨rfl, rfl⟩, rfl⟩
    | ⟨rfl, ⟨rfl, rfl⟩, rfl⟩ | ⟨rfl, rfl, rfl⟩ | ⟨rfl, rfl, rfl⟩ | ⟨rfl, rfl, rfl⟩ | ⟨rfl, rfl, rfl⟩
    | ⟨rfl, ⟨rfl, rfl⟩, rfl⟩ | ⟨rfl, ⟨rfl, rfl⟩, rfl⟩ | ⟨rfl, ⟨rfl, rfl⟩, rfl⟩ <;> exact ⟨rfl, rfl⟩

/-- Settles O3: an accepted word has `RSV` zero, so it is packed from the fields that the split accepts. -/
theorem encodeDecodeRoundTrip : Obligations.EncodeDecodeRoundTrip := by
  intro w i h
  obtain ⟨hrsv, hsplit⟩ := decode_ok.1 h
  obtain ⟨hword, hwf⟩ := encode_of_decodeFields hsplit
  exact ⟨hword.trans (packWord_fields w hrsv), hwf⟩

/-! ## The opcode table (R48) -/

/-- The encoding of an instruction lies in every row of its mnemonic. -/
theorem covers_encode {i : Instr} {r : OpcodeRow} (h : r ∈ rowsOf i.mnemonic) : r.covers (encode i) = true := by
  have hrow : Laws.TableRow.Statement i := by
    cases i with
    | shift a => exact Laws.TableRow.shift a
    | bwr a d => exact Laws.TableRow.bwr a d
    | brd a => exact Laws.TableRow.brd a
    | dirin => exact Laws.TableRow.dirin
    | dirout => exact Laws.TableRow.dirout
    | accinit c => exact Laws.TableRow.accinit c
    | accsub a => exact Laws.TableRow.accsub a
    | accst a => exact Laws.TableRow.accst a
    | prog k => exact Laws.TableRow.prog k
    | chksum => exact Laws.TableRow.chksum
    | done => exact Laws.TableRow.done
    | panic => exact Laws.TableRow.panic
    | ramen => exact Laws.TableRow.ramen
    | ramdis => exact Laws.TableRow.ramdis
    | selbank n => exact Laws.TableRow.selbank n
  exact hrow.2 r h

/-- What lies in a row given by its opcode and its unused fields decodes as the split does where these are zero. -/
theorem decodes_of_covers (op : BitVec 4) (ma : Addr) (md : Byte) {m : Mnemonic} {w : Word}
    (hsplit : ∀ a d, a &&& ma = 0 → d &&& md = 0 → ∃ i, decodeFields op a d = .ok i ∧ i.mnemonic = m)
    (hw : (OpcodeRow.mk m (joinWord op 0 0 0) (joinWord 0xF 0xF ma md)).covers w = true) :
    ∃ i, decode w = .ok i ∧ i.mnemonic = m := by
  rw [← joinWord_fields w] at hw
  obtain ⟨hop, hrsv, ha, hd⟩ := covers_joinWord.1 hw
  obtain ⟨i, hi, hm⟩ := hsplit _ _ ha hd
  exact ⟨i, decode_ok.2 ⟨hrsv, hop ▸ hi⟩, hm⟩

theorem addr_zero_of_and {a : Addr} (h : a &&& 0xFFFF = 0) : a = 0 := BitVec.and_allOnes.symm.trans h

theorem byte_zero_of_and {d : Byte} (h : d &&& 0xFF = 0) : d = 0 := BitVec.and_allOnes.symm.trans h

/-- The row of a command that uses `A` only. -/
theorem decodes_of_covers_addrOnly (op : BitVec 4) {m : Mnemonic} {w : Word}
    (hsplit : ∀ a, ∃ i, decodeFields op a 0 = .ok i ∧ i.mnemonic = m)
    (hw : (OpcodeRow.mk m (joinWord op 0 0 0) (joinWord 0xF 0xF 0 0xFF)).covers w = true) :
    ∃ i, decode w = .ok i ∧ i.mnemonic = m :=
  decodes_of_covers op 0 0xFF (fun a _ _ hd => byte_zero_of_and hd ▸ hsplit a) hw

/-- The row of a command that uses `D` only. -/
theorem decodes_of_covers_byteOnly (op : BitVec 4) {m : Mnemonic} {w : Word}
    (hsplit : ∀ d, ∃ i, decodeFields op 0 d = .ok i ∧ i.mnemonic = m)
    (hw : (OpcodeRow.mk m (joinWord op 0 0 0) (joinWord 0xF 0xF 0xFFFF 0)).covers w = true) :
    ∃ i, decode w = .ok i ∧ i.mnemonic = m :=
  decodes_of_covers op 0xFFFF 0 (fun _ d ha _ => addr_zero_of_and ha ▸ hsplit d) hw

/-- The row of a command that uses neither field. -/
theorem decodes_of_covers_bare (op : BitVec 4) {m : Mnemonic} {w : Word}
    (hsplit : ∃ i, decodeFields op 0 0 = .ok i ∧ i.mnemonic = m)
    (hw : (OpcodeRow.mk m (joinWord op 0 0 0) (joinWord 0xF 0xF 0xFFFF 0xFF)).covers w = true) :
    ∃ i, decode w = .ok i ∧ i.mnemonic = m :=
  decodes_of_covers op 0xFFFF 0xFF (fun _ _ ha hd => addr_zero_of_and ha ▸ byte_zero_of_and hd ▸ hsplit) hw

/-- A word in a command's row decodes to that command: what the row compares is `OP`, `RSV` and the unused fields. -/
theorem decodes_of_covers_commandRow {w : Word} {r : OpcodeRow} (hr : r ∈ commandRows) (hw : r.covers w = true) :
    ∃ i, decode w = .ok i ∧ i.mnemonic = r.mnemonic := by
  simp only [commandRows, List.mem_cons, List.not_mem_nil, or_false] at hr
  rcases hr with rfl | rfl | rfl | rfl | rfl | rfl | rfl | rfl | rfl | rfl | rfl | rfl
  · exact decodes_of_covers_addrOnly 0x1 (fun a => ⟨.shift a, rfl, rfl⟩) hw
  · exact decodes_of_covers 0x2 0 0 (fun a d _ _ => ⟨.bwr a d, rfl, rfl⟩) hw
  · exact decodes_of_covers_addrOnly 0x3 (fun a => ⟨.brd a, rfl, rfl⟩) hw
  · exact decodes_of_covers_bare 0x4 ⟨.dirin, rfl, rfl⟩ hw
  · exact decodes_of_covers_bare 0x5 ⟨.dirout, rfl, rfl⟩ hw
  · exact decodes_of_covers_byteOnly 0x6 (fun c => ⟨.accinit c, rfl, rfl⟩) hw
  · exact decodes_of_covers_addrOnly 0x7 (fun a => ⟨.accsub a, rfl, rfl⟩) hw
  · exact decodes_of_covers_addrOnly 0x8 (fun a => ⟨.accst a, rfl, rfl⟩) hw
  · exact decodes_of_covers_byteOnly 0x9 (fun k => ⟨.prog k, rfl, rfl⟩) hw
  · exact decodes_of_covers_bare 0xA ⟨.chksum, rfl, rfl⟩ hw
  · exact decodes_of_covers_bare 0xB ⟨.done, rfl, rfl⟩ hw
  · exact decodes_of_covers_bare 0xC ⟨.panic, rfl, rfl⟩ hw

/-- Settles O4: a covered word decodes as its row says, and a word that decodes is an encoding, which its row covers. -/
theorem decodeAgreesWithOpcodeTable : Obligations.DecodeAgreesWithOpcodeTable := by
  intro w r hr
  refine ⟨decodes_of_covers_commandRow hr, ?_⟩
  rintro ⟨i, hi, hm⟩
  obtain ⟨rfl, -⟩ := encodeDecodeRoundTrip w i hi
  exact covers_encode (List.mem_filter.2 ⟨List.mem_append_left _ hr, beq_iff_eq.2 hm.symm⟩)

/-! ## Illegal words (R50) -/

/-- The decoder's split refuses exactly the unused opcodes and the unused fields that are not zero. -/
theorem decodeFields_illegal {op : BitVec 4} {a : Addr} {d : Byte} : (∀ i, decodeFields op a d ≠ .ok i) ↔
    (op = 0x0 ∨ op = 0xD ∨ op = 0xE ∨ op = 0xF) ∨ (d ≠ 0 ∧ (op = 0x1 ∨ op = 0x3 ∨ op = 0x7 ∨ op = 0x8))
      ∨ (a ≠ 0 ∧ (op = 0x6 ∨ op = 0x9))
      ∨ (¬ (a = 0 ∧ d = 0) ∧ (op = 0x4 ∨ op = 0x5 ∨ op = 0xA ∨ op = 0xB ∨ op = 0xC)) := by
  rcases opcode_cases op with rfl | rfl | rfl | rfl | rfl | rfl | rfl | rfl | rfl | rfl | rfl | rfl | rfl | rfl
    | rfl | rfl <;> simp [decodeFields_ok]

/-- A word is illegal when `RSV` is not zero or the split refuses its fields. -/
theorem decode_illegal {w : Word} : (∀ i, decode w ≠ .ok i) ↔
    rsvField w ≠ 0 ∨ ∀ i, decodeFields (opField w) (addrField w) (byteField w) ≠ .ok i := by
  simp only [ne_eq, decode_ok, not_and_or, forall_or_left]

end Sys2Proof

namespace Sys2Proof.Machine

/-- Fetching an illegal word is the fault entry of R88. -/
theorem step_of_illegal {s : State} {w : Word} (hp : s.checkPending = false) (hm : s.mode = .run)
    (hw : s.program[s.cp]? = some w) (hill : ∀ i, decode w ≠ .ok i) :
    step s = .next (raiseFault .illegalCmd w s) := by
  cases hd : decode w with
  | ok i => exact absurd hd (hill i)
  | error e => simp [step, hp, hm, fetch, hw, hd]

/-- Settles O5: the split's refusals in the numbers of R50, the fault entry, and opcode 0 in the zero word. -/
theorem illegalWordsFault : Obligations.IllegalWordsFault := by
  refine ⟨fun w => ?words, fun s w hp hm hw hill => ?fault, ?zero⟩
  case words =>
    rw [decode_illegal, decodeFields_illegal, ← low24_eq_zero, or_left_comm]
    rfl
  case fault => exact step_of_illegal hp hm hw hill
  case zero => exact decode_illegal.2 (.inr (decodeFields_illegal.2 (.inl (.inl rfl))))

/-! ## The assembler (R51) -/

/-- What is written for an instruction is assembled to it. -/
theorem toInstr_toAsm (i : Instr) : toInstr (toAsm i) = some i := by
  cases i <;> simp [toInstr, toAsm, AsmCmd.wellFormed, Mnemonic.operandWidths, operandsFit, -Nat.reducePow, BitVec.isLt]

theorem operandsFit_nil {vs : List Nat} : operandsFit [] vs = true ↔ vs = [] := by
  cases vs <;> simp [operandsFit]

theorem operandsFit_cons {w : Nat} {ws vs : List Nat} : operandsFit (w :: ws) vs = true ↔
    ∃ v us, v < 2 ^ w ∧ operandsFit ws us = true ∧ vs = v :: us := by
  cases vs <;> simp [operandsFit]

/-- One operand that fits is the value of a word of its width. -/
theorem operandsFit_one {w : Nat} {vs : List Nat} (h : operandsFit [w] vs = true) :
    ∃ x : BitVec w, vs = [x.toNat] := by
  obtain ⟨v, us, hv, hus, rfl⟩ := operandsFit_cons.1 h
  obtain rfl := operandsFit_nil.1 hus
  exact ⟨⟨v, hv⟩, rfl⟩

theorem operandsFit_two {w w' : Nat} {vs : List Nat} (h : operandsFit [w, w'] vs = true) :
    ∃ (x : BitVec w) (y : BitVec w'), vs = [x.toNat, y.toNat] := by
  obtain ⟨v, us, hv, hus, rfl⟩ := operandsFit_cons.1 h
  obtain ⟨y, rfl⟩ := operandsFit_one hus
  exact ⟨⟨v, hv⟩, y, rfl⟩

/-- Every well-formed command is what some instruction is written as. -/
theorem exists_toAsm_of_wellFormed {c : AsmCmd} (h : c.wellFormed = true) : ∃ i, toAsm i = c := by
  obtain ⟨m, ops⟩ := c
  cases m with
  | shift => obtain ⟨a, rfl⟩ := operandsFit_one h; exact ⟨.shift a, rfl⟩
  | bwr => obtain ⟨a, d, rfl⟩ := operandsFit_two h; exact ⟨.bwr a d, rfl⟩
  | brd => obtain ⟨a, rfl⟩ := operandsFit_one h; exact ⟨.brd a, rfl⟩
  | dirin => obtain rfl := operandsFit_nil.1 h; exact ⟨.dirin, rfl⟩
  | dirout => obtain rfl := operandsFit_nil.1 h; exact ⟨.dirout, rfl⟩
  | accinit => obtain ⟨x, rfl⟩ := operandsFit_one h; exact ⟨.accinit x, rfl⟩
  | accsub => obtain ⟨a, rfl⟩ := operandsFit_one h; exact ⟨.accsub a, rfl⟩
  | accst => obtain ⟨a, rfl⟩ := operandsFit_one h; exact ⟨.accst a, rfl⟩
  | prog => obtain ⟨k, rfl⟩ := operandsFit_one h; exact ⟨.prog k, rfl⟩
  | chksum => obtain rfl := operandsFit_nil.1 h; exact ⟨.chksum, rfl⟩
  | done => obtain rfl := operandsFit_nil.1 h; exact ⟨.done, rfl⟩
  | panic => obtain rfl := operandsFit_nil.1 h; exact ⟨.panic, rfl⟩
  | ramen => obtain rfl := operandsFit_nil.1 h; exact ⟨.ramen, rfl⟩
  | ramdis => obtain rfl := operandsFit_nil.1 h; exact ⟨.ramdis, rfl⟩
  | selbank => obtain ⟨n, rfl⟩ := operandsFit_one h; exact ⟨.selbank n, rfl⟩

/-- What is accepted is read back from the instruction: no operand is truncated. -/
theorem toAsm_of_toInstr {c : AsmCmd} {i : Instr} (h : toInstr c = some i) : toAsm i = c := by
  obtain ⟨j, rfl⟩ := exists_toAsm_of_wellFormed (wellFormed_of_toInstr h)
  obtain rfl : j = i := Option.some.inj ((toInstr_toAsm j).symm.trans h)
  rfl

/-- Exactly the well-formed commands have an instruction. -/
theorem exists_toInstr {c : AsmCmd} : (∃ i, toInstr c = some i) ↔ c.wellFormed = true := by
  constructor
  · rintro ⟨i, h⟩
    exact wellFormed_of_toInstr h
  · intro h
    obtain ⟨i, rfl⟩ := exists_toAsm_of_wellFormed h
    exact ⟨i, toInstr_toAsm i⟩

/-- Settles O7: `toInstr` and `toAsm` undo each other on the well-formed commands; numbers, lines and programs are the
assembler's own laws. -/
theorem assemblerNeverTruncates : Obligations.AssemblerNeverTruncates :=
  ⟨toInstr_toAsm, fun _ _ => toAsm_of_toInstr, fun _ => exists_toInstr,
    fun n => ⟨readNumber_decimal n, readNumber_hex n⟩, fun _ _ => assembleLine_ok,
    fun _ _ => assembleLine_badOperands, fun _ _ => assemble_ok⟩

/-! ## The pseudo-commands (R52) -/

/-- With the constants of R9 a pseudo-command does what its `BWR` does, the fault's recorded word included. -/
theorem exec_expand {s : State} (hc : HasHardwareConstants s.cfg) (i : Instr) :
    exec i s = exec i.expand s := by
  cases i with
  | ramen => rw [exec, execRamen, hc.ctrlRamen, hc.enableCode]; rfl
  | ramdis => rw [exec, execRamdis, hc.ctrlRamen, hc.disableCode]; rfl
  | selbank n => rw [exec, execSelbank, hc.ctrlBank]; rfl
  | _ => rfl

/-- Settles O6: a pseudo-command has the word and the effect of its `BWR`, so decoding and executing go through it. -/
theorem pseudoCommandsAreBusWrites : Obligations.PseudoCommandsAreBusWrites := by
  intro n s
  refine ⟨rfl, rfl, encode_selbank n, decode_encode .ramen, decode_encode .ramdis, ?selbank,
    fun hc => ⟨exec_expand hc .ramen, exec_expand hc .ramdis, exec_expand hc (.selbank n)⟩,
    toInstr_toAsm (.selbank n)⟩
  case selbank =>
    rw [← encode_selbank]
    exact decode_encode (.selbank n)

end Sys2Proof.Machine
end

section
/-! PROOFS, 40_address_shifter.md: the whole next state of `SHIFT`, and what the lines show at every moment of
`ShiftOut(a)`. -/

namespace Sys2Proof.Machine

/-! ## `SHIFT` (R54, R56) -/

/-- With sixteen pulses the events are those R54 writes out. -/
theorem shiftEvents_sixteen {c : Cfg} (hc : HasHardwareConstants c) (a : Addr) :
    shiftEvents c a = [.set .oe false] ++ (List.range 16).flatMap (shiftBit a) ++ [.set .oe true] := by
  rw [shiftEvents, hc.shiftBits]

/-- The lines after `ShiftOut(a)`, the clock's level written out: low before the pulses, low after them. -/
theorem Pins.applyAll_shiftEvents_low {p : Pins} {c : Cfg} (hc : HasHardwareConstants c) (h : p.sclk = false)
    (a : Addr) :
    p.applyAll (shiftEvents c a) = { p with ser := a.getLsbD 15, sclk := false, oe := true, sr := a } := by
  rw [Pins.applyAll_shiftEvents hc h, ← h]

/-- The whole next state of `SHIFT`: the lines follow the pulses, and the target sees no strobe. -/
theorem exec_shift {s : State} (hc : HasHardwareConstants s.cfg) (h : s.pins.sclk = false) (a : Addr) :
    exec (.shift a) s = .next { s with
      pins := { s.pins with ser := a.getLsbD 15, sclk := false, oe := true, sr := a }
      trace := (shiftEvents s.cfg a).reverse ++ s.trace
      cp := s.cp + 1 } := by
  have hx : exec (.shift a) s = .next (advance (emitAll (shiftEvents s.cfg a) s)) := rfl
  rw [hx, emitAll_eq, Pins.applyAll_shiftEvents_low hc h, Target.observeAll_quiet _ _ (shiftEvents_quiet _ a)]
  rfl

/-- Settles O15: the word is the encoding of `SHIFT a`, and its whole next state is `exec_shift`. -/
theorem shiftResult : Obligations.ShiftResult :=
  fun a s => ⟨decode_encode (.shift a), fun hc h =>
    ⟨shiftEvents s.cfg a, shiftEvents_sixteen hc a, rfl, shiftEvents_length hc a, exec_shift hc h a⟩⟩

/-! ## The lines during the pulses (R55) -/

/-- An event on the two-wire serial interface: data or clock. -/
def isSerial (e : Event) : Bool :=
  match e with
  | .set .ser _ => true
  | .set .sclk _ => true
  | .set .oe _ => false
  | .set .wrN _ => false
  | .set .rdN _ => false
  | .set .csN _ => false
  | .set .led _ => false
  | .drive _ => false
  | .dir _ => false
  | .delay _ => false
  | .sample _ => false
  | .halt _ => false

theorem isSerial_iff {e : Event} : isSerial e = true ↔ ∃ v : Bool, e = .set .ser v ∨ e = .set .sclk v := by
  cases e with
  | set l v => cases l <;> simp [isSerial]
  | _ => simp [isSerial]

theorem isSerial_of_mem_shiftBits {a : Addr} {is : List Nat} {e : Event} (h : e ∈ is.flatMap (shiftBit a)) :
    isSerial e = true := by
  obtain ⟨i, -, he⟩ := List.mem_flatMap.1 h
  simp only [shiftBit, List.mem_cons, List.not_mem_nil, or_false] at he
  rcases he with rfl | rfl | rfl <;> rfl

/-- Serial events reach `SER`, `SCLK` and the shift register, and no other line. -/
theorem Pins.applyAll_serial (p : Pins) {es : List Event} (h : ∀ e ∈ es, isSerial e = true) :
    ∃ (ser sclk : Bool) (sr : Addr), p.applyAll es = { p with ser := ser, sclk := sclk, sr := sr } := by
  induction es generalizing p with
  | nil => exact ⟨p.ser, p.sclk, p.sr, rfl⟩
  | cons e es ih =>
    obtain ⟨he, hes⟩ := List.forall_mem_cons.1 h
    obtain ⟨ser, sclk, sr, hp⟩ := ih (p.apply e) hes
    refine ⟨ser, sclk, sr, ?_⟩
    rw [Pins.applyAll_cons, hp]
    obtain ⟨v, rfl | rfl⟩ := isSerial_iff.1 he <;> rfl

/-- During the pulses the clock is high only just after its rising edge, which follows the bit on `SER`. -/
theorem clock_high_of_prefix_shiftBits {p : Pins} (h : p.sclk = false) {a : Addr} {is : List Nat} {q : List Event}
    (hq : q <+: is.flatMap (shiftBit a)) (hs : (p.applyAll q).sclk = true) :
    ∃ (r : List Event) (k : Nat), q = r ++ [.set .ser (a.getLsbD k), .set .sclk true] := by
  induction is generalizing p q with
  | nil =>
    obtain rfl := List.prefix_nil.1 hq
    exact absurd hs (by simp [h])
  | cons i is ih =>
    simp only [List.flatMap_cons, shiftBit, List.cons_append, List.nil_append, List.prefix_cons_iff] at hq
    rcases hq with rfl | ⟨_, rfl, rfl | ⟨_, rfl, rfl | ⟨q, rfl, hq⟩⟩⟩
    · exact absurd hs (by simp [h])
    · exact absurd hs (by simp [h])
    · exact ⟨[], i, rfl⟩
    · obtain ⟨r, k, rfl⟩ := ih (p := p.applyAll (shiftBit a i)) (by rw [Pins.applyAll_shiftBit h]; exact h) hq hs
      exact ⟨shiftBit a i ++ r, k, rfl⟩

/-- A beginning of `ShiftOut(a)` is empty, or all of it, or `OE` lowered and a beginning of the pulses. -/
theorem prefix_shiftEvents {c : Cfg} {a : Addr} {pre : List Event} (h : pre <+: shiftEvents c a) :
    pre = [] ∨ pre = shiftEvents c a
      ∨ ∃ q, pre = .set .oe false :: q ∧ q <+: (List.range c.shiftBits).flatMap (shiftBit a) := by
  rcases List.prefix_concat_iff.1 h with rfl | h
  · exact .inr (.inl rfl)
  · exact (List.prefix_cons_iff.1 h).imp_right .inr

/-- `OE` lowered and a beginning of the pulses is short of the 50 events. -/
theorem length_lt_of_prefix_shiftBits {c : Cfg} (hc : HasHardwareConstants c) {a : Addr} {q : List Event}
    (hq : q <+: (List.range c.shiftBits).flatMap (shiftBit a)) : (Event.set .oe false :: q).length < 50 := by
  have hl := shiftEvents_length hc a
  have hle := hq.length_le
  simp only [shiftEvents, List.length_append, List.length_singleton] at hl
  rw [List.length_cons]
  omega

/-- `OE` lowered and a beginning of the pulses: `OE` is low, and no line outside the shifter has moved. -/
theorem Pins.applyAll_prefix_shiftBits (p : Pins) {a : Addr} {is : List Nat} {q : List Event}
    (hq : q <+: is.flatMap (shiftBit a)) : ∃ (ser sclk : Bool) (sr : Addr),
      p.applyAll (.set .oe false :: q) = { p with ser := ser, sclk := sclk, oe := false, sr := sr } :=
  (p.apply (.set .oe false)).applyAll_serial fun _ he => isSerial_of_mem_shiftBits (hq.subset he)

/-- Settles O16: at a beginning of the events either all fifty are past, and the lines are known, or `OE` is low and
only serial events have followed. -/
theorem shifterProperties : Obligations.ShifterProperties := by
  intro c p a hc h
  have hall := Pins.applyAll_shiftEvents_low hc h a
  refine ⟨?edges, fun pre post hsplit hne => ?moment, ?sclk, ?sr, ?addr, fun s t hx => ?registers⟩
  case edges => rw [serAtEdges_shiftEvents h, hc.shiftBits]
  case moment =>
    rcases prefix_shiftEvents ⟨post, hsplit.symm⟩ with rfl | rfl | ⟨q, rfl, hq⟩
    · exact absurd rfl hne
    · rw [hall, shiftEvents_length hc]
      exact ⟨rfl, nofun, rfl, rfl, rfl, rfl, rfl, rfl⟩
    · obtain ⟨ser, sclk, sr, hp⟩ := p.applyAll_prefix_shiftBits hq
      refine ⟨?oe, fun hs => ?high, ?others⟩
      case oe =>
        rw [hp]
        exact (decide_eq_false (length_lt_of_prefix_shiftBits hc hq).ne).symm
      case high =>
        obtain ⟨r, k, rfl⟩ := clock_high_of_prefix_shiftBits (p := p.apply (.set .oe false)) h hq hs
        exact ⟨.set .oe false :: r, k, rfl⟩
      case others =>
        rw [hp]
        exact ⟨rfl, rfl, rfl, rfl, rfl, rfl⟩
  case sclk => rw [hall]
  case sr => rw [hall]
  case addr => rw [hall]; rfl
  case registers =>
    cases hx
    simp

end Sys2Proof.Machine
end

section
/-! PROOFS, 41_bus_cycle.md: the whole next states of `BWR`, `BRD`, `DIRIN` and `DIROUT`, what the lines show at every
moment of the two bus cycles, and that every step leaves them at rest. -/

namespace Sys2Proof.Machine

/-! ## The lines at rest (R59) -/

/-- Settles O47: a step is a run of chunks, each of which leaves lines at rest at rest. -/
theorem stepKeepsLinesAtRest : Obligations.StepKeepsLinesAtRest := by
  intro s t hs h
  obtain ⟨es, hr⟩ := step_runs h
  exact hr.rest hs

/-! ## The data direction (R63, R64) -/

/-- Settles O21: each command is one direction event and one step of `CP`. -/
theorem directionSwitches : Obligations.DirectionSwitches :=
  ⟨decode_encode .dirin, decode_encode .dirout, fun _ => ⟨rfl, rfl, rfl, rfl⟩⟩

/-! ## `BWR` and `BRD` (R57, R58, R60-R62) -/

/-- Steps 4 to 8 of a write cycle: the byte driven, then the strobe around its delay. -/
def writeStrobe (c : Cfg) (d : Byte) : List Event := [.drive d, .set .wrN false, .delay c.settle, .set .wrN true]

/-- Steps 4 to 8 of a read cycle: the strobe around its delay and the sample. -/
def readStrobe (c : Cfg) (v : Byte) : List Event := [.set .rdN false, .delay c.settle, .sample v, .set .rdN true]

/-- The steps both cycles share, around a strobe. -/
def cycleAround (c : Cfg) (a : Addr) (strobe : List Event) : List Event :=
  idleEvents ++ shiftEvents c a ++ selectEvents c a false ++ strobe ++ selectEvents c a true

theorem writeEvents_eq_cycleAround (c : Cfg) (a : Addr) (d : Byte) :
    writeEvents c a d = cycleAround c a (writeStrobe c d) := rfl

theorem readEvents_eq_cycleAround (c : Cfg) (a : Addr) (v : Byte) :
    readEvents c a v = cycleAround c a (readStrobe c v) := by
  simp only [readEvents, readHead, readTail, cycleAround, readStrobe, List.append_assoc, List.cons_append,
    List.nil_append]

/-- Chip select in the numbers of R57 and R58. -/
theorem selectEvents_eq {c : Cfg} (hc : HasHardwareConstants c) (a : Addr) (v : Bool) :
    selectEvents c a v = if 0x8000 ≤ a then [.set .csN v] else [] := by
  simp only [selectEvents, extended_eq_decide hc, decide_eq_true_eq]

/-- The steps both cycles share as R57 and R58 write them out. -/
theorem cycleAround_eq {c : Cfg} (hc : HasHardwareConstants c) (a : Addr) (strobe : List Event) :
    cycleAround c a strobe = [.set .wrN true, .set .rdN true, .set .csN true] ++ shiftEvents c a
      ++ (if 0x8000 ≤ a then [.set .csN false] else []) ++ strobe
      ++ (if 0x8000 ≤ a then [.set .csN true] else []) := by
  rw [cycleAround, selectEvents_eq hc, selectEvents_eq hc, idleEvents]

/-- The length of a cycle in the numbers of R57 and R58. -/
theorem cycleLength_eq {c : Cfg} (hc : HasHardwareConstants c) (a : Addr) :
    (if extended c a then 59 else 57) = if 0x8000 ≤ a then 59 else 57 := by
  simp only [extended_eq_decide hc, decide_eq_true_eq]

/-- The whole next state of `BWR` past its check. -/
theorem exec_bwr {s : State} (hc : HasHardwareConstants s.cfg) (h : LinesAtRest s) (ho : s.pins.dir = .output)
    (a : Addr) (d : Byte) : exec (.bwr a d) s = .next { s with
      pins := { s.pins with ser := a.getLsbD 15, sr := a, dOut := d }
      trace := (writeEvents s.cfg a d).reverse ++ s.trace
      target := s.target.store (decide (a < 0x8000)) a d
      pv := s.pv || violates s.cfg (.write d) a s.ramenSh s.bankSh
      ramenSh := if a = 0x0000 then some d else s.ramenSh
      bankSh := if a = 0x4000 then some d else s.bankSh
      cp := s.cp + 1 } := by
  rw [exec_of_expand_bwr hc rfl ho, busWrite_eq hc h ho, not_extended_eq_decide hc, hc.ctrlRamen, hc.ctrlBank]
  rfl

/-- `BWR` with `DIR = IN` (R60). -/
theorem exec_bwr_of_input {s : State} (hi : s.pins.dir = .input) (a : Addr) (d : Byte) :
    exec (.bwr a d) s = .next (raiseFault .dirWriteWhileIn (encode (.bwr a d)) s) := by
  simp [exec, execBwr, writeCommand, hi]

/-- `BRD` with `DIR = OUT` (R60). -/
theorem exec_brd_of_output {s : State} (ho : s.pins.dir = .output) (a : Addr) :
    exec (.brd a) s = .next (raiseFault .dirReadWhileOut (encode (.brd a)) s) := by
  simp [exec, execBrd, ho]

/-- Settles O17: the word is the encoding of `BWR a, d`, the direction check fails or `exec_bwr` is the next state. -/
theorem busWriteResult : Obligations.BusWriteResult :=
  fun a d s => ⟨decode_encode (.bwr a d), fun hi => exec_bwr_of_input hi a d, fun hc h ho =>
    ⟨writeEvents s.cfg a d, cycleAround_eq hc a (writeStrobe s.cfg d),
      (writeEvents_length hc a d).trans (cycleLength_eq hc a), exec_bwr hc h ho a d⟩⟩

/-- Settles O18: the word is the encoding of `BRD a`, the direction check fails or one read cycle gives `RDATA`. -/
theorem busReadResult : Obligations.BusReadResult := by
  refine fun a s => ⟨decode_encode (.brd a), fun ho => exec_brd_of_output ho a, fun hc h hi => ?_⟩
  obtain ⟨v, inp, dr, hread⟩ := busRead_cases hc h a
  refine ⟨v, readEvents s.cfg a v, inp, dr,
    (readEvents_eq_cycleAround s.cfg a v).trans (cycleAround_eq hc a (readStrobe s.cfg v)),
    (readEvents_length hc a v).trans (cycleLength_eq hc a), ?_⟩
  rw [exec_brd hi, hread]
  rfl

/-! ## Moment by moment along a list of events -/

/-- At every moment of a list of events that starts with the lines at `p`, the lines satisfy `L`, and with the event
that comes next, where there is one, `N`. -/
def Moments (L : Pins → Prop) (N : Pins → Event → Prop) (p : Pins) (es : List Event) : Prop :=
  match es with
  | [] => L p
  | e :: es => L p ∧ N p e ∧ Moments L N (p.apply e) es

section
variable {L : Pins → Prop} {N : Pins → Event → Prop} {p : Pins}

theorem Moments.append {xs ys : List Event} (h : Moments L N p xs) (k : Moments L N (p.applyAll xs) ys) :
    Moments L N p (xs ++ ys) := by
  induction xs generalizing p with
  | nil => exact k
  | cons e xs ih =>
    obtain ⟨hl, hn, h⟩ := h
    exact ⟨hl, hn, ih h k⟩

/-- A moment is a split of the list. -/
theorem Moments.split {pre post : List Event} (h : Moments L N p (pre ++ post)) :
    L (p.applyAll pre) ∧ ∀ (e : Event) (post' : List Event), post = e :: post' → N (p.applyAll pre) e := by
  induction pre generalizing p with
  | nil =>
    cases post with
    | nil => exact ⟨h, nofun⟩
    | cons e post =>
      obtain ⟨hl, hn, -⟩ := h
      refine ⟨hl, ?_⟩
      rintro _ _ ⟨⟩
      exact hn
  | cons e pre ih =>
    obtain ⟨-, -, h⟩ := h
    exact ih h

end

/-! ## A cycle outside its strobe -/

/-- The lines that are high whenever no strobe of a cycle at `a` is asserted: both strobes, and below the extended
window chip select. -/
def IdleLine (a : Addr) (l : Line) : Prop := l = .wrN ∨ l = .rdN ∨ (l = .csN ∧ a < 0x8000)

/-- Such lines are high. -/
def Idle (a : Addr) (p : Pins) : Prop := ∀ l : Line, IdleLine a l → p.level l = true

/-- A `Set` that asserts no such line. -/
def IdleSet (a : Addr) (e : Event) : Prop := ∃ (l : Line) (v : Bool), e = .set l v ∧ (IdleLine a l → v = true)

theorem idle_iff {a : Addr} {p : Pins} :
    Idle a p ↔ p.wrN = true ∧ p.rdN = true ∧ (a < 0x8000 → p.csN = true) := by
  simp [Idle, IdleLine, or_imp, forall_and, Pins.level]

theorem Pins.level_setLine (p : Pins) (l m : Line) (v : Bool) :
    (p.setLine l v).level m = if m = l then v else p.level m := by
  cases l <;> cases m <;> rfl

theorem Idle.apply {a : Addr} {p : Pins} {e : Event} (h : Idle a p) (he : IdleSet a e) : Idle a (p.apply e) := by
  obtain ⟨l, v, rfl, hv⟩ := he
  intro m hm
  rw [Pins.apply_set, Pins.level_setLine]
  split
  · next hml => exact hv (hml ▸ hm)
  · exact h m hm

/-- Outside the strobe every moment shows idle lines, and a `Set` comes next. -/
theorem Moments.of_idle {L : Pins → Prop} {N : Pins → Event → Prop} {a : Addr} (hL : ∀ q : Pins, Idle a q → L q)
    (hN : ∀ (q : Pins) (l : Line) (v : Bool), N q (.set l v)) {p : Pins} {es : List Event} (hp : Idle a p)
    (hes : ∀ e ∈ es, IdleSet a e) : Moments L N p es := by
  induction es generalizing p with
  | nil => exact hL p hp
  | cons e es ih =>
    obtain ⟨he, hes⟩ := List.forall_mem_cons.1 hes
    refine ⟨hL p hp, ?_, ih (hp.apply he) hes⟩
    obtain ⟨l, v, rfl, -⟩ := he
    exact hN p l v

/-- Only `Set`s come outside the strobe. -/
theorem count_of_idleSets {a : Addr} {es : List Event} (hes : ∀ e ∈ es, IdleSet a e) {e : Event}
    (he : ∀ (l : Line) (v : Bool), e ≠ .set l v) : es.count e = 0 := by
  refine List.count_eq_zero.2 fun hmem => ?_
  obtain ⟨l, v, rfl, -⟩ := hes e hmem
  exact he l v rfl

/-- Raising a line asserts nothing. -/
theorem idleSet_high (a : Addr) (l : Line) : IdleSet a (.set l true) := ⟨l, true, rfl, fun _ => rfl⟩

/-- Any level of another line asserts nothing. -/
theorem idleSet_of_not_idleLine {a : Addr} {l : Line} (h : ¬ IdleLine a l) (v : Bool) : IdleSet a (.set l v) :=
  ⟨l, v, rfl, fun hl => absurd hl h⟩

theorem idleSet_of_mem_idleEvents (a : Addr) : ∀ e ∈ idleEvents, IdleSet a e := by
  simp [idleEvents, idleSet_high]

theorem idleSet_of_mem_shiftEvents (c : Cfg) (a : Addr) : ∀ e ∈ shiftEvents c a, IdleSet a e := by
  have hser : ¬ IdleLine a .ser := by simp [IdleLine]
  have hsclk : ¬ IdleLine a .sclk := by simp [IdleLine]
  have hoe : ¬ IdleLine a .oe := by simp [IdleLine]
  simp only [shiftEvents, List.forall_mem_append, List.forall_mem_singleton]
  refine ⟨⟨idleSet_of_not_idleLine hoe _, fun e he => ?_⟩, idleSet_of_not_idleLine hoe _⟩
  obtain ⟨v, rfl | rfl⟩ := isSerial_iff.1 (isSerial_of_mem_shiftBits he)
  · exact idleSet_of_not_idleLine hser v
  · exact idleSet_of_not_idleLine hsclk v

theorem idleSet_of_mem_selectEvents {c : Cfg} (hc : HasHardwareConstants c) (a : Addr) (v : Bool) :
    ∀ e ∈ selectEvents c a v, IdleSet a e := by
  rw [selectEvents_eq hc]
  split
  · next ha =>
    have hcs : ¬ IdleLine a .csN := by simpa [IdleLine] using ha
    exact List.forall_mem_singleton.2 (idleSet_of_not_idleLine hcs v)
  · exact nofun

/-- Everything before the strobe: the idle sets, the address and chip select. -/
theorem idleSet_of_mem_head {c : Cfg} (hc : HasHardwareConstants c) (a : Addr) :
    ∀ e ∈ idleEvents ++ shiftEvents c a ++ selectEvents c a false, IdleSet a e := by
  simp only [List.forall_mem_append]
  exact ⟨⟨idleSet_of_mem_idleEvents a, idleSet_of_mem_shiftEvents c a⟩, idleSet_of_mem_selectEvents hc a false⟩

/-! ## A whole cycle -/

/-- The lines at the start of a strobe: the address on the bus, and chip select asserted in the extended window. -/
def Pins.selected (p : Pins) (a : Addr) : Pins := { p with ser := a.getLsbD 15, sr := a, csN := decide (a < 0x8000) }

theorem Pins.applyAll_head {p : Pins} {c : Cfg} (hc : HasHardwareConstants c) (h : p.AtRest) (a : Addr) :
    p.applyAll (idleEvents ++ shiftEvents c a ++ selectEvents c a false) = p.selected a := by
  rw [Pins.applyAll_select h, serAfter_eq hc, srAfter_eq hc, not_extended_eq_decide hc, Pins.selected]

theorem Pins.AtRest.idle {p : Pins} (h : p.AtRest) (a : Addr) : Idle a p := by
  obtain ⟨hw, hr, hcs, -, -⟩ := h
  exact idle_iff.2 ⟨hw, hr, fun _ => hcs⟩

/-- What idle lines and `Set`s satisfy, a whole cycle satisfies when its strobe does and ends with idle lines. -/
theorem Moments.cycleAround {L : Pins → Prop} {N : Pins → Event → Prop} {c : Cfg} (hc : HasHardwareConstants c)
    {a : Addr} (hL : ∀ q : Pins, Idle a q → L q) (hN : ∀ (q : Pins) (l : Line) (v : Bool), N q (.set l v))
    {p : Pins} (hp : p.AtRest) {strobe : List Event} (hs : Moments L N (p.selected a) strobe)
    (he : Idle a ((p.selected a).applyAll strobe)) : Moments L N p (cycleAround c a strobe) := by
  refine .append (.append (.of_idle hL hN (hp.idle a) (idleSet_of_mem_head hc a)) ?_) ?_
  · rw [Pins.applyAll_head hc hp]
    exact hs
  · rw [Pins.applyAll_append, Pins.applyAll_head hc hp]
    exact .of_idle hL hN he (idleSet_of_mem_selectEvents hc a true)

/-- An event that is no `Set` comes as often in a cycle as in its strobe. -/
theorem count_cycleAround {c : Cfg} (hc : HasHardwareConstants c) (a : Addr) {e : Event}
    (he : ∀ (l : Line) (v : Bool), e ≠ .set l v) (strobe : List Event) :
    (cycleAround c a strobe).count e = strobe.count e := by
  rw [cycleAround, List.count_append, List.count_append, count_of_idleSets (idleSet_of_mem_head hc a) he,
    count_of_idleSets (idleSet_of_mem_selectEvents hc a true) he, Nat.zero_add, Nat.add_zero]

/-! ## Every moment of both cycles (R59) -/

/-- What R59 says of the lines at a moment of a write of `d` to `a`. -/
def WriteLines (a : Addr) (d : Byte) (p : Pins) : Prop :=
  p.rdN = true ∧ (a < 0x8000 → p.csN = true)
    ∧ (p.wrN = false → p.addr = some a ∧ p.dOut = d ∧ (0x8000 ≤ a → p.csN = false))

/-- What R59 says of the next event of a write: a delay is of `SETTLE` under the strobe, and nothing is sampled. -/
def WriteNext (c : Cfg) (p : Pins) (e : Event) : Prop :=
  ((∃ m : Nat, e = .delay m) → e = .delay c.settle ∧ p.wrN = false) ∧ ∀ x : Byte, e ≠ .sample x

/-- What R59 says of the lines at a moment of a read of `a`. -/
def ReadLines (a : Addr) (p : Pins) : Prop :=
  p.wrN = true ∧ (a < 0x8000 → p.csN = true)
    ∧ (p.rdN = false → p.addr = some a ∧ (0x8000 ≤ a → p.csN = false))

/-- What R59 says of the next event of a read: a delay is of `SETTLE`, a sample gives `v`, both under the strobe. -/
def ReadNext (c : Cfg) (v : Byte) (p : Pins) (e : Event) : Prop :=
  ((∃ m : Nat, e = .delay m) → e = .delay c.settle ∧ p.rdN = false)
    ∧ ((∃ x : Byte, e = .sample x) → e = .sample v ∧ p.rdN = false)

theorem moments_writeStrobe {p : Pins} (h : p.AtRest) (c : Cfg) (a : Addr) (d : Byte) :
    Moments (WriteLines a d) (WriteNext c) (p.selected a) (writeStrobe c d) := by
  obtain ⟨hw, hr, -, -, ho⟩ := h
  simp [Moments, writeStrobe, WriteLines, WriteNext, Pins.selected, Pins.addr, hw, hr, ho]

theorem moments_readStrobe {p : Pins} (h : p.AtRest) (c : Cfg) (a : Addr) (v : Byte) :
    Moments (ReadLines a) (ReadNext c v) (p.selected a) (readStrobe c v) := by
  obtain ⟨hw, hr, -, -, ho⟩ := h
  simp [Moments, readStrobe, ReadLines, ReadNext, Pins.selected, Pins.addr, hw, hr, ho]

theorem idle_after_writeStrobe {p : Pins} (h : p.AtRest) (c : Cfg) (a : Addr) (d : Byte) :
    Idle a ((p.selected a).applyAll (writeStrobe c d)) :=
  idle_iff.2 ⟨rfl, h.2.1, decide_eq_true⟩

theorem idle_after_readStrobe {p : Pins} (h : p.AtRest) (c : Cfg) (a : Addr) (v : Byte) :
    Idle a ((p.selected a).applyAll (readStrobe c v)) :=
  idle_iff.2 ⟨h.1, rfl, decide_eq_true⟩

theorem moments_writeEvents {p : Pins} {c : Cfg} (hc : HasHardwareConstants c) (h : p.AtRest) (a : Addr) (d : Byte) :
    Moments (WriteLines a d) (WriteNext c) p (writeEvents c a d) := by
  have hidle (q : Pins) (hq : Idle a q) : WriteLines a d q := by
    obtain ⟨hw, hr, hcs⟩ := idle_iff.1 hq
    exact ⟨hr, hcs, fun hlow => absurd hlow (by simp [hw])⟩
  exact .cycleAround hc hidle (fun _ _ _ => ⟨nofun, nofun⟩) h (moments_writeStrobe h c a d)
    (idle_after_writeStrobe h c a d)

theorem moments_readEvents {p : Pins} {c : Cfg} (hc : HasHardwareConstants c) (h : p.AtRest) (a : Addr) (v : Byte) :
    Moments (ReadLines a) (ReadNext c v) p (readEvents c a v) := by
  have hidle (q : Pins) (hq : Idle a q) : ReadLines a q := by
    obtain ⟨hw, hr, hcs⟩ := idle_iff.1 hq
    exact ⟨hw, hcs, fun hlow => absurd hlow (by simp [hr])⟩
  rw [readEvents_eq_cycleAround]
  exact .cycleAround hc hidle (fun _ _ _ => ⟨nofun, nofun⟩) h (moments_readStrobe h c a v)
    (idle_after_readStrobe h c a v)

/-- Settles O20: outside the strobe the lines are idle and only `Set`s come; the strobe's four events are looked at one
by one. -/
theorem cycleProperties : Obligations.CycleProperties := by
  intro p c a d v hc h
  refine ⟨fun pre post hsplit => ?write, ?writeDelay, fun pre post hsplit => ?read, ?readDelay, ?readSample,
    ?writeRest, ?readRest⟩
  case write =>
    obtain ⟨⟨hr, hcs, hstrobe⟩, hnext⟩ := (hsplit ▸ moments_writeEvents hc h a d).split
    exact ⟨hr, hcs, hstrobe, hnext⟩
  case writeDelay =>
    rw [writeEvents_eq_cycleAround, count_cycleAround hc a (e := .delay c.settle) nofun]
    simp [writeStrobe]
  case read =>
    obtain ⟨⟨hw, hcs, hstrobe⟩, hnext⟩ := (hsplit ▸ moments_readEvents hc h a v).split
    exact ⟨hw, hcs, hstrobe, hnext⟩
  case readDelay =>
    rw [readEvents_eq_cycleAround, count_cycleAround hc a (e := .delay c.settle) nofun]
    simp [readStrobe]
  case readSample =>
    rw [readEvents_eq_cycleAround, count_cycleAround hc a (e := .sample v) nofun]
    simp [readStrobe]
  case writeRest =>
    rw [Pins.applyAll_writeEvents_cfg h]
    exact h
  case readRest =>
    rw [Pins.applyAll_readEvents_cfg h]
    exact h

end Sys2Proof.Machine
end

section
/-! PROOFS, 42_protocol.md: the shadows and the target's latches, the violation cases and the sticky `PV`, the whole
next states of the pseudo-commands, and what `PROG` writes, where it lands and when it sets `PV`. -/

namespace Sys2Proof.Machine

/-! ## The shadows and the target's latches (R66, 20_memory.md R44) -/

/-- Settles O50: a step is a run of chunks, whose recorded writes the shadows and the latches both follow. -/
theorem stepKeepsShadowsAgreeing : Obligations.StepKeepsShadowsAgreeing := by
  rintro s t ⟨hc, hs, hramen, hbank⟩ h
  obtain ⟨es, hr⟩ := step_runs h
  refine ⟨hr.cfg ▸ hc, hr.rest hs, ?agree⟩
  case agree =>
    obtain ⟨hramen', hbank'⟩ := hr.shadows hc hs
    rw [hc.ctrlRamen] at hramen'
    rw [hc.ctrlBank] at hbank'
    rw [ShadowsAgree, hramen', hbank', hr.target]
    exact Target.observeAll_latches _ _ _ _ es hramen hbank

/-! ## The monitor and its violations (R66, R67) -/

/-- Settles O23: a shadow follows a write to its own control address, and no read. -/
theorem monitorUpdatesShadows : Obligations.MonitorUpdatesShadows := by
  intro a d s hc
  rw [← hc.ctrlRamen, ← hc.ctrlBank]
  exact ⟨rfl, rfl⟩

/-- The block's RAM window by its first and its last address (20_memory.md R32). -/
theorem ramWindow_iff_le {c : Cfg} (hc : HasHardwareConstants c) {a : Addr} :
    c.ramBase ≤ a ∧ a < c.ramLimit ↔ 0xA000 ≤ a.toNat ∧ a.toNat ≤ 0xBFFF := by
  rw [← inRamWindow_eq_true_iff, inRamWindow_eq hc, inTargetWindow_iff_le]

/-- Settles O22: the five cases hold over the configuration's constants, which are put into numbers; a step or a command
is a run, which keeps `PV`. -/
theorem violationCases : Obligations.ViolationCases := by
  refine ⟨fun c k a ramenSh bankSh hc => ?cases, fun s t h => ?step, fun i s t h => ?exec, hardReset_pv⟩
  case cases =>
    rw [violates_iff_five_cases, ramWindow_iff_le hc, hc.ctrlRamen, hc.ctrlBank, hc.enableCode, hc.disableCode,
      hc.nbanks]
  case step =>
    obtain ⟨es, hr⟩ := step_runs h
    exact hr.pv
  case exec =>
    obtain ⟨es, hr⟩ := exec_runs h
    exact hr.pv

/-! ## `RAMEN`, `RAMDIS` and `SELBANK` (R68-R70) -/

/-- A command that is one bus write, with `DIR = IN` (41_bus_cycle.md R60). -/
theorem writeCommand_of_input {w : Word} {a : Addr} {d : Byte} {s : State} (hi : s.pins.dir = .input) :
    writeCommand w a d s = raiseFault .dirWriteWhileIn w s := by
  simp [writeCommand, hi]

/-- The pseudo-commands with `DIR = IN`, whatever the constants. -/
theorem exec_pseudo_of_input {s : State} (hi : s.pins.dir = .input) (n : Byte) :
    exec .ramen s = .next (raiseFault .dirWriteWhileIn (encode .ramen) s)
      ∧ exec .ramdis s = .next (raiseFault .dirWriteWhileIn (encode .ramdis) s)
      ∧ exec (.selbank n) s = .next (raiseFault .dirWriteWhileIn (encode (.selbank n)) s) :=
  ⟨congrArg _ (writeCommand_of_input hi), congrArg _ (writeCommand_of_input hi),
    congrArg _ (writeCommand_of_input hi)⟩

/-- The whole next state of a write to the RAM-enable address: only its data can be a violation. -/
theorem exec_bwr_ctrlRamen {s : State} (hc : HasHardwareConstants s.cfg) (h : LinesAtRest s)
    (ho : s.pins.dir = .output) (d : Byte) : exec (.bwr 0x0000 d) s = .next { s with
      pins := { s.pins with ser := false, sr := 0x0000, dOut := d }
      trace := (writeEvents s.cfg 0x0000 d).reverse ++ s.trace
      target := { s.target with ten := some d }
      pv := s.pv || violatesControl s.cfg (.write d) 0x0000
      ramenSh := some d
      cp := s.cp + 1 } := by
  rw [exec_bwr hc h ho, violates_write_control hc ((isControl_iff hc).2 (.inl rfl))]
  rfl

/-- The whole next state of a write to the bank-select address: only its data can be a violation. -/
theorem exec_bwr_ctrlBank {s : State} (hc : HasHardwareConstants s.cfg) (h : LinesAtRest s)
    (ho : s.pins.dir = .output) (n : Byte) : exec (.bwr 0x4000 n) s = .next { s with
      pins := { s.pins with ser := false, sr := 0x4000, dOut := n }
      trace := (writeEvents s.cfg 0x4000 n).reverse ++ s.trace
      target := { s.target with tbank := some n }
      pv := s.pv || violatesControl s.cfg (.write n) 0x4000
      bankSh := some n
      cp := s.cp + 1 } := by
  rw [exec_bwr hc h ho, violates_write_control hc ((isControl_iff hc).2 (.inr rfl))]
  rfl

/-- A write cycle below the extended window: 57 events, chip select never asserted (41_bus_cycle.md R57). -/
theorem writeEvents_below {c : Cfg} (hc : HasHardwareConstants c) {a : Addr} (ha : ¬ 0x8000 ≤ a) (d : Byte) :
    (writeEvents c a d).length = 57 ∧ Event.set .csN false ∉ writeEvents c a d := by
  rw [writeEvents_length hc, cycleLength_eq hc, if_neg ha, csN_low_mem_writeEvents, hc.extBase]
  exact ⟨rfl, ha⟩

/-- Settles O24: each is the `BWR` it expands to, at a control address, where its data alone can be a violation. -/
theorem protocolCommandResults : Obligations.ProtocolCommandResults := by
  intro n s
  refine ⟨fun hi => ?fault, rfl, rfl, encode_selbank n, fun hc h ho => ⟨?ramen, ?ramdis, ?selbank⟩,
    fun hc d => ?events⟩
  case fault =>
    rw [← encode_selbank]
    exact exec_pseudo_of_input hi n
  case ramen =>
    have hv := (violatesControl_ramen hc).1
    rw [hc.ctrlRamen, hc.enableCode] at hv
    rw [exec_expand hc, Instr.expand, Config.ctrlRamen, Config.enableCode, exec_bwr_ctrlRamen hc h ho, hv,
      Bool.or_false]
  case ramdis =>
    have hv := (violatesControl_ramen hc).2
    rw [hc.ctrlRamen, hc.disableCode] at hv
    rw [exec_expand hc, Instr.expand, Config.ctrlRamen, Config.disableCode, exec_bwr_ctrlRamen hc h ho, hv,
      Bool.or_false]
  case selbank =>
    have hv := violatesControl_bank hc n
    rw [hc.ctrlBank] at hv
    rw [exec_expand hc, Instr.expand, Config.ctrlBank, exec_bwr_ctrlBank hc h ho, hv]
  case events =>
    obtain ⟨hlen, hcs⟩ := writeEvents_below hc (a := 0x0000) (by decide) d
    obtain ⟨hlen', hcs'⟩ := writeEvents_below hc (a := 0x4000) (by decide) d
    exact ⟨hlen, hcs, hlen', hcs'⟩

/-! ## `PROG`: its writes, the lines and the registers (R71) -/

/-- `PROG` of a blob that does not exist. -/
theorem exec_prog_of_none {k : Byte} {s : State} (hb : s.cfg.blobs[k.toNat]? = none) :
    exec (.prog k) s = .next (raiseFault .badBlobIndex (encode (.prog k)) s) := by
  simp [exec, execProg, hb]

/-- `PROG` with `DIR = IN`, of a blob that exists. -/
theorem exec_prog_of_input {k : Byte} {b : Blob} {s : State} (hb : s.cfg.blobs[k.toNat]? = some b)
    (hi : s.pins.dir = .input) :
    exec (.prog k) s = .next (raiseFault .dirWriteWhileIn (encode (.prog k)) s) := by
  simp [exec, execProg, hb, hi]

/-- The address of a blob byte in the numbers of R71. -/
theorem blobAddr_eq {c : Cfg} (hc : HasHardwareConstants c) (off : Addr) (j : Nat) :
    blobAddr c off j = 0xA000 + off + BitVec.ofNat 16 j := by rw [blobAddr, hc.ramBase]

/-- `PROG`'s writes in the numbers of R71. -/
theorem programWrites_eq {c : Cfg} (hc : HasHardwareConstants c) (b : Blob) :
    programWrites c b = (0x4000, b.bank)
      :: b.bytes.zipIdx.map (fun x => (0xA000 + b.offset + BitVec.ofNat 16 x.2, x.1)) := by
  rw [programWrites, hc.ctrlBank, hc.ramBase]

/-- `PROG`'s events: the bank select, then every byte. -/
def programEvents (c : Cfg) (b : Blob) : List Event :=
  writeEvents c c.ctrlBank b.bank ++ blobEvents c b.offset 0 b.bytes

/-- `PROG`'s events in the numbers of R71. -/
theorem programEvents_eq {c : Cfg} (hc : HasHardwareConstants c) (b : Blob) :
    programEvents c b = writeEvents c 0x4000 b.bank
      ++ b.bytes.zipIdx.flatMap (fun x => writeEvents c (0xA000 + b.offset + BitVec.ofNat 16 x.2) x.1) := by
  simp only [programEvents, blobEvents, blobAddr_eq hc, hc.ctrlBank]

/-- The cycles a bus recorder sees in `PROG`'s events: its writes, and nothing else. -/
theorem recordBus_programEvents {c : Cfg} (hc : HasHardwareConstants c) (b : Blob) {p : Pins} (h : p.AtRest)
    (ho : p.dir = .output) : recordBus p (programEvents c b) = .write (some 0x4000) (some b.bank)
      :: b.bytes.zipIdx.map
          (fun x => .write (some (0xA000 + b.offset + BitVec.ofNat 16 x.2)) (some x.1)) := by
  obtain ⟨hrest, hdir⟩ := (Chunk.write c.ctrlBank b.bank).rest (c := c) h ho
  rw [programEvents, recordBus_append, recordBus_writeEvents hc h, ho, recordBus_blobEvents hc _ _ _ hrest hdir,
    hc.ctrlBank]
  simp only [blobAddr_eq hc, List.singleton_append]

/-- The lines after `PROG`'s writes, from lines at rest. -/
theorem programBlob_lines (b : Blob) {s : State} (h : LinesAtRest s) :
    LinesAtRest (programBlob b s) ∧ (programBlob b s).pins.dOut = b.bytes.getLastD b.bank := by
  have hd : (busWrite s.cfg.ctrlBank b.bank s).pins.dOut = b.bank := by
    rw [busWrite, monitor_pins, emitAll_pins, Pins.applyAll_writeEvents_cfg h]
  obtain ⟨hrest, -, -, hout⟩ := writeBlob_lines b.offset 0 b.bytes (busWrite_rest h s.cfg.ctrlBank b.bank)
  exact ⟨hrest, hd ▸ hout⟩

/-- The bank select latches the bank at the target (20_memory.md R44). -/
theorem busWrite_ctrlBank_target {s : State} (hc : HasHardwareConstants s.cfg) (h : LinesAtRest s)
    (ho : s.pins.dir = .output) (n : Byte) :
    (busWrite s.cfg.ctrlBank n s).target = { s.target with tbank := some n } := by
  rw [busWrite_target hc h ho, hc.ctrlBank]
  rfl

/-- What `PROG`'s writes do to the target: one store each, in order (20_memory.md R44). -/
theorem programBlob_stores (b : Blob) {s : State} (hc : HasHardwareConstants s.cfg) (h : LinesAtRest s)
    (ho : s.pins.dir = .output) : (programBlob b s).target = b.bytes.zipIdx.foldl
      (fun g x => g.store (decide ((0xA000 + b.offset + BitVec.ofNat 16 x.2 : Addr) < 0x8000))
        (0xA000 + b.offset + BitVec.ofNat 16 x.2) x.1)
      (s.target.store true 0x4000 b.bank) := by
  rw [programBlob, writeBlob_stores _ _ _ (by rwa [busWrite_cfg]) (busWrite_rest h _ _) (by rwa [busWrite_dir]),
    busWrite_ctrlBank_target hc h ho, busWrite_cfg]
  simp only [not_extended_eq_decide hc, blobAddr_eq hc]
  rfl

/-- `PROG`'s writes use up none of the environment's answers. -/
theorem programBlob_env (b : Blob) (s : State) :
    (programBlob b s).inputs = s.inputs ∧ (programBlob b s).draws = s.draws := by
  rw [programBlob, writeBlob_frame, busWrite_inputs, busWrite_draws]
  exact ⟨rfl, rfl⟩

/-- With RAM known to be enabled and an existing bank, RAM is open (R65). -/
theorem ramOpen_of_enabled {c : Cfg} (hc : HasHardwareConstants c) {n : Byte} (hn : n.toNat < 4) :
    ramOpen c (some 0x0A) (some n) = true := (ramOpen_iff hc).2 ⟨rfl, n, rfl, hn⟩

/-- The monitor after `PROG` of a blob that stays in its bank window: the bank select is all it sees of a control
address, and with RAM open no write is a violation. -/
theorem programBlob_protocol {b : Blob} {s : State} (hc : HasHardwareConstants s.cfg)
    (hl : b.offset.toNat + b.bytes.length ≤ 0x2000) :
    (programBlob b s).bankSh = some b.bank ∧ (programBlob b s).ramenSh = s.ramenSh
      ∧ (s.ramenSh = some 0x0A → b.bank.toNat < 4 → (programBlob b s).pv = s.pv) := by
  have hramen : (busWrite s.cfg.ctrlBank b.bank s).ramenSh = s.ramenSh := by
    rw [busWrite_ramenSh, if_neg (by rw [hc.ctrlBank, hc.ctrlRamen]; decide)]
  have hbank : (busWrite s.cfg.ctrlBank b.bank s).bankSh = some b.bank := by
    rw [busWrite_bankSh, if_pos rfl]
  obtain ⟨hr, hbk, hpv⟩ := writeBlob_protocol b.offset 0 b.bytes (s := busWrite s.cfg.ctrlBank b.bank s)
    (by rwa [busWrite_cfg]) hl
  refine ⟨hbk.trans hbank, hr.trans hramen, fun hen hn => ?_⟩
  have hopen : ramOpen s.cfg s.ramenSh (some b.bank) = true := hen ▸ ramOpen_of_enabled hc hn
  have hsel : violates s.cfg (.write b.bank) s.cfg.ctrlBank s.ramenSh s.bankSh = false := by
    rw [violates_write_control hc (isControl_eq_true_iff.2 (.inr rfl)), violatesControl_bank hc]
    exact decide_eq_false (by omega)
  rw [programBlob, hpv (by rwa [busWrite_cfg, hramen, hbank]), busWrite_pv, hsel, Bool.or_false]

/-- Settles O25: each check by its lemma; past them `PROG` is its events, whose stores, shadows and `PV` are one lemma
above each. -/
theorem progResult : Obligations.ProgResult := by
  refine fun k s => ⟨decode_encode (.prog k), exec_prog_of_none, fun b => exec_prog_of_input,
    fun b hb hc h ho => ?writes⟩
  obtain ⟨hrest, hout⟩ := programBlob_lines b h
  obtain ⟨hramen, hbank, hpv⟩ := programBlob_monitor b s
  obtain ⟨hin, hdr⟩ := programBlob_env b s
  have hk := kept_programBlob b s
  rw [hc.ctrlRamen] at hramen
  rw [hc.ctrlBank] at hbank
  exact ⟨advance (programBlob b s), programEvents s.cfg b, programWrites s.cfg b, exec_prog ho hb,
    (programBlob_emits b s).advance, programEvents_eq hc b, recordBus_programEvents hc b h ho, hout, hrest,
    (programBlob_dir b s).trans ho, programBlob_led b s, programBlob_stores b hc h ho, programWrites_eq hc b, hramen,
    hbank, hpv, programBlob_protocol hc, programBlob_rdata b s, programBlob_acc b s, congrArg (· + 1) hk.cp, hk.mode,
    hk.fcode, hk.fcp, hk.fword, hin, hdr⟩

/-! ## When `PROG` sets `PV` (R67, R71) -/

/-- A bank select of a bank that does not exist is a violation whatever the shadows (R67 case 2). -/
theorem violates_bank {c : Cfg} (hc : HasHardwareConstants c) {n : Byte} (hn : 4 ≤ n.toNat)
    (ramenSh bankSh : Option Byte) : violates c (.write n) c.ctrlBank ramenSh bankSh = true :=
  violates_iff_five_cases.2 (.inr (.inl ⟨n, rfl, rfl, hc.nbanks ▸ hn⟩))

/-- An access in the RAM window while RAM is not known to be enabled is a violation (R67 case 4). -/
theorem violates_ramRelative_of_closed {c : Cfg} (hc : HasHardwareConstants c) {k : Access} {o : Nat} (ho : o < 0x2000)
    {ramenSh : Option Byte} (hr : ramenSh ≠ some 0x0A) (bankSh : Option Byte) :
    violates c k (ramRelative c o) ramenSh bankSh = true := by
  refine violates_iff.2 (.inr (.inl ⟨?window, fun hopen => hr ((ramOpen_iff hc).1 hopen).1⟩))
  case window =>
    rw [inRamWindow_eq hc]
    exact inTargetWindow_ramRelative hc ho

/-- An access outside the window and to no control address is a violation whatever the shadows (R67 case 5). -/
theorem violates_outside {c : Cfg} (hc : HasHardwareConstants c) {k : Access} {a : Addr} (hramen : a ≠ 0x0000)
    (hbank : a ≠ 0x4000) (hw : ¬ (0xA000 ≤ a.toNat ∧ a.toNat ≤ 0xBFFF)) (ramenSh bankSh : Option Byte) :
    violates c k a ramenSh bankSh = true := by
  refine violates_iff_five_cases.2 (.inr (.inr (.inr (.inr ?_))))
  rw [ramWindow_iff_le hc, hc.ctrlRamen, hc.ctrlBank]
  exact ⟨hramen, hbank, hw⟩

/-- Every byte of a blob is one of `PROG`'s writes. -/
theorem mem_programWrites {c : Cfg} (b : Blob) {j : Nat} (hj : j < b.bytes.length) :
    (blobAddr c b.offset j, b.bytes[j]) ∈ programWrites c b :=
  .tail _ (List.mem_map.2 ⟨(b.bytes[j], j), List.mk_mem_zipIdx_iff_getElem?.2 (List.getElem?_eq_getElem hj), rfl⟩)

/-- The first byte of a blob that starts in the window is a violation while RAM is not known to be enabled: the bank
select before it does not write `RAMEN_SH`. -/
theorem writesViolate_programWrites_of_closed {c : Cfg} (hc : HasHardwareConstants c) {b : Blob}
    {ramenSh : Option Byte} (hr : ramenSh ≠ some 0x0A) (hb : b.bytes ≠ []) (ho : b.offset.toNat < 0x2000)
    (bankSh : Option Byte) : writesViolate c ramenSh bankSh (programWrites c b) = true := by
  obtain ⟨v, rest, hbytes⟩ := List.exists_cons_of_ne_nil hb
  have hne : ¬ c.ctrlBank = c.ctrlRamen := by rw [hc.ctrlBank, hc.ctrlRamen]; decide
  have hfirst : violates c (.write v) (blobAddr c b.offset 0) ramenSh (some b.bank) = true := by
    rw [blobAddr_eq_ramRelative]
    exact violates_ramRelative_of_closed hc ho hr _
  have hw : programWrites c b = (c.ctrlBank, b.bank) :: (blobAddr c b.offset 0, v) :: blobWrites c b.offset 1 rest := by
    rw [← blobWrites_cons, ← hbytes]
    rfl
  simp [hw, writesViolate, hne, hfirst]

/-- Settles O26: `PV` is what `PROG`'s writes make of it, and in each of the three cases one of them is a violation. -/
theorem progSetsViolation : Obligations.ProgSetsViolation := by
  intro k b s hc ho hb
  have hset (hv : writesViolate s.cfg s.ramenSh s.bankSh (programWrites s.cfg b) = true) :
      (advance (programBlob b s)).pv = true := by
    obtain ⟨-, -, hpv⟩ := programBlob_monitor b s
    rw [advance_pv, hpv, hv, Bool.or_true]
  refine ⟨_, exec_prog ho hb, fun hn => hset ?bank, fun hr hne hoff => hset ?closed,
    fun j hj hramen hbank hw => hset ?outside⟩
  case bank => exact writesViolate_of_mem List.mem_cons_self (violates_bank hc hn)
  case closed => exact writesViolate_programWrites_of_closed hc hr hne hoff _
  case outside =>
    rw [← blobAddr_eq hc] at hramen hbank hw
    exact writesViolate_of_mem (mem_programWrites b hj) (violates_outside hc hramen hbank hw)

/-! ## Where a blob lands (R71, 20_memory.md R44) -/

/-- Settles O27: the bank select latches the bank, and each byte is then one write at its place. -/
theorem progLandsInItsBank : Obligations.ProgLandsInItsBank := by
  intro k b s hc h ho hm hb hbank hl ht
  have hw := busWrite_ctrlBank_target hc h ho b.bank
  obtain ⟨hbytes, hothers, hten, htbank⟩ :=
    writeBlob_target b.offset 0 b.bytes (s := busWrite s.cfg.ctrlBank b.bank s) (b := b.bank)
      (by rwa [busWrite_cfg]) (busWrite_rest h _ _) (by rwa [busWrite_dir]) (by rw [MemoryCanonical, hw]; exact hm) hl
      hbank (by rw [hw]; exact ht) (by rw [hw])
  simp only [hw, Nat.zero_add] at hbytes hothers
  exact ⟨_, exec_prog ho hb, hbytes, hothers, hten, htbank⟩

end Sys2Proof.Machine
end

section
/-! PROOFS, 43_checksum.md: the whole next states of `ACCINIT`, `ACCSUB` and `ACCST`, `CHKSUM` as the commands it stands
for, what it does over any oracle, and the byte it stores under the reference target. -/

namespace Sys2Proof.Machine

/-! ## `ACCINIT`, `ACCSUB` and `ACCST` (R72-R75) -/

/-- Settles O28: the word is the encoding of `ACCINIT c`, whose meaning is one record update. -/
theorem accInitResult : Obligations.AccInitResult :=
  fun c _ => ⟨decode_encode (.accinit c), rfl⟩

/-- The accumulator's subtraction in numbers (R72). -/
theorem toNat_accMinus (c v : Byte) : (accMinus c v).toNat = (c.toNat + 256 - v.toNat) % 256 := by
  have hv := v.isLt
  rw [accMinus, BitVec.toNat_sub]
  omega

/-- `ACCSUB` with `DIR = OUT`, whatever `ACC` (60_exceptions.md R87). -/
theorem exec_accsub_of_output {s : State} (ho : s.pins.dir = .output) (a : Addr) :
    exec (.accsub a) s = .next (raiseFault .dirReadWhileOut (encode (.accsub a)) s) := by
  simp [exec, execAccsub, ho]

/-- `ACCSUB` with `ACC` not valid. -/
theorem exec_accsub_of_acc_none {s : State} (hi : s.pins.dir = .input) (ha : s.acc = none) (a : Addr) :
    exec (.accsub a) s = .next (raiseFault .accUninit (encode (.accsub a)) s) := by
  simp [exec, execAccsub, hi, ha]

/-- `ACCST` with `DIR = IN`, whatever `ACC` (60_exceptions.md R87). -/
theorem exec_accst_of_input {s : State} (hi : s.pins.dir = .input) (a : Addr) :
    exec (.accst a) s = .next (raiseFault .dirWriteWhileIn (encode (.accst a)) s) := by
  simp [exec, execAccst, hi]

/-- `ACCST` with `ACC` not valid. -/
theorem exec_accst_of_acc_none {s : State} (ho : s.pins.dir = .output) (ha : s.acc = none) (a : Addr) :
    exec (.accst a) s = .next (raiseFault .accUninit (encode (.accst a)) s) := by
  simp [exec, execAccst, ho, ha]

/-- Settles O29: the word is the encoding of `ACCSUB a`, each check by its lemma, and past them one read cycle gives the
byte that `ACC` loses. -/
theorem accSubResult : Obligations.AccSubResult := by
  refine fun a s => ⟨decode_encode (.accsub a), fun ho => exec_accsub_of_output ho a,
    fun hi ha => exec_accsub_of_acc_none hi ha a, fun c hi ha hc h => ?_⟩
  obtain ⟨v, inp, dr, hread⟩ := busRead_cases hc h a
  refine ⟨v, accMinus c v, inp, dr, toNat_accMinus c v, recordBus_readEvents hc h a v, ?_⟩
  rw [exec_accsub hi ha, subtractRead, hread]
  rfl

/-- With `DIR = OUT` and `ACC` valid, `ACCST` is the bus write that `BWR` of the same byte is. -/
theorem exec_accst_eq_bwr {a : Addr} {c : Byte} {s : State} (ho : s.pins.dir = .output) (ha : s.acc = some c) :
    exec (.accst a) s = exec (.bwr a c) s := by
  rw [exec_accst ho ha, exec, execBwr, writeCommand_of_output ho]

/-- Settles O30: the word is the encoding of `ACCST a`, each check by its lemma, and past them it is `BWR` of the
byte in `ACC`. -/
theorem accStResult : Obligations.AccStResult := by
  refine fun a s => ⟨decode_encode (.accst a), fun hi => exec_accst_of_input hi a,
    fun ho ha => exec_accst_of_acc_none ho ha a, fun c ho ha hc h => ⟨?bus, ?next⟩⟩
  case bus => rw [recordBus_writeEvents hc h, ho]
  case next => rw [exec_accst_eq_bwr ho ha, exec_bwr hc h ho]

/-! ## `CHKSUM` as its commands (R76) -/

/-- The first two commands bring the checksum's start, two steps of `CP` on. -/
theorem runCommands_dirin_accinit (rest : List Instr) {s : State} (hm : s.mode = .run) :
    runCommands (.dirin :: .accinit s.cfg.chkInit :: rest) s
      = runCommands rest { checksumStart s with cp := s.cp + 2 } := by
  have hdirin : exec .dirin s = .next (advance (emit (.dir .input) s)) := rfl
  have hacc : exec (.accinit s.cfg.chkInit) (advance (emit (.dir .input) s))
      = .next { checksumStart s with cp := s.cp + 2 } := rfl
  rw [runCommands_next hdirin hm, runCommands_next hacc hm]

/-- The range's commands bring the checksum's reads, a step of `CP` on for each. -/
theorem runCommands_chkRange (tail : List Instr) (n : Nat) {s : State} (hm : s.mode = .run) :
    runCommands ((chkRange s.cfg).map .accsub ++ tail) { checksumStart s with cp := n }
      = runCommands tail { (checksumReads s).2 with cp := n + (chkRange s.cfg).length } := by
  rw [runCommands_accsubs (chkRange s.cfg) s.cfg.chkInit tail (s := { checksumStart s with cp := n }) rfl hm rfl,
    subtractRange_setCp]
  rfl

/-- The last two commands write what `ACC` holds with the bus turned out, two steps of `CP` on. -/
theorem runCommands_dirout_accst (a : Addr) {c : Byte} {s : State} (hm : s.mode = .run) (ha : s.acc = some c) :
    runCommands [.dirout, .accst a] s = { busWrite a c (emit (.dir .output) s) with cp := s.cp + 2 } := by
  have hdirout : exec .dirout s = .next { emit (.dir .output) s with cp := s.cp + 1 } := rfl
  have haccst : exec (.accst a) { emit (.dir .output) s with cp := s.cp + 1 }
      = .next (advance (busWrite a c { emit (.dir .output) s with cp := s.cp + 1 })) := exec_accst rfl ha
  rw [runCommands_next hdirout hm, runCommands_last haccst, busWrite_setCp]
  rfl

/-- The commands `CHKSUM` stands for do what its five steps do, a step of `CP` on for each. -/
theorem runCommands_checksumCommands {s : State} (hm : s.mode = .run) : runCommands (checksumCommands s.cfg) s
    = { checksumBody s with cp := s.cp + (checksumCommands s.cfg).length } := by
  have hcommands : checksumCommands s.cfg = .dirin :: .accinit s.cfg.chkInit
      :: ((chkRange s.cfg).map .accsub ++ [.dirout, .accst (chkWriteAddr s.cfg)]) := by simp [checksumCommands]
  have hcp : s.cp + (checksumCommands s.cfg).length = s.cp + 2 + (chkRange s.cfg).length + 2 := by
    simp [checksumCommands]
    omega
  rw [hcp, hcommands, runCommands_dirin_accinit _ hm, runCommands_chkRange _ _ hm,
    runCommands_dirout_accst (chkWriteAddr s.cfg) (c := (checksumReads s).1)
      (s := { (checksumReads s).2 with cp := s.cp + 2 + (chkRange s.cfg).length })
      ((checksumReads_mode s).trans hm) (checksumReads_acc s), emit_setCp, busWrite_setCp, checksumBody_eq]

/-- Settles O31: the commands do what the five steps do, and `CP` alone tells them apart. -/
theorem chksumEqualsItsCommands : Obligations.ChksumEqualsItsCommands := by
  intro s hm hb
  have hcp := (kept_checksumBody s).cp
  rw [exec_chksum hb, runCommands_checksumCommands hm, ← hcp]
  generalize checksumBody s = t
  rfl

/-! ## `CHKSUM` over any oracle (R76) -/

/-- `CHKSUM` with another bank selected, or none. -/
theorem exec_chksum_of_bank_ne {s : State} (hb : s.bankSh ≠ some s.cfg.chkBank) :
    exec .chksum s = .next (raiseFault .chkBankMismatch (encode .chksum) s) := by
  simp [exec, execChksum, hb]

/-- An address relative to `RAM_BASE` in the numbers of R9. -/
theorem ramRelative_eq {c : Cfg} (hc : HasHardwareConstants c) (o : Nat) :
    ramRelative c o = 0xA000 + BitVec.ofNat 16 o := by rw [ramRelative, hc.ramBase]

/-- The bytes the range reads take: they make the value `ACC` ends with, and the events. -/
theorem checksumReads_emits (s : State) : ∃ vs : List Byte, vs.length = s.cfg.chkEnd - s.cfg.chkStart
    ∧ (checksumReads s).1 = s.cfg.chkInit - byteSum vs
    ∧ EmittedBetween s (checksumReads s).2 ([.dir .input]
        ++ ((List.range' s.cfg.chkStart (s.cfg.chkEnd - s.cfg.chkStart)).zip vs).flatMap
            (fun x => readEvents s.cfg (ramRelative s.cfg x.1) x.2)) := by
  obtain ⟨vs, hlen, hvalue, htrace⟩ := checksumReads_trace s
  refine ⟨vs, hlen, hvalue, ?_⟩
  rw [EmittedBetween, htrace, chkRange_readEvents]
  simp

/-- After the reads come the switch to output and the write of their value. -/
theorem EmittedBetween.checksumBody {s : State} {es : List Event} (h : EmittedBetween s (checksumReads s).2 es) :
    EmittedBetween s (checksumBody s)
      (es ++ [.dir .output] ++ writeEvents s.cfg (chkWriteAddr s.cfg) (checksumReads s).1) := by
  rw [EmittedBetween] at h
  rw [EmittedBetween, checksumBody_eq, busWrite_trace, emit_cfg, emit_trace, checksumReads_cfg, h]
  simp

/-- The lines and the target after `CHKSUM`'s five steps, from lines at rest: as one write of its value leaves them, the
bus turned out. -/
theorem checksumBody_lines {s : State} (hc : HasHardwareConstants s.cfg) (h : LinesAtRest s) :
    (checksumBody s).pins = { s.pins with
        dir := .output
        ser := (chkWriteAddr s.cfg).getLsbD 15
        sr := chkWriteAddr s.cfg
        dOut := (checksumReads s).1 }
      ∧ (checksumBody s).target
        = s.target.store (!extended s.cfg (chkWriteAddr s.cfg)) (chkWriteAddr s.cfg) (checksumReads s).1 := by
  obtain ⟨⟨ser, sr, hpins⟩, htarget, hrest⟩ := checksumReads_lines h
  have hcfg : (emit (.dir .output) (checksumReads s).2).cfg = s.cfg := checksumReads_cfg s
  have hc' : HasHardwareConstants (emit (.dir .output) (checksumReads s).2).cfg := hcfg ▸ hc
  rw [checksumBody_eq, busWrite_pins hc' hrest, busWrite_target hc' hrest rfl, hcfg, emit_pins, hpins, emit_target,
    Target.observe_quiet _ _ rfl, htarget]
  exact ⟨rfl, rfl⟩

/-- The write of step 5 sets `PV` over the shadows from before the reads, which leave them alone. -/
theorem checksumBody_pv (s : State) : (checksumBody s).pv = ((checksumReads s).2.pv
    || violates s.cfg (.write (checksumReads s).1) (chkWriteAddr s.cfg) s.ramenSh s.bankSh) := by
  rw [checksumBody_eq, busWrite_pv, emit_pv, emit_cfg, emit_ramenSh, emit_bankSh, checksumReads_cfg,
    checksumReads_ramenSh, checksumReads_bankSh]

/-- The monitor after `CHKSUM`'s five steps: the reads of the range, then the write of its value. -/
theorem checksumBody_monitor (s : State) :
    (checksumBody s).ramenSh
        = (if chkWriteAddr s.cfg = s.cfg.ctrlRamen then some (checksumReads s).1 else s.ramenSh)
      ∧ (checksumBody s).bankSh
        = (if chkWriteAddr s.cfg = s.cfg.ctrlBank then some (checksumReads s).1 else s.bankSh)
      ∧ (checksumBody s).pv = (s.pv
        || (List.range' s.cfg.chkStart (s.cfg.chkEnd - s.cfg.chkStart)).any
            (fun o => violates s.cfg .read (ramRelative s.cfg o) s.ramenSh s.bankSh)
        || violates s.cfg (.write (checksumReads s).1) (chkWriteAddr s.cfg) s.ramenSh s.bankSh) := by
  rw [checksumBody_pv, checksumReads_pv, chkRange, List.any_map, checksumBody_eq, busWrite_ramenSh, busWrite_bankSh,
    emit_cfg, emit_ramenSh, emit_bankSh, checksumReads_cfg, checksumReads_ramenSh, checksumReads_bankSh]
  exact ⟨rfl, rfl, rfl⟩

/-- Settles O32: the bank check by its lemma; past it the events, the lines and the target, and the monitor are one
lemma above each, in terms of the value the reads give. -/
theorem chksumResult : Obligations.ChksumResult := by
  refine fun s => ⟨decode_encode .chksum, exec_chksum_of_bank_ne, fun hb hc h => ?past⟩
  obtain ⟨vs, hlen, hvalue, hreads⟩ := checksumReads_emits s
  have hevents := hreads.checksumBody
  obtain ⟨hpins, htarget⟩ := checksumBody_lines hc h
  obtain ⟨hramen, hbank, hpv⟩ := checksumBody_monitor s
  obtain ⟨hacc, -, -⟩ := checksumBody_env s
  have hx := exec_chksum hb
  have hrdata := checksumBody_rdata s
  have hk := kept_checksumBody s
  generalize checksumBody s = t at *
  rw [not_extended_eq_decide hc] at htarget
  rw [hc.ctrlRamen] at hramen
  rw [hc.ctrlBank] at hbank
  simp only [hvalue, chkWriteAddr, ramRelative_eq hc] at hevents hpins htarget hramen hbank hpv hacc
  exact ⟨advance t, vs, _, hx, hlen, rfl, hevents.advance, hacc, hpins, htarget, hramen, hbank, hpv, hrdata,
    hk.mode, congrArg (· + 1) hk.cp, hk.fcode, hk.fcp, hk.fword⟩

/-! ## The byte `CHKSUM` stores (R77, 20_memory.md R44, R45) -/

/-- Settles O33: the range reads take the bank's bytes, and the write reaches the bank's write offset. -/
theorem chksumStoresComplementOfSum : Obligations.ChksumStoresComplementOfSum := by
  intro s hc h hm hor hb hbank hend hw hten htbank
  obtain ⟨hvalue, hpvReads, hinputs, hdraws⟩ := checksumReads_bank hc h hor hend hbank hten htbank
  obtain ⟨hacc, hinputs', hdraws'⟩ := checksumBody_env s
  have hx := exec_chksum hb
  have hpv := checksumBody_pv s
  have htarget : (checksumBody s).target = { s.target with
      tram := Memory.write s.target.fill s.target.tram (s.cfg.chkBank.toNat * 0x2000 + s.cfg.chkWrite)
        (checksumReads s).1 } :=
    (checksumBody_lines hc h).2.trans (Target.store_ramRelative hc hw hbank hten htbank)
  generalize checksumBody s = t at *
  refine ⟨advance t, (checksumReads s).1, hx, hvalue, hacc, ?stored, fun loc hne => ?frame,
    fun hen => ?pv, hinputs'.trans hinputs, hdraws'.trans hdraws⟩
  case stored =>
    rw [advance_target, htarget]
    exact Target.byteAt_write_same hm
  case frame =>
    rw [advance_target, htarget]
    exact Target.byteAt_write_other hne
  case pv =>
    have hopen : ramOpen s.cfg s.ramenSh s.bankSh = true := by rw [hen, hb]; exact ramOpen_of_enabled hc hbank
    rw [advance_pv, hpv, hpvReads hopen, chkWriteAddr, violates_ramRelative hc hw hopen, Bool.or_false]

end Sys2Proof.Machine
end

section
/-! PROOFS, 44_control.md: what a step is in each case of the sequencer, the configuration check, the two terminal
commands, and how a run ends well. -/

namespace Sys2Proof.Machine

/-! ## A step in each case (R78) -/

/-- While the configuration check is to come, the step is the check (R98). -/
theorem step_of_checkPending {s : State} (hp : s.checkPending = true) : step s = .next (configCheck s) := by
  simp [step, hp]

/-- The word at `CP` decodes: the step is its command. -/
theorem step_of_decode {s : State} {w : Word} {i : Instr} (hp : s.checkPending = false) (hm : s.mode = .run)
    (hw : s.program[s.cp]? = some w) (hd : decode w = .ok i) : step s = exec i s := by
  simp [step, hp, hm, fetch, hw, hd]

/-- Fetching past the end is the fault entry of R88. -/
theorem step_of_fetch_none {s : State} (hp : s.checkPending = false) (hm : s.mode = .run)
    (hw : s.program[s.cp]? = none) : step s = .next (raiseFault .endOfProgram 0 s) := by
  simp [step, hp, hm, fetch, hw]

theorem step_of_done {s : State} (hp : s.checkPending = false) (hm : s.mode = .done) :
    step s = .fault .parkedDone := by
  simp [step, hp, hm]

theorem step_of_panic {s : State} (hp : s.checkPending = false) (hm : s.mode = .panic) :
    step s = .fault .parkedPanic := by
  simp [step, hp, hm]

theorem step_of_fault {s : State} (hp : s.checkPending = false) (hm : s.mode = .fault) :
    step s = .fault .parkedFault := by
  simp [step, hp, hm]

/-- Settles O8: the cases of a step, one lemma each; a word with a decode error decodes to no command. -/
theorem stepRunsDecodedCommand : Obligations.StepRunsDecodedCommand := by
  refine fun s hp => ⟨fun w i hm hw hd => step_of_decode hp hm hw hd, fun hm hlen => ?past,
    fun w e hm hw hd => ?illegal, step_of_done hp, step_of_panic hp, step_of_fault hp⟩
  case past => exact step_of_fetch_none hp hm (List.getElem?_eq_none hlen)
  case illegal => exact step_of_illegal hp hm hw (by simp [hd])

/-! ## Every command answers (R78, 60_exceptions.md R88) -/

/-- A running sequencer with the check behind it has a next step, whatever the fetch gives. -/
theorem exists_step_of_run {s : State} (hp : s.checkPending = false) (hm : s.mode = .run) :
    ∃ t : State, step s = .next t := by
  cases hw : s.program[s.cp]? with
  | none => exact ⟨_, step_of_fetch_none hp hm hw⟩
  | some w =>
    cases hd : decode w with
    | error e => exact ⟨_, step_of_illegal hp hm hw (by simp [hd])⟩
    | ok i => exact ⟨_, (step_of_decode hp hm hw hd).trans (exec_eq i s)⟩

/-- Settles O9: a command is fault entry or its effect, both next states; a step that answers is the check or one of a
running sequencer. -/
theorem everyCommandCompletes : Obligations.EveryCommandCompletes := by
  refine ⟨fun i s => ⟨_, exec_eq i s⟩, fun s => ⟨fun h => ?answers, fun ⟨t, ht⟩ => ?only⟩⟩
  case answers =>
    cases hp : s.checkPending with
    | true => exact ⟨_, step_of_checkPending hp⟩
    | false => exact exists_step_of_run hp (h.resolve_left (by simp [hp]))
  case only =>
    rcases step_cases ht with ⟨hp, -⟩ | ⟨-, hm, -⟩
    · exact .inl hp
    · exact .inr hm

/-! ## The configuration check (R79) -/

/-- A blob of a legal configuration, in numbers. -/
theorem blobOk_iff {c : Cfg} {b : Blob} : blobOk c b = true ↔
    b.bank.toNat < c.nbanks ∧ b.offset.toNat + b.bytes.length ≤ c.bankSize := by
  simp [blobOk]

/-- A word of a legal program: a `PROG` has its blob, a bank select has its bank. -/
theorem wordOk_iff {c : Cfg} {w : Word} : wordOk c w = true ↔
    (∀ k : Byte, decode w = .ok (.prog k) → k.toNat < c.blobs.length)
      ∧ (∀ n : Byte, decode w = .ok (.bwr c.ctrlBank n) → n.toNat < c.nbanks) := by
  unfold wordOk
  cases decode w with
  | error e => simp
  | ok i =>
    cases i with
    | prog k => simp
    | bwr a n => by_cases ha : a = c.ctrlBank <;> simp [ha]
    | _ => simp

/-- `CfgOk` is the conjunction of R79. -/
theorem cfgOk_iff {c : Cfg} {program : List Word} : cfgOk c program = true ↔
    1 ≤ c.settle ∧ c.blobs.length ≤ 256
      ∧ (∀ b ∈ c.blobs, b.bank.toNat < c.nbanks ∧ b.offset.toNat + b.bytes.length ≤ c.bankSize)
      ∧ c.chkBank.toNat < c.nbanks ∧ c.chkStart ≤ c.chkEnd ∧ c.chkEnd ≤ c.bankSize ∧ c.chkWrite < c.bankSize
      ∧ (∀ w ∈ program, (∀ k : Byte, decode w = .ok (.prog k) → k.toNat < c.blobs.length)
          ∧ (∀ n : Byte, decode w = .ok (.bwr c.ctrlBank n) → n.toNat < c.nbanks)) := by
  simp only [cfgOk, Bool.and_eq_true, decide_eq_true_eq, List.all_eq_true, blobOk_iff, wordOk_iff, and_assoc]

/-- The check of a configuration that fails it enters PANIC. -/
theorem configCheck_of_bad {s : State} (hv : s.cfg.cfgValidate = true) (hbad : cfgOk s.cfg s.program = false) :
    configCheck s = enterPanic { s with checkPending := false } := by
  simp [configCheck, hv, hbad]

/-- The check of a configuration that passes it, or that is not to be checked, sets the mode to RUN. -/
theorem configCheck_of_ok {s : State} (hok : s.cfg.cfgValidate = true → cfgOk s.cfg s.program = true) :
    configCheck s = { s with mode := .run, checkPending := false } := by
  rcases configCheck_cases s with ⟨hv, hbad, -⟩ | ⟨-, hc⟩
  · rw [hok hv] at hbad; cases hbad
  · exact hc

/-- Settles O11: `CfgOk` in its own terms, and the check's two outcomes; `Halt(PANIC)` moves no line. -/
theorem configurationCheck : Obligations.ConfigurationCheck := by
  refine ⟨fun c program => cfgOk_iff, fun s hp hv hbad => ?fails, fun s hp hok => ?passes⟩
  case fails => rw [step_of_checkPending hp, configCheck_of_bad hv hbad]; rfl
  case passes => rw [step_of_checkPending hp, configCheck_of_ok hok]

/-! ## `DONE` and `PANIC` (R80, R81) -/

/-- Settles O12: the word is the encoding of `DONE`, whose effect parks the sequencer. -/
theorem doneResult : Obligations.DoneResult := by
  refine ⟨decode_encode .done, fun s => ⟨rfl, fun t hp h => ?_⟩⟩
  cases h
  exact step_of_done hp rfl

/-- The `LED` pattern depends on the place within one period. -/
theorem panicLed_period (c : Cfg) (k t : Nat) : panicLed c (k * (c.blinkOn + c.blinkOff) + t) = panicLed c t := by
  simp only [panicLed, Nat.mul_add_mod_self_right]

/-- Within the first period the `LED` is 1 exactly for `BLINK_ON`. -/
theorem panicLed_first {c : Cfg} {t : Nat} (h : t < c.blinkOn + c.blinkOff) :
    panicLed c t = decide (t < c.blinkOn) := by
  rw [panicLed, Nat.mod_eq_of_lt h]

/-- Settles O13: the word is the encoding of `PANIC`, whose effect parks the sequencer; the blink repeats its first
period. -/
theorem panicResult : Obligations.PanicResult := by
  refine ⟨decode_encode .panic, fun s => rfl, fun c k t => ⟨fun h => ?on, fun h => ?off⟩, rfl, rfl,
    fun s t hp h => ?step⟩
  case on => rw [panicLed_period, panicLed_first (by omega), decide_eq_true h]
  case off => rw [Nat.add_assoc, panicLed_period, panicLed_first (by omega), decide_eq_false (by omega)]
  case step =>
    cases h
    exact step_of_panic hp rfl

/-! ## How a run ends well (R82) -/

/-- Settles O55: where halts and mode agree, a run in DONE has no other halt on its trace. -/
theorem endsWellExactlyInDone : Obligations.EndsWellExactlyInDone := by
  rintro s ⟨hhalt, -, -⟩
  simp only [EndedWell, hhalt]
  exact ⟨fun ⟨hm, _⟩ => hm, fun hm => by simp [hm]⟩

end Sys2Proof.Machine
end

section
/-! PROOFS, 60_exceptions.md: fault entry and the end of stepping, which fault a command raises, and
`BAD_BLOB_INDEX`, which a checked configuration never raises. -/

namespace Sys2Proof.Machine

/-! ## A checked configuration (R86, 44_control.md R79) -/

/-- The code 0x06 is `BAD_BLOB_INDEX` and no other fault (R86). -/
theorem FaultCode.code_eq_six_iff {f : FaultCode} : f.code = 0x06 ↔ f = .badBlobIndex := by
  cases f <;> decide

theorem badBlobIndex_of_raiseFault {f : FaultCode} {w : Word} {s : State} (h : (raiseFault f w s).fcode = 0x06) :
    f = .badBlobIndex :=
  FaultCode.code_eq_six_iff.1 ((raiseFault_fcode f w s).symm.trans h)

/-- Only a `PROG` names a blob, and its blob is missing when the index is past the table. -/
theorem badBlob_iff {i : Instr} {s : State} :
    badBlob i s = true ↔ ∃ k : Byte, i = .prog k ∧ s.cfg.blobs.length ≤ k.toNat := by
  cases i <;> simp [badBlob]

/-- The configuration check does not write the fault record. -/
theorem configCheck_fcode (s : State) : (configCheck s).fcode = s.fcode := by
  rcases configCheck_cases s with ⟨-, -, hc⟩ | ⟨-, hc⟩ <;> rw [hc]
  rfl

/-- A step comes to record `BAD_BLOB_INDEX` only by running a `PROG` of the program whose blob is missing. -/
theorem missing_blob_of_step {s t : State} (h : step s = .next t) (hs : s.fcode ≠ 0x06) (ht : t.fcode = 0x06) :
    s.checkPending = false ∧ s.mode = .run
      ∧ ∃ w ∈ s.program, ∃ k : Byte, decode w = .ok (.prog k) ∧ s.cfg.blobs.length ≤ k.toNat := by
  rcases step_cases h with ⟨-, rfl⟩ | ⟨hp, hm, ⟨-, rfl⟩ | ⟨w, e, -, -, rfl⟩ | ⟨w, i, hw, hd, hx⟩⟩
  · exact absurd ((configCheck_fcode s).symm.trans ht) hs
  · cases badBlobIndex_of_raiseFault ht
  · cases badBlobIndex_of_raiseFault ht
  · rcases exec_cases hx with ⟨f, hf, rfl⟩ | ⟨-, rfl⟩
    · rw [badBlobIndex_of_raiseFault ht] at hf
      obtain ⟨k, rfl, hk⟩ := badBlob_iff.1 (badBlob_of_commandFault hf)
      exact ⟨hp, hm, w, List.mem_of_getElem? hw, k, hd, hk⟩
    · exact absurd ((effect_kept i s).fcode.symm.trans ht) hs

/-- A legal configuration has the blob of every `PROG` in its program. -/
theorem blob_lt_of_cfgOk {c : Cfg} {program : List Word} (hok : cfgOk c program = true) {w : Word}
    (hw : w ∈ program) {k : Byte} (hd : decode w = .ok (.prog k)) : k.toNat < c.blobs.length := by
  obtain ⟨-, -, -, -, -, -, -, hwords⟩ := cfgOk_iff.1 hok
  exact (hwords w hw).1 k hd

/-- The check itself establishes what it checks, or ends in PANIC; a later step changes neither parameter. -/
theorem step_configChecked {s t : State} (hs : ConfigChecked s) (h : step s = .next t) : ConfigChecked t := by
  obtain ⟨hcfg, hprogram, -⟩ := stepKeepsConfiguration s t h
  intro hv _ hpanic
  rw [hcfg] at hv ⊢
  rw [hprogram]
  rcases step_cases h with ⟨-, rfl⟩ | ⟨hp, hm, -⟩
  · rcases configCheck_cases s with ⟨-, -, hc⟩ | ⟨hok, -⟩
    · exact absurd (congrArg State.mode hc) hpanic
    · exact hok hv
  · exact hs hv hp (by simp [hm])

/-- Settles O53: the step that would record the fault runs a `PROG` of a missing blob, which the check has ruled
out. -/
theorem checkedConfigurationNeverBadBlob : Obligations.CheckedConfigurationNeverBadBlob := by
  rintro s t ⟨hs, hf⟩ h
  refine ⟨step_configChecked hs h, fun hv ht => ?_⟩
  rw [(stepKeepsConfiguration s t h).1] at hv
  obtain ⟨hp, hm, w, hw, k, hd, hk⟩ := missing_blob_of_step h (hf hv) ht
  have hok : cfgOk s.cfg s.program = true := hs hv hp (by simp [hm])
  exact absurd (blob_lt_of_cfgOk hok hw hd) (by omega)

/-! ## Which fault a command raises (R87) -/

/-- Fault entry as one record update: the halt it emits moves no line and no latch (R88). -/
theorem raiseFault_eq (f : FaultCode) (w : Word) (s : State) : raiseFault f w s = { s with
    fcode := f.code, fcp := s.cp, fword := w, mode := .fault, trace := .halt .fault :: s.trace } := rfl

theorem exec_of_commandFault {i : Instr} {s : State} {f : FaultCode} (h : commandFault i s = some f) :
    exec i s = .next (raiseFault f (encode i) s) := by
  simp only [exec_eq, h]

theorem exec_of_no_commandFault {i : Instr} {s : State} (h : commandFault i s = none) :
    exec i s = .next (effect i s) := by
  simp only [exec_eq, h]

/-- No effect enters FAULT: it keeps the mode, or ends the run in DONE or PANIC. -/
theorem effect_mode_fault {i : Instr} {s : State} (h : (effect i s).mode = .fault) : s.mode = .fault := by
  rcases effect_cases i s with ⟨t, he, hk⟩ | rfl | rfl
  · rw [he, advance_mode, hk.mode] at h
    exact h
  · cases h
  · cases h

/-- Settles O39: a command is the fault entry of its first failing check, or else its effect, which writes no fault
record. -/
theorem faultsAreFirstFailingCheckAndPrecise : Obligations.FaultsAreFirstFailingCheckAndPrecise := by
  intro i s
  refine ⟨fun f hf => ?fails, fun hnone => ?passes⟩
  case fails => rw [exec_of_commandFault hf, raiseFault_eq]
  case passes =>
    have hk := effect_kept i s
    exact ⟨_, exec_of_no_commandFault hnone, hk.fcode, hk.fcp, hk.fword, effect_mode_fault⟩

/-! ## Fault entry, and what leaves a terminal mode (R88, R89, R97) -/

/-- Settles O38: fault entry is its record update, past the end of the program too, and parks the sequencer. -/
theorem faultEntry : Obligations.FaultEntry := by
  refine ⟨raiseFault_eq, fun s hp hm hlen => ?pastEnd, fun f w s hp => ?parked, rfl, rfl, rfl, rfl, rfl, rfl, rfl⟩
  case pastEnd => rw [step_of_fetch_none hp hm (List.getElem?_eq_none hlen), raiseFault_eq, FaultCode.code]
  case parked => exact step_of_fault hp (raiseFault_mode f w s)

/-- Settles O40: a step that answers is the check or starts in RUN; R27 fixes both registers a reset leaves. -/
theorem onlyResetLeavesTerminalModes : Obligations.OnlyResetLeavesTerminalModes := by
  refine ⟨fun s hp hm t h => ?noStep, fun s => ⟨hardReset_mode s, hardReset_checkPending s⟩⟩
  case noStep =>
    rcases step_cases h with ⟨hp', -⟩ | ⟨-, hrun, -⟩
    · rw [hp] at hp'; cases hp'
    · exact hm hrun

end Sys2Proof.Machine
end

section
/-! PROOFS, 70_reset_and_hazards.md: no step has a bus hazard, and what a reset forgets and establishes. -/

namespace Sys2Proof.Machine

/-! ## Hazards of the bus (R100-R103) -/

/-- Settles O48: a step is a run of chunks, none of which has a hazard from lines at rest. -/
theorem noStepHasABusHazard : Obligations.NoStepHasABusHazard := by
  intro s t hc hs h
  obtain ⟨es, hr⟩ := step_runs h
  exact ⟨es, hr.trace, busSafeAlong_iff.2 (hr.chunks.safe hc hs rfl)⟩

/-! ## Reset (R98) -/

/-- At the start of a run every byte of the target's RAM is that run's draw (20_memory.md R43). -/
theorem Target.byteAt_atStart (n loc : Nat) : (Target.atStart n).byteAt loc = Config.tramAtStart n loc := rfl

/-- A reset reads the parameters and the number of the run, and nothing else of the state. -/
theorem hardReset_congr {s u : State} (hcfg : u.cfg = s.cfg) (hprogram : u.program = s.program)
    (horacle : u.oracle = s.oracle) (hinputs : u.inputs = s.inputs) (hdraws : u.draws = s.draws)
    (hrun : u.target.run = s.target.run) : hardReset u = hardReset s := by
  rw [hardReset, hardReset, hcfg, hprogram, horacle, hinputs, hdraws, hrun]

/-- The reference target belongs to one run for as long as the machine steps. -/
theorem step_run {s t : State} (h : step s = .next t) : t.target.run = s.target.run := by
  obtain ⟨es, hr⟩ := step_runs h
  rw [hr.target, Target.observeAll_run]

/-- Settles O57: a reset reads only the parameters and the run's number, draws the target of the next run, and no step
changes the number. -/
theorem nothingPersistsAcrossReset : Obligations.NothingPersistsAcrossReset := by
  refine ⟨fun s u => hardReset_congr, fun s => ⟨?run, ?ten, ?tbank, fun loc => ?byte⟩, fun s t => step_run⟩
  case run => rw [hardReset_target, Target.atStart]
  case ten => rw [hardReset_target, Target.atStart]
  case tbank => rw [hardReset_target, Target.atStart]
  case byte => rw [hardReset_target, Target.byteAt_atStart]

/-- Settles O58: after any reset the lines are idle, no shadow holds a value, the target's memory lists nothing, nothing
has been emitted, and the check is still to come. -/
theorem invariantsHoldAfterAnyReset : Obligations.InvariantsHoldAfterAnyReset := by
  intro s
  refine ⟨?constants, ?lines, ?shadows, ?memory, ?sequencer, ?checked, ?record⟩
  case constants => exact fun hc => hc
  case lines => exact ⟨rfl, rfl, rfl, rfl, rfl⟩
  case shadows => exact ⟨nofun, nofun⟩
  case memory => rfl
  case sequencer => exact (sequencerAgrees_iff_of_run (hardReset_mode s)).2 ⟨rfl, hardReset_fcode s⟩
  case checked =>
    intro _ hp
    rw [hardReset_checkPending] at hp
    cases hp
  case record =>
    rw [hardReset_fcode]
    decide

end Sys2Proof.Machine
end
